-- ==== Sys2Proof/Word.lean ====
section
/-! DEFINITION. The words, symbols and indices of the block (00_scope.md rules R10 to R14). -/

namespace Sys2Proof

/-- A host register (R14): 32 bits, bit 31 the most significant. Counts and weights are
`COUNT_WIDTH` = 32 bits wide too (R10, R12). -/
abbrev Word := BitVec 32

/-- One byte of a channel's stream (R201). -/
abbrev Byte := BitVec 8

/-- A bit sequence (R13): the head is the first bit sent or received. -/
abbrev Bits := List Bool

/-- A Symbol (R12): an integer in `[0, 256]`. It is kept in 9 bits in the node store and in the header. -/
abbrev CodeSymbol := Fin 257

/-- A node index (R12): an integer in `[0, NODE_CAP)`, kept in 10 bits. -/
abbrev NodeIdx := Fin 513

/-- `EOF_SYM` (R10): the end-of-stream symbol, outside the 8-bit literals. -/
def eofSym : CodeSymbol := 256

end Sys2Proof
end

