-- ==== Sys2Proof/Syntax.lean ====
section
/-! DEFINITION. The instructions of spec/opcode_table.json, the tree notation of the stream header, the phases, and
the lines of a host program (30_encoding.md rules R300 to R311; 10_state.md rule R104). -/

namespace Sys2Proof

/-- One constructor per row of spec/opcode_table.json. The rows have four formats: the host's command words
(R300, R301), the tokens of the tree header (R303), the two other stream fields (R302, R305) and the engine operations
that a phase selects (R104). -/
inductive Instr where
  /-- NOP (R543). -/
  | nop
  /-- COMPRESS (R544). -/
  | compress
  /-- DECOMPRESS (R545). -/
  | decompress
  /-- ILLEGAL_COMMAND (R608): the word written, which is none of 0, 1 and 2. -/
  | illegalCommand (w : Word)
  /-- HDR_INTERNAL (R303): the one-bit token of an internal node. -/
  | hdrInternal
  /-- HDR_LEAF (R303, R304): the ten-bit token of a leaf, with its 9-bit value field. -/
  | hdrLeaf (v : BitVec 9)
  /-- MAGIC (R302, R466, R506): the 32-bit field that opens a stream. -/
  | magic
  /-- BODY_CODE (R305): one code, given as its bits in sending order, a root-to-leaf path. -/
  | bodyCode (path : Bits)
  /-- FC_COUNT (R400), PHASE 0x1. -/
  | fcCount
  /-- TB_BUILD (R420), PHASE 0x2. -/
  | tbBuild
  /-- CG_GEN (R440), PHASE 0x3. -/
  | cgGen
  /-- HS_WRITE (R460), PHASE 0x4. -/
  | hsWrite
  /-- BE_ENCODE (R480), PHASE 0x5. -/
  | beEncode
  /-- HD_READ (R500), PHASE 0x6. -/
  | hdRead
  /-- SR_DECODE (R520), PHASE 0x7. -/
  | srDecode
  /-- CLOSING (R552), PHASE 0x8. -/
  | closing
  deriving DecidableEq, Repr

/-- PHASE, the sequencer's state (R104). The reserved values 0x9 to 0xD are never held, so they have no name here. -/
inductive Phase where
  | idle | count | build | codegen | hdrWrite | bodyEnc | hdrRead | decode | closing | done | error
  deriving DecidableEq, Repr

/-- The shape of a code tree with its leaf symbols (R17), which is what a stream's header holds (R303, R463):
weights and node indices are left out. -/
inductive CodeTree where
  | leaf (s : CodeSymbol)
  | node (l r : CodeTree)
  deriving DecidableEq, Repr

/-- How a bit sequence goes on after the bits that are written out (20_memory.md R201, 46_symbol_recovery.md R527,
93_implementation_defined.md row 26; the two endless forms are notes/assumptions/29.md). -/
inductive After where
  /-- It ends there: a read of more bits answers EOS (R202). -/
  | eos
  /-- It never ends: the bit at position `p` of the sequence is the one at `p` modulo the length in the period `b :: bs`. -/
  | repeats (b : Bool) (bs : Bits)
  /-- It never ends, and nothing is known of the bits to come, free values that `source` names. -/
  | unknown (source : Nat)
  deriving DecidableEq, Repr

/-- What a channel IN delivers in one pass: the bytes written out, and how it goes on after them. -/
structure InStream where
  bytes : List Byte
  after : After
  deriving DecidableEq, Repr

/-- The finite stream of these bytes (R201). -/
def InStream.of (bytes : List Byte) : InStream := ⟨bytes, .eos⟩

/-- One thing that happens next: either the core's own turn, or a line of the host's program (R311), or an act of the
channels or of the reset input. A list of turns fixes how the agents of R9 interleave. -/
inductive Turn where
  /-- CORE takes one step (R7). -/
  | core
  /-- `wr`: a host store of `bytes` bytes at a byte offset of the 64-byte window (R101, R210). -/
  | store (offset : BitVec 6) (bytes : Nat) (data : Word)
  /-- `rd`: a host load of `bytes` bytes at a byte offset of the window (R101, R210). -/
  | load (offset : BitVec 6) (bytes : Nat)
  /-- `wait`: load STATUS until DONE or ERROR (R311). -/
  | wait
  /-- `attach`: the host attaches IN at its first bit and an empty, open OUT (R311, R716). `second` is what IN delivers
  after the rewind, the same bytes when the host keeps R711; `shared` says that IN and OUT share storage (R712). -/
  | attach (first second : InStream) (shared : Bool)
  /-- From here on IN and OUT answer, or do not (R213). -/
  | channels (inAnswers outAnswers : Bool)
  /-- The reset input `rst` is asserted, or deasserted (R701): it keeps its level until the next such turn. -/
  | rst (asserted : Bool)
  deriving DecidableEq, Repr

namespace Turn

/-- `nop` = `wr CMD, 0x00000000` (R311). -/
def nop : Turn := .store 0x00#6 4 0x00000000#32

/-- `compress` = `wr CMD, 0x00000001` (R311). -/
def compress : Turn := .store 0x00#6 4 0x00000001#32

/-- `decompress` = `wr CMD, 0x00000002` (R311). -/
def decompress : Turn := .store 0x00#6 4 0x00000002#32

end Turn

end Sys2Proof
end

