-- ==== Sys2Proof/Machine/Bits.lean ====
section
/-! DEFINITION. Bit sequences and their values, most significant bit first (00_scope.md rule R13; 20_memory.md rules
R201, R207, R208). -/

namespace Sys2Proof

/-- `bits_n(v)` (R13): the `n`-bit big-endian representation of `v`. Bits of `v` above the `n`-th are dropped; the rules
use it with `v < 2^n` only. -/
def bitsOf : Nat → Nat → Bits
  | 0, _ => []
  | n + 1, v => v.testBit n :: bitsOf n v

/-- `val(s)` with an accumulator for the bits before `s`. -/
def valFrom (acc : Nat) : Bits → Nat
  | [] => acc
  | b :: s => valFrom (2 * acc + b.toNat) s

/-- `val(s)` (R13): the number whose big-endian bits are `s`. -/
def valOf (s : Bits) : Nat := valFrom 0 s

/-- The bits of a byte stream: the bytes in order, each most significant bit first (R201, R207). -/
def bytesToBits : List Byte → Bits
  | [] => []
  | b :: bs => bitsOf 8 b.toNat ++ bytesToBits bs

/-- A bit stream cut into groups of 8 bits, each read most significant bit first (R205). Bits after the last whole
group are left out; a closed output has none. -/
def bitsToBytes : Bits → List Byte
  | b7 :: b6 :: b5 :: b4 :: b3 :: b2 :: b1 :: b0 :: rest =>
      BitVec.ofNat 8 (valOf [b7, b6, b5, b4, b3, b2, b1, b0]) :: bitsToBytes rest
  | _ => []

/-- How many zero bits `CloseOut()` appends to a stream of `n` bits (R205, R548). -/
def padLength (n : Nat) : Nat := (8 - n % 8) % 8

/-- The Symbol a number names; a number above 256 is brought into range and no rule uses it so (R304, R402). -/
def symbolOf (v : Nat) : CodeSymbol := Fin.ofNat 257 v

end Sys2Proof
end

