-- ==== Sys2Proof/WellFormed.lean ====
section
/-! DEFINITION. Which terms of `Instr` are instructions of the spec (30_encoding.md rules R301, R304, R305). -/

namespace Sys2Proof

/-- The encodable and legal instructions. An ILLEGAL_COMMAND carries a word that is no legal command (R301, R309); the
value of a leaf token names a Symbol (R304: 257 to 511 decode too, and raise BAD_SYMBOL when they run); a code has 1 to
`MAX_CODE_LEN` = 256 bits (R305). -/
def Instr.wf : Instr → Bool
  | .illegalCommand w => w != 0#32 && w != 1#32 && w != 2#32
  | .hdrLeaf v => decide (v.toNat ≤ 256)
  | .bodyCode path => decide (1 ≤ path.length) && decide (path.length ≤ 256)
  | .nop | .compress | .decompress | .hdrInternal | .magic | .fcCount | .tbBuild | .cgGen | .hsWrite | .beEncode
  | .hdRead | .srDecode | .closing => true

end Sys2Proof
end

