-- ==== Sys2Proof/Decode.lean ====
section
/-! DEFINITION. The decoder and the encoder of every row of spec/opcode_table.json (30_encoding.md rules R300 to R310;
10_state.md rule R104). A word means something only in the place it stands in, so decoding takes a `Space`. -/

namespace Sys2Proof

/-- Where the bits to decode stand. -/
inductive Space where
  /-- A word the host writes to CMD (R300). -/
  | command
  /-- The four bits of STATUS.PHASE (R104). -/
  | phase
  /-- The first field of a stream (R302). -/
  | magicField
  /-- The tree header of a stream (R303). -/
  | headerToken
  /-- The body of a stream whose header holds the tree `t` (R305, R308). -/
  | body (t : CodeTree)
  deriving DecidableEq, Repr

/-- Why bits decode to no instruction. -/
inductive DecodeError where
  /-- Fewer bits than the field needs: the read would answer EOS (R202, R502, R504, R506, R524). -/
  | needsMoreBits
  /-- IDLE, DONE and ERROR select no operation (R104). -/
  | noOperation
  /-- PHASE values 0x9 to 0xD are reserved and never held (R104). -/
  | reservedPhase
  /-- The 32-bit field differs from the magic (R506). -/
  | notMagic
  deriving DecidableEq, Repr

/-- The command word, by exact match: every word but 0, 1 and 2 is an illegal command (R301). -/
def decodeCommand (w : Word) : Instr :=
  if w = 0x00000000#32 then .nop
  else if w = 0x00000001#32 then .compress
  else if w = 0x00000002#32 then .decompress
  else .illegalCommand w

/-- The encoding of PHASE (R104). -/
def Phase.code : Phase → BitVec 4
  | .idle => 0x0#4
  | .count => 0x1#4
  | .build => 0x2#4
  | .codegen => 0x3#4
  | .hdrWrite => 0x4#4
  | .bodyEnc => 0x5#4
  | .hdrRead => 0x6#4
  | .decode => 0x7#4
  | .closing => 0x8#4
  | .done => 0xE#4
  | .error => 0xF#4

/-- The phase a 4-bit value encodes; the reserved values encode none (R104). -/
def Phase.ofCode (v : Nat) : Option Phase :=
  match v with
  | 0 => some .idle
  | 1 => some .count
  | 2 => some .build
  | 3 => some .codegen
  | 4 => some .hdrWrite
  | 5 => some .bodyEnc
  | 6 => some .hdrRead
  | 7 => some .decode
  | 8 => some .closing
  | 14 => some .done
  | 15 => some .error
  | _ => none

/-- The operation a phase selects (R104, R546, R549, R552). -/
def Phase.operation : Phase → Option Instr
  | .idle | .done | .error => none
  | .count => some .fcCount
  | .build => some .tbBuild
  | .codegen => some .cgGen
  | .hdrWrite => some .hsWrite
  | .bodyEnc => some .beEncode
  | .hdrRead => some .hdRead
  | .decode => some .srDecode
  | .closing => some .closing

/-- The operation the value of STATUS.PHASE selects. -/
def decodePhase (v : Nat) : Except DecodeError Instr :=
  match Phase.ofCode v with
  | none => .error .reservedPhase
  | some p =>
    match p.operation with
    | none => .error .noOperation
    | some i => .ok i

/-- A field of `n` bits at the head of a stream, with the bits after it. -/
def takeField (n : Nat) (bits : Bits) : Except DecodeError (Nat × Bits) :=
  if bits.length < n then .error .needsMoreBits else .ok (valOf (bits.take n), bits.drop n)

/-- A header token: its first bit gives its length, 1 bit or 10 (R303, R307). -/
def decodeToken : Bits → Except DecodeError (Instr × Bits)
  | [] => .error .needsMoreBits
  | false :: rest => .ok (.hdrInternal, rest)
  | true :: rest =>
    match takeField 9 rest with
    | .error e => .error e
    | .ok (v, rest') => .ok (.hdrLeaf (BitVec.ofNat 9 v), rest')

/-- The magic field (R302, R506), for a block whose parameter MAGIC is `magic`. -/
def decodeMagic (magic : Word) (bits : Bits) : Except DecodeError (Instr × Bits) :=
  match takeField 32 bits with
  | .error e => .error e
  | .ok (v, rest) => if v = magic.toNat then .ok (.magic, rest) else .error .notMagic

/-- The root-to-leaf path a walk from the root of `t` follows along `bits`, the symbol it reaches and the bits left
(R308, R521). -/
def CodeTree.walk : CodeTree → Bits → Except DecodeError (Bits × CodeSymbol × Bits)
  | .leaf s, bits => .ok ([], s, bits)
  | .node _ _, [] => .error .needsMoreBits
  | .node l _, false :: rest =>
    match l.walk rest with
    | .error e => .error e
    | .ok (p, s, rest') => .ok (false :: p, s, rest')
  | .node _ r, true :: rest =>
    match r.walk rest with
    | .error e => .error e
    | .ok (p, s, rest') => .ok (true :: p, s, rest')

/-- One body code (R305, R308). On a tree that is one leaf, every bit is a code (R310, R521). -/
def decodeBody : CodeTree → Bits → Except DecodeError (Instr × Bits)
  | .leaf _, [] => .error .needsMoreBits
  | .leaf _, b :: rest => .ok (.bodyCode [b], rest)
  | .node l r, bits =>
    match (CodeTree.node l r).walk bits with
    | .error e => .error e
    | .ok (p, _, rest) => .ok (.bodyCode p, rest)

/-- Decoding, total on any bits: the instruction at their head and the bits after it, or the reason there is none. -/
def decode (magic : Word) : Space → Bits → Except DecodeError (Instr × Bits)
  | .command, bits =>
    match takeField 32 bits with
    | .error e => .error e
    | .ok (v, rest) => .ok (decodeCommand (BitVec.ofNat 32 v), rest)
  | .phase, bits =>
    match takeField 4 bits with
    | .error e => .error e
    | .ok (v, rest) =>
      match decodePhase v with
      | .error e => .error e
      | .ok i => .ok (i, rest)
  | .magicField, bits => decodeMagic magic bits
  | .headerToken, bits => decodeToken bits
  | .body t, bits => decodeBody t bits

/-- The bits of an instruction in sending order, from the same tables (R301, R302, R303, R305, R104). `magic` is the
parameter MAGIC. -/
def encode (magic : Word) : Instr → Bits
  | .nop => bitsOf 32 0x00000000
  | .compress => bitsOf 32 0x00000001
  | .decompress => bitsOf 32 0x00000002
  | .illegalCommand w => bitsOf 32 w.toNat
  | .hdrInternal => [false]
  | .hdrLeaf v => true :: bitsOf 9 v.toNat
  | .magic => bitsOf 32 magic.toNat
  | .bodyCode path => path
  | .fcCount => bitsOf 4 0x1
  | .tbBuild => bitsOf 4 0x2
  | .cgGen => bitsOf 4 0x3
  | .hsWrite => bitsOf 4 0x4
  | .beEncode => bitsOf 4 0x5
  | .hdRead => bitsOf 4 0x6
  | .srDecode => bitsOf 4 0x7
  | .closing => bitsOf 4 0x8

/-- `p` is one whole code of the tree `t`: a root-to-leaf path, or one bit when `t` is a leaf (R305, R310). -/
def CodeTree.isCode : CodeTree → Bits → Bool
  | .leaf _, p => p.length == 1
  | .node l r, p =>
    match (CodeTree.node l r).walk p with
    | .error _ => false
    | .ok (_, _, rest) => rest.isEmpty

/-- The space an instruction's encoding stands in. -/
def Instr.inSpace (i : Instr) (sp : Space) : Bool :=
  match i with
  | .nop | .compress | .decompress | .illegalCommand _ => decide (sp = .command)
  | .hdrInternal | .hdrLeaf _ => decide (sp = .headerToken)
  | .magic => decide (sp = .magicField)
  | .bodyCode p =>
    match sp with
    | .body t => t.isCode p
    | .command | .phase | .magicField | .headerToken => false
  | .fcCount | .tbBuild | .cgGen | .hsWrite | .beEncode | .hdRead | .srDecode | .closing => decide (sp = .phase)

/-- The space of a row of spec/opcode_table.json by the number of bits the table gives it, in whole bytes: the command
words are 32 bits; a leaf token has 10, so two bytes; the internal token and the phases have one byte, and of these the
value 0 is the token, since PHASE 0x0 selects no operation. -/
def tableSpace (nbits w : Nat) : Option (Space × Bits) :=
  if 24 < nbits then
    if w < 2 ^ 32 then some (.command, bitsOf 32 w) else none
  else if 8 < nbits then
    if w < 2 ^ 10 then some (.headerToken, bitsOf 10 w) else none
  else if w = 0 then some (.headerToken, [false])
  else if w < 2 ^ 4 then some (.phase, bitsOf 4 w)
  else none

/-- The instruction the decoder reads from the bits `w` of a table row (bit 0 the least significant bit of the row's
word). The rows MAGIC and BODY_CODE have no fixed pattern: the first stands for a parameter and the second for a path of
the tree at hand, so no word alone decodes to them here. -/
def decodeTableWord (nbits w : Nat) : Option Instr :=
  match tableSpace nbits w with
  | none => none
  | some (sp, bits) =>
    match decode 0#32 sp bits with
    | .ok (i, []) => some i
    | _ => none

end Sys2Proof
end

