-- ==== Sys2Proof/Machine/Stores.lean ====
section
/-! DEFINITION. The internal stores of the engines as plain data (10_state.md rules R110 to R118). -/

namespace Sys2Proof.Machine

/-- An entry of the node store (R112). KIND is the constructor. The fields the entry's kind does not use are left out,
since they hold an unspecified value that no rule reads. -/
inductive Node where
  /-- KIND = 1: SYM, WEIGHT, MINSYM. -/
  | leaf (sym : CodeSymbol) (weight : Word) (minsym : CodeSymbol)
  /-- KIND = 0: WEIGHT, MINSYM, LEFT, RIGHT. -/
  | internal (weight : Word) (minsym : CodeSymbol) (left right : NodeIdx)
  deriving DecidableEq, Repr, Inhabited

/-- An entry of STACK (R116, whose entry format is not architectural): the node being visited, the index of its left
subtree once that has been read (used while decoding a header), and the path to it (used while generating codes). -/
structure Frame where
  node : NodeIdx
  left : Option NodeIdx
  path : Bits
  deriving DecidableEq, Repr, Inhabited

/-- The internal stores (R110 to R118). PQ_SIZE, SP and each CODE entry's LEN are the lengths of the lists they
measure, and so have no field of their own; CODE's BITS above LEN are unspecified and left out (R115). -/
@[ext]
structure Stores where
  /-- FREQ[0..256] (R110). -/
  freq : Vector Word 257
  /-- TOTAL (R111). -/
  total : Word
  /-- NODE[0..512] (R112). -/
  node : Vector Node 513
  /-- NODE_COUNT, in [0, NODE_CAP] (R113). -/
  nodeCount : Fin 514
  /-- ROOT (R113). -/
  root : NodeIdx
  /-- PQ (R114), in no architectural order. -/
  pq : List NodeIdx
  /-- CODE[0..256]: the bits of each code; the empty list is LEN = 0 (R115). -/
  code : Vector Bits 257
  /-- STACK (R116), the top first. -/
  stack : List Frame
  /-- DEC_CUR (R117). -/
  decCur : NodeIdx
  /-- LIT_OUT (R118). -/
  litOut : Word
  deriving DecidableEq, Repr, Inhabited

namespace Stores

/-- PQ_SIZE, 9 bits (R114). -/
def pqSize (st : Stores) : BitVec 9 := BitVec.ofNat 9 st.pq.length

/-- SP, 10 bits (R116). -/
def sp (st : Stores) : BitVec 10 := BitVec.ofNat 10 st.stack.length

/-- CODE[s].LEN, 9 bits (R115). -/
def codeLen (st : Stores) (s : CodeSymbol) : BitVec 9 := BitVec.ofNat 9 st.code[s].length

end Stores

namespace Node

/-- KIND: 1 = Leaf, 0 = Internal (R112). -/
def kind : Node → BitVec 1
  | .leaf .. => 1#1
  | .internal .. => 0#1

/-- WEIGHT (R112). -/
def weight : Node → Word
  | .leaf _ w _ => w
  | .internal w _ _ _ => w

/-- MINSYM (R112, R421). -/
def minsym : Node → CodeSymbol
  | .leaf _ _ m => m
  | .internal _ m _ _ => m

end Node

end Sys2Proof.Machine
end

