-- ==== Sys2Proof/Config.lean ====
section
/-! DEFINITION. The parameters of the block (00_scope.md rule R10), and the values the spec leaves open: constants with
no body, so that nothing proved here can depend on what they are. -/

namespace Sys2Proof.Config

/-- `NODE_CAP` (R10): the capacity of the node store; `STACK_CAP` is the same. -/
def nodeCap : Nat := 513

/-- `QUEUE_CAP` (R10): the capacity of the tree builder's queue. -/
def queueCap : Nat := 257

/-- `MAX_CODE_LEN` (R10): the longest code the table stores. -/
def maxCodeLen : Nat := 256

/-- `MAX_INPUT` = 2^COUNT_WIDTH - 2 (R10): the most input bytes one COMPRESS accepts. -/
def maxInput : Word := 0xFFFFFFFE#32

/-- `MAGIC` (R10, decision D2): a parameter of the block, OPEN. The register ID holds it. -/
opaque magic : Word

/-- The default the spec's worked streams use for `MAGIC` (R10); the model's own tests put it in ID. -/
def defaultMagic : Word := 0xFACE8201#32

/-- `REG_BASE` (R214, decision D13): where the platform puts the register window, OPEN. The spec states no width of a
host address: that it has 32 bits is the model's DESIGN CHOICE (notes/assumptions/20.md). -/
opaque regBase : Word

/-- The address a host uses for a byte offset of the register window (R200, R214). The sum is modulo 2^32, which is the
model's DESIGN CHOICE with the width (notes/assumptions/20.md); no step uses it. -/
def hostAddress (offset : BitVec 6) : Word := regBase + offset.setWidth 32

/-- Free value: where IN's cursor stands after a read answered EOS (R202, decision D7), and after a command cut by
reset (R702). -/
opaque freeCursor : Nat → Nat

/-- Free value: the bits of an endless IN of which nothing is known, by its source and the position (R527). -/
opaque freeBit : Nat → Nat → Bool

/-- Free value: which of the phases a STATUS load may show it shows while BUSY (R718, decision D30). -/
opaque freePhase : Nat → Nat

/-- Free value: the MINSYM of a node the decoder builds (decision D26). -/
opaque freeMinsym : Nat → NodeIdx → CodeSymbol

/-- Free value: the internal stores between commands, after an error and after reset (R119, R611, R700). -/
opaque freeStores : Nat → Machine.Stores

/-- Free value: what OUT holds after a command cut by reset (R702). -/
opaque freeOutput : Nat → Bits

/-- Free value: what `PQExtractMin()` answers on an empty queue. The rules never ask it (R420). -/
opaque freeIndex : Nat → NodeIdx

end Sys2Proof.Config
end

