-- ==== Sys2Proof/Machine/State.lean ====
section
/-! DEFINITION. The state of the block and of its two channels, of the host's pending program, and the reasons a step can
stop (10_state.md; 20_memory.md rules R201, R204, R206; 70_reset_and_hazards.md rule R700). -/

namespace Sys2Proof.Machine

/-- Where FC_COUNT stands (R400): before the clear of R401, or in its loop. -/
inductive CountAt where
  | start | loop
  deriving DecidableEq, Repr

/-- Where HS_WRITE stands (R460): before its first action, about to write the magic, or about to write the token of the
node on top of STACK. -/
inductive HdrWriteAt where
  | start | magic | token
  deriving DecidableEq, Repr

/-- Where BE_ENCODE stands (R480): before the rewind, about to read a byte, or about to emit the code of `s`. -/
inductive BodyEncAt where
  | start | read | emit (s : CodeSymbol)
  deriving DecidableEq, Repr

/-- Where HD_READ stands (R500): before its first action, about to read the magic, about to read a control bit, or about
to read the value of the leaf allocated as entry `i`. -/
inductive HdrReadAt where
  | start | magic | control | value (i : NodeIdx)
  deriving DecidableEq, Repr

/-- Where SR_DECODE stands (R520): before its first action, about to read a bit, or about to write the literal `s`. -/
inductive DecodeAt where
  | start | bit | literal (s : CodeSymbol)
  deriving DecidableEq, Repr

/-- The sequencer: PHASE (R104) and, inside the operations that make several channel transactions, which one is next
(R7: a step makes at most one). -/
inductive Seq where
  | idle
  | count (pos : CountAt)
  | build
  | codegen
  | hdrWrite (pos : HdrWriteAt)
  | bodyEnc (pos : BodyEncAt)
  | hdrRead (pos : HdrReadAt)
  | decode (pos : DecodeAt)
  | closing
  | done
  | error
  deriving DecidableEq, Repr

/-- A channel transaction as the event history records it (R206). -/
inductive Event where
  /-- `RD(n, result)`; no value is EOS. -/
  | rd (n : Nat) (result : Option Nat)
  /-- `RST`. -/
  | rst
  /-- `WR(bits)`. -/
  | wr (bits : Bits)
  /-- `CLOSE`. -/
  | close
  deriving DecidableEq, Repr

/-- The input channel IN (R201, R203, R213). -/
@[ext]
structure InChannel where
  /-- The bit sequence `in`; of an endless one, its bits so far. -/
  bits : Bits
  /-- How `in` goes on after `bits`: it ends there, or it never reports EOS (R527). -/
  after : After
  /-- The cursor `ip`. -/
  ip : Nat
  /-- What `in` is after `ResetIn()`: the same sequence when the host keeps R711. -/
  rewound : Bits
  /-- How `in` goes on after `rewound`. -/
  rewoundAfter : After
  /-- Whether a channel is attached and answers (R213). -/
  answers : Bool
  deriving DecidableEq, Repr

/-- The output channel OUT (R204, R205, R213). -/
@[ext]
structure OutChannel where
  /-- The bit sequence `out`. -/
  bits : Bits
  /-- The flag `closed`. -/
  closed : Bool
  /-- Whether a channel is attached and answers (R213). -/
  answers : Bool
  deriving DecidableEq, Repr

/-- Everything the spec gives the block, its channels and its host; CMD keeps no value (R102), and STATUS, ERR, BUSY,
DONE, ERROR and irq are computed from these fields (Machine/Flags.lean). -/
@[ext]
structure State where
  /-- PHASE (R104) with the position inside the running operation. -/
  seq : Seq
  /-- STATUS.OP (R103, R541). -/
  op : BitVec 2
  /-- ERR.CODE (R105). -/
  errCode : BitVec 8
  /-- ERR.CAUSE (R105). -/
  errCause : BitVec 8
  /-- ERR_INFO (R106). -/
  errInfo : Word
  /-- ID (R107): the parameter MAGIC, hardwired. -/
  id : Word
  /-- The internal stores (R110 to R118). -/
  stores : Stores
  /-- IN (R201). -/
  input : InChannel
  /-- OUT (R204). -/
  output : OutChannel
  /-- IN and OUT share storage (R220, R712). -/
  shared : Bool
  /-- The event history (R206, R216), oldest first: every channel transaction since reset. A command's own history is what is
  added between its issue and its end. -/
  events : List Event
  /-- What the host, the channels and the reset input do next, between the core's turns; empty means the core's turn. -/
  agenda : List Turn
  /-- The value of the host's last load (R311). -/
  loaded : Word
  /-- The level of the reset input `rst` (R701). -/
  rst : Bool
  /-- The phase that the last STATUS load during the running command showed: later ones never go back (R718). -/
  shown : Option Phase
  /-- The model's own: how many free values have been taken. -/
  freeCount : Nat
  deriving DecidableEq, Repr

/-- The reasons the machine stops for good. The block's own errors are no faults: they end the command in ERROR (R551). -/
inductive Fault where
  /-- Raised by the operations that write or close OUT when OUT has been closed already and the host has attached no other
  (against R716): the spec does not say what a released channel does. Safe: nothing is provable of what follows. -/
  | outputReleased
  /-- Raised by CG_GEN when the walk visits more than NODE_CAP entries, so that NODE and ROOT hold no tree (against R112,
  R441): the hardware's walk would not end. No run reaches it. Safe. -/
  | walkDoesNotEnd
  deriving DecidableEq, Repr

/-- The reasons the model gives no meaning to what is asked of it. -/
inductive Refusal where
  /-- An instruction with no meaning yet, by its mnemonic. Raised by `exec` alone. Safe. -/
  | notModelled (mnemonic : String)
  /-- A host access that is not a 32-bit access at a multiple of 4 (R210). Raised by the host port. Safe. -/
  | badAccess
  /-- A COMPRESS or DECOMPRESS while IN and OUT share storage (R220, R712). Raised by those commands. Safe. -/
  | sharedStorage
  /-- The host attaches other channels while a command runs (R712). Raised by the host port. Safe. -/
  | attachedWhileBusy
  /-- An operation or a stream token that the phase does not select: it has no command word and runs only in its phase
  (R104, R400, R420, R440, R460, R480, R500, R520). Raised by the operations and the tokens; `step` never asks for one.
  Safe. -/
  | notSelected
  deriving DecidableEq, Repr

/-- What a meaning answers. -/
abbrev Result := Host.Outcome State Fault Refusal

/-- The internal stores right after reset. The spec says unspecified (R700); the model names zero, and for NODE a leaf
of symbol 0, since R112 has no entry that is its own child (notes/assumptions/2.md). -/
def Stores.reset : Stores where
  freq := Vector.replicate 257 0#32
  total := 0#32
  node := Vector.replicate 513 (.leaf 0 0#32 0)
  nodeCount := 0
  root := 0
  pq := []
  code := Vector.replicate 257 []
  stack := []
  decCur := 0
  litOut := 0#32

/-- The machine right after reset (R700), no channel attached and nothing asked by the host (95_test_vectors.md
section 5). -/
def State.reset : State where
  seq := .idle
  op := 0#2
  errCode := 0#8
  errCause := 0#8
  errInfo := 0#32
  id := Config.magic
  stores := Stores.reset
  input := { bits := [], after := .eos, ip := 0, rewound := [], rewoundAfter := .eos, answers := false }
  output := { bits := [], closed := false, answers := false }
  shared := false
  events := []
  agenda := []
  loaded := 0#32
  rst := false
  shown := none
  freeCount := 0

end Sys2Proof.Machine
end

