-- ==== Sys2Proof/Machine/Flags.lean ====
section
/-! DEFINITION. The flags and the status words, all computed from PHASE and the error fields (10_state.md rules R103 to
R109). -/

namespace Sys2Proof

/-- STATUS.BUSY as a function of PHASE: 1 while PHASE is one of 0x1 to 0x8 (R103). -/
def Phase.busy : Phase → Bool
  | .idle | .done | .error => false
  | .count | .build | .codegen | .hdrWrite | .bodyEnc | .hdrRead | .decode | .closing => true

/-- The phases of the command that STATUS.OP names, in their order (R546, R549). -/
def Phase.ofCommand (op : BitVec 2) : List Phase :=
  if op = 2#2 then [.hdrRead, .decode, .closing] else [.count, .build, .codegen, .hdrWrite, .bodyEnc, .closing]

namespace Machine

/-- PHASE without the position inside an operation (R104). -/
def Seq.phase : Seq → Phase
  | .idle => .idle
  | .count _ => .count
  | .build => .build
  | .codegen => .codegen
  | .hdrWrite _ => .hdrWrite
  | .bodyEnc _ => .bodyEnc
  | .hdrRead _ => .hdrRead
  | .decode _ => .decode
  | .closing => .closing
  | .done => .done
  | .error => .error

/-- The first position of a phase: an operation starts from its beginning (R546, R549). -/
def Seq.begin : Phase → Seq
  | .idle => .idle
  | .count => .count .start
  | .build => .build
  | .codegen => .codegen
  | .hdrWrite => .hdrWrite .start
  | .bodyEnc => .bodyEnc .start
  | .hdrRead => .hdrRead .start
  | .decode => .decode .start
  | .closing => .closing
  | .done => .done
  | .error => .error

namespace State

/-- STATUS.PHASE (R103, R104). -/
def phase (s : State) : Phase := s.seq.phase

/-- STATUS.BUSY (R103). -/
def busy (s : State) : Bool := s.phase.busy

/-- STATUS.DONE: 1 while PHASE = 0xE (R103). -/
def doneFlag (s : State) : Bool := decide (s.phase = .done)

/-- STATUS.ERROR: 1 while PHASE = 0xF (R103). -/
def errorFlag (s : State) : Bool := decide (s.phase = .error)

/-- The output signal `irq` = DONE OR ERROR (R108, R609). -/
def irq (s : State) : Bool := s.doneFlag || s.errorFlag

/-- STATUS (R103) with `p` in the field PHASE: [0] BUSY, [1] DONE, [2] ERROR, [3] 0, [7:4] PHASE, [9:8] OP, [31:10] 0. -/
def statusWordAs (p : Phase) (s : State) : Word :=
  0#22 ++ s.op ++ p.code ++ 0#1 ++ BitVec.ofBool s.errorFlag ++ BitVec.ofBool s.doneFlag ++ BitVec.ofBool s.busy

/-- The register STATUS (R103). -/
def statusWord (s : State) : Word := s.statusWordAs s.phase

/-- The phases that STATUS loads of the running command may still show while BUSY (R718): from the one the last such load
showed, in the command's order. -/
def showable (s : State) : List Phase :=
  match s.shown with
  | none => Phase.ofCommand s.op
  | some p => (Phase.ofCommand s.op).dropWhile (· ≠ p)

/-- The phase that a STATUS load shows: while BUSY one of the showable ones, a free value (R718, decision D30); else the
phase itself. The register is the phase itself at all times. -/
def shownPhase (s : State) : Phase :=
  if s.busy then s.showable.getD (Config.freePhase s.freeCount % s.showable.length) s.phase else s.phase

/-- ERR (R105): [7:0] CODE, [15:8] CAUSE, [31:16] 0. -/
def errWord (s : State) : Word := 0#16 ++ s.errCause ++ s.errCode

end State

end Machine

end Sys2Proof
end

