-- ==== Sys2Proof/Machine/Operands.lean ====
section
/-! DEFINITION. The operands of the block: the host register window (10_state.md rule R101) and the four channel
primitives (00_scope.md rule R15; 20_memory.md rules R200 to R213). -/

namespace Sys2Proof.Machine

/-- The `n` bits from position `p` on of a sequence whose written-out bits end before `p`. -/
def bitsAfter (p n : Nat) : After → Bits
  | .eos => []
  | .repeats b bs => (List.range n).map fun k => (b :: bs).getD ((p + k) % (b :: bs).length) b
  | .unknown source => (List.range n).map fun k => Config.freeBit source (p + k)

/-- The same sequence with at least `n` of its bits written out, if it has so many: an endless IN delivers what is asked
for (R527), and one that ends stays as it is. -/
def InChannel.supplyTo (n : Nat) (c : InChannel) : InChannel :=
  { c with bits := c.bits ++ bitsAfter c.bits.length (n - c.bits.length) c.after }

/-- IN with its cursor at a free place `p` of the sequence: position `p` of an endless one, and `p` modulo one more than
the length of one that ends, so that it stays inside (R201). -/
def InChannel.moveTo (p : Nat) (c : InChannel) : InChannel :=
  { c.supplyTo p with ip := p % ((c.supplyTo p).bits.length + 1) }

namespace State

/-- What a host load of a word slot returns (R101): CMD and the reserved slots read 0, and STATUS shows while BUSY a phase
of the command, not always the present one (R718). -/
def readReg (s : State) (offset : BitVec 6) : Word :=
  if offset = 0x04#6 then s.statusWordAs s.shownPhase
  else if offset = 0x08#6 then s.errWord
  else if offset = 0x0C#6 then s.errInfo
  else if offset = 0x10#6 then s.id
  else 0x00000000#32

/-- A host load of a word slot. It has no side effect on the block (R212); of a STATUS load while BUSY the model keeps the
phase shown, since later ones show no earlier phase (R718). -/
def loadReg (offset : BitVec 6) (s : State) : State :=
  if offset = 0x04#6 ∧ s.busy = true then
    { s with loaded := s.readReg offset, shown := some s.shownPhase, freeCount := s.freeCount + 1 }
  else { s with loaded := s.readReg offset }

/-- The engines' next transaction of a phase, or the next phase. -/
def goto (s : State) (q : Seq) : State := { s with seq := q }

/-- One more channel transaction in the event history (R206, R216). -/
def record (s : State) (e : Event) : State := { s with events := s.events ++ [e] }

/-- The written-out bits of IN the cursor has not passed. -/
def unread (s : State) : Bits := s.input.bits.drop s.input.ip

/-- A read of `n` bits that answers the value `v` (R202): the cursor moves past them. -/
def takeBits (n v : Nat) (s : State) : State :=
  { s with input := { s.input with ip := s.input.ip + n } }.record (.rd n (some v))

/-- A read of `n` bits that answers EOS (R202). The cursor afterwards is unspecified within `0 <= ip <= len(in)` (R201),
so it is a free value; no rule reads it before `ResetIn()` or the end of the command. -/
def takeEos (n : Nat) (s : State) : State :=
  { s with
    input := { s.input with ip := Config.freeCursor s.freeCount % (s.input.bits.length + 1) }
    freeCount := s.freeCount + 1 }.record (.rd n none)

/-- IN with the next `n` bits of an endless sequence written out; a finite one stays as it is. -/
def supply (n : Nat) (s : State) : State := { s with input := s.input.supplyTo (s.input.ip + n) }

/-- `ReadBits(n)` (R15, R202): EOS exactly when fewer than `n` bits remain, so never on an endless IN (R527); the value is
the bits most significant first (R207). -/
def readBits (n : Nat) (s : State) : Option Nat × State :=
  let s := s.supply n
  if s.input.bits.length - s.input.ip < n then (none, s.takeEos n)
  else
    let v := valOf (s.unread.take n)
    (some v, s.takeBits n v)

/-- `ResetIn()` (R203): the cursor goes to the first bit, and IN delivers what it delivers after the rewind (R711). -/
def resetIn (s : State) : State :=
  { s with input := { s.input with bits := s.input.rewound, after := s.input.rewoundAfter, ip := 0 } }.record .rst

/-- `WriteBits` of a bit sequence (R204): it is appended to OUT. -/
def writeBits (bits : Bits) (s : State) : State :=
  { s with output := { s.output with bits := s.output.bits ++ bits } }.record (.wr bits)

/-- `CloseOut()` (R205): zero bits up to the byte boundary, then closed. -/
def closeOut (s : State) : State :=
  { s with
    output := { s.output with
      bits := s.output.bits ++ List.replicate (padLength s.output.bits.length) false
      closed := true } }.record .close

end State

/-- A transaction on IN: a channel that does not answer leaves the core where it is (R213). -/
def onInput (s : State) (k : State → Result) : Result :=
  if s.input.answers then k s else .next s

/-- A transaction on OUT: a channel that does not answer leaves the core where it is (R213). What OUT does once
released is not the spec's (R205, R716). -/
def onOutput (s : State) (k : State → Result) : Result :=
  if s.output.answers then
    if s.output.closed then .fault .outputReleased else k s
  else .next s

/-- `ReadBits(n)` as an engine uses it: what the engine does with EOS or the value, in the state after the read. -/
def withRead (n : Nat) (s : State) (k : Option Nat → State → Result) : Result :=
  onInput s fun s => k (s.readBits n).1 (s.readBits n).2

/-- `WriteBits` as an engine uses it: what the engine does in the state after the write. -/
def withWrite (bits : Bits) (s : State) (k : State → Result) : Result :=
  onOutput s fun s => k (s.writeBits bits)

end Sys2Proof.Machine
end

