-- ==== Sys2Proof/Machine/Ops.lean ====
section
/-! DEFINITION. The operations the meanings share: raising an error and leaving one (60_exceptions.md), starting a
command (47_sequencer.md rules R540 to R542), reset (70_reset_and_hazards.md), and the node store, the queue and the
stack (10_state.md rules R112 to R116). -/

namespace Sys2Proof.Machine

/-- The names of the errors (R600). -/
inductive ErrorName where
  | badMagic | malformedHeader | truncatedStream | inputTooLong | headerCapacity | inputMismatch | illegalCommand
  deriving DecidableEq, Repr

/-- ERR.CODE of an error (R600). -/
def ErrorName.code : ErrorName → BitVec 8
  | .badMagic => 1#8
  | .malformedHeader => 2#8
  | .truncatedStream => 3#8
  | .inputTooLong => 4#8
  | .headerCapacity => 5#8
  | .inputMismatch => 6#8
  | .illegalCommand => 7#8

namespace State

/-- ERR and ERR_INFO take an error's code, cause and context word (R16, R600). -/
def setError (e : ErrorName) (cause : BitVec 8) (info : Word) (s : State) : State :=
  { s with errCode := e.code, errCause := cause, errInfo := info }

/-- Taking an error inside a running operation: `raise E(cause, info)` and the error exit (R16, R551, R611). ERR and
ERR_INFO save the code, the cause and the context, the operation is abandoned, and PHASE goes to CLOSING. -/
def raise (e : ErrorName) (cause : BitVec 8) (info : Word) (s : State) : State :=
  (s.setError e cause info).goto .closing

/-- Leaving DONE or ERROR by an acknowledgement (R543, R612): PHASE goes to IDLE, and ERR, ERR_INFO and OP are kept. In
IDLE there is nothing to leave. -/
def acknowledge (s : State) : State :=
  if s.doneFlag || s.errorFlag then s.goto .idle else s

/-- What an accepted COMPRESS, DECOMPRESS or illegal command does first (R541, R542): ERR and ERR_INFO are cleared and
OP is recorded. No STATUS load has shown a phase of the new command yet (R718). -/
def startCommand (op : BitVec 2) (s : State) : State :=
  { s with op := op, errCode := 0#8, errCause := 0#8, errInfo := 0#32, shown := none }

end State

/-- A command issue (R540): while BUSY the write is ignored; otherwise `k` is what the command does. -/
def issue (s : State) (k : State → Result) : Result :=
  if s.busy then .next s else k s

/-- A command that works on the channels (R544, R545): refused when they share storage (R712). -/
def issueOnChannels (s : State) (k : State → Result) : Result :=
  issue s fun s => if s.shared then .refused .sharedStorage else k s

namespace Stores

/-- The contents the stores may have when the spec leaves them unspecified, within their capacities (R114 to R116). -/
def withinCapacity (st : Stores) : Stores :=
  { st with
    pq := st.pq.take Config.queueCap
    code := st.code.map (List.take Config.maxCodeLen)
    stack := st.stack.take Config.nodeCap }

/-- `Alloc()` (R113): the next free entry of NODE, or none at NODE_CAP. -/
def alloc (st : Stores) : Option (NodeIdx × Stores) :=
  if h : st.nodeCount.val < 513 then
    some (⟨st.nodeCount.val, h⟩, { st with nodeCount := ⟨st.nodeCount.val + 1, by omega⟩ })
  else none

/-- `NODE[i] <- n` (R112). -/
def setNode (st : Stores) (i : NodeIdx) (n : Node) : Stores :=
  { st with node := st.node.set i.val n }

/-- `before(x, y)` on two entries of NODE (R422): by WEIGHT, then by MINSYM. -/
def before (st : Stores) (x y : NodeIdx) : Bool :=
  let nx := st.node[x]
  let ny := st.node[y]
  decide (nx.weight.toNat < ny.weight.toNat ∨
    (nx.weight = ny.weight ∧ nx.minsym.val < ny.minsym.val))

/-- `PQInsert(i)` (R420). Where in PQ it stands is not architectural (R114). -/
def pqInsert (st : Stores) (i : NodeIdx) : Stores := { st with pq := i :: st.pq }

/-- The entry of a queue that comes before every other one, and the rest of the queue (R422). -/
def takeMin (st : Stores) : List NodeIdx → Option (NodeIdx × List NodeIdx)
  | [] => none
  | x :: xs =>
    match st.takeMin xs with
    | none => some (x, [])
    | some (m, rest) => if st.before x m then some (x, m :: rest) else some (m, x :: rest)

/-- `PQExtractMin()` (R422); none on an empty queue. -/
def pqExtractMin (st : Stores) : Option (NodeIdx × Stores) :=
  match st.takeMin st.pq with
  | none => none
  | some (m, rest) => some (m, { st with pq := rest })

/-- The nodes a walk visits after `n`, in order: the left child before the right (R441, R460). -/
def children (st : Stores) (n : NodeIdx) : List NodeIdx :=
  match st.node[n] with
  | .leaf .. => []
  | .internal _ _ l r => [l, r]

end Stores

namespace State

/-- The internal stores become unspecified (R119, R611): free values within the capacities. -/
def discardStores (s : State) : State :=
  { s with stores := (Config.freeStores s.freeCount).withinCapacity, freeCount := s.freeCount + 1 }

/-- What the channels hold after a reset cut a command short (R702): OUT's contents and IN's position are unspecified.
OUT is not closed, and the core makes no transaction. -/
def cutCommand (s : State) : State :=
  { s with
    input := s.input.moveTo (Config.freeCursor s.freeCount)
    output := { s.output with bits := Config.freeOutput s.freeCount }
    freeCount := s.freeCount + 1 }

/-- Reset (R700 to R702): the registers take their reset values, ID keeps its own, the stores are unspecified, and a
running command is cut with no close and no error record. -/
def resetBlock (s : State) : State :=
  let s := if s.busy then s.cutCommand else s
  { s with seq := .idle, op := 0#2, errCode := 0#8, errCause := 0#8, errInfo := 0#32, shown := none }.discardStores

/-- While `rst` is asserted, the state of R700 is forced (R701). -/
def forced (s : State) : State := if s.rst then s.resetBlock else s

/-- `rst` is asserted, which resets the block, or deasserted, which leaves it in IDLE (R701). -/
def setRst (asserted : Bool) (s : State) : State :=
  if asserted then { s with rst := true }.resetBlock else { s with rst := false }

end State

end Sys2Proof.Machine
end

