-- ==== Sys2Proof/Machine/Closing.lean ====
section
/-! DEFINITION. CLOSING, the end of a command (47_sequencer.md rules R552, R553). -/

namespace Sys2Proof.Machine

/-- The final phase: DONE without an error, ERROR with one (R552). The stores are discarded (R119). What
the channels hold unread after the end is left open (R553; 93_implementation_defined.md row 33): IN stays where the last read
left it (DESIGN CHOICE, notes/assumptions/32.md). -/
def finish (s : State) : State :=
  s.discardStores.goto (if s.errCode = 0#8 then .done else .error)

/-- CLOSING (R552): `CloseOut()`, then DONE or ERROR. -/
def execClosing (s : State) : Result :=
  match s.seq with
  | .closing => onOutput s fun s => .next (finish s.closeOut)
  | _ => .refused .notSelected

end Sys2Proof.Machine
end

