-- ==== Sys2Proof/Machine/CodeTableGenerator.lean ====
section
/-! DEFINITION. CG_GEN, the code table (42_code_table_generator.md). It makes no channel access, so it is one step (R7). -/

namespace Sys2Proof.Machine

/-- The depth-first walk on STACK (R440, R441), at most `n` visits: a leaf's code is the path to it, a left edge adds 0
and a right edge adds 1. None when visits are left over. -/
def cgWalk (node : Vector Node 513) : Nat → List Frame → Vector Bits 257 → Option (Vector Bits 257)
  | _, [], code => some code
  | 0, _ :: _, _ => none
  | n + 1, f :: fs, code =>
    match node[f.node] with
    | .leaf s _ _ => cgWalk node n fs (code.set s.val f.path)
    | .internal _ _ l r =>
      cgWalk node n (⟨l, none, f.path ++ [false]⟩ :: ⟨r, none, f.path ++ [true]⟩ :: fs) code

/-- The code table of the tree at ROOT (R440): every entry empty at first; a tree that is one leaf has the code 0
(R443). -/
def cgTable (st : Stores) : Option (Vector Bits 257) :=
  let empty : Vector Bits 257 := Vector.replicate 257 []
  match st.node[st.root] with
  | .leaf s _ _ => some (empty.set s.val [false])
  | .internal .. => cgWalk st.node Config.nodeCap [⟨st.root, none, []⟩] empty

/-- CG_GEN (R440). A walk ends with STACK empty. On a tree that is one leaf R440 makes no walk, and STACK is left
unspecified (R119); the model empties it there too (DESIGN CHOICE, notes/assumptions/31.md). A walk makes NODE_COUNT visits
at most (R441), so one that is not over after NODE_CAP visits does not walk a tree, and would not end. -/
def execCgGen (s : State) : Result :=
  match s.seq with
  | .codegen =>
    match cgTable s.stores with
    | none => .fault .walkDoesNotEnd
    | some code => .next ({ s with stores := { s.stores with code := code, stack := [] } }.goto (.begin .hdrWrite))
  | _ => .refused .notSelected

end Sys2Proof.Machine
end

