-- ==== Sys2Proof/Machine/Commands.lean ====
section
/-! DEFINITION. The command words NOP, COMPRESS, DECOMPRESS and ILLEGAL_COMMAND (47_sequencer.md rules R540 to R545;
60_exceptions.md rule R608). Each is ignored while BUSY (R540). -/

namespace Sys2Proof.Machine

/-- NOP (R543). -/
def execNop (s : State) : Result :=
  issue s fun s => .next s.acknowledge

/-- COMPRESS (R544). -/
def execCompress (s : State) : Result :=
  issueOnChannels s fun s => .next ((s.startCommand 1#2).goto (.begin .count))

/-- DECOMPRESS (R545). -/
def execDecompress (s : State) : Result :=
  issueOnChannels s fun s => .next ((s.startCommand 2#2).goto (.begin .hdrRead))

/-- ILLEGAL_COMMAND (R608): straight to ERROR, with no CLOSING and no channel event. -/
def execIllegalCommand (w : Word) (s : State) : Result :=
  issue s fun s => .next (((s.startCommand (w.extractLsb' 0 2)).setError .illegalCommand 0#8 w).goto .error)

end Sys2Proof.Machine
end

