-- ==== Sys2Proof/Machine/FrequencyCounter.lean ====
section
/-! DEFINITION. FC_COUNT, the counting pass (40_frequency_counter.md). -/

namespace Sys2Proof.Machine

/-- The clear at the start of the pass (R401). -/
def fcClear (s : State) : State :=
  { s with stores := { s.stores with freq := Vector.replicate 257 0#32, total := 0#32 } }.goto (.count .loop)

/-- One byte of the pass: the length bound, then the count (R402, R404). -/
def fcByte (v : Nat) (s : State) : State :=
  if s.stores.total = Config.maxInput then s.raise .inputTooLong 0#8 s.stores.total
  else
    { s with stores := { s.stores with
        freq := s.stores.freq.set (symbolOf v).val (s.stores.freq[symbolOf v] + 1#32)
        total := s.stores.total + 1#32 } }

/-- The end of the pass: FREQ[256] is set to 1, and the tree builder comes next (R405, R546). -/
def fcEnd (s : State) : State :=
  { s with stores := { s.stores with freq := s.stores.freq.set eofSym.val 1#32 } }.goto (.begin .build)

/-- FC_COUNT (R400): the clear, or one `ReadBits(8)` and what it leads to. -/
def execFcCount (s : State) : Result :=
  match s.seq with
  | .count .start => .next (fcClear s)
  | .count .loop =>
    withRead 8 s fun v s =>
      match v with
      | none => .next (fcEnd s)
      | some v => .next (fcByte v s)
  | _ => .refused .notSelected

end Sys2Proof.Machine
end

