-- ==== Sys2Proof/Machine/BodyEncoder.lean ====
section
/-! DEFINITION. BE_ENCODE, the body (44_body_encoder.md). -/

namespace Sys2Proof.Machine

/-- A byte of the second pass: one with no code breaks the host's precondition (R484), any other is emitted next
(R480). -/
def beByte (v : Nat) (s : State) : State :=
  if s.stores.code[symbolOf v] = [] then s.raise .inputMismatch 0#8 (BitVec.ofNat 32 v)
  else s.goto (.bodyEnc (.emit (symbolOf v)))

/-- After the code of `sym`: the terminator ends the body, a literal is followed by the next byte (R480, R483, R546). -/
def beEmitted (sym : CodeSymbol) (s : State) : State :=
  if sym = eofSym then s.goto (.begin .closing) else s.goto (.bodyEnc .read)

/-- `EmitCode` with the bits of the code of `sym` (R482, R483). -/
def beEmit (sym : CodeSymbol) (code : Bits) (s : State) : Result :=
  withWrite code s fun s => .next (beEmitted sym s)

/-- BE_ENCODE (R480): the rewind, one `ReadBits(8)`, or one code. -/
def execBeEncode (s : State) : Result :=
  match s.seq with
  | .bodyEnc .start => onInput s fun s => .next (s.resetIn.goto (.bodyEnc .read))
  | .bodyEnc .read =>
    withRead 8 s fun v s =>
      match v with
      | none => .next (s.goto (.bodyEnc (.emit eofSym)))
      | some v => .next (beByte v s)
  | .bodyEnc (.emit sym) => beEmit sym s.stores.code[sym] s
  | _ => .refused .notSelected

end Sys2Proof.Machine
end

