-- ==== Sys2Proof/Machine/HeaderDeserializer.lean ====
section
/-! DEFINITION. HD_READ, the magic check and the tree header (45_header_deserializer.md). -/

namespace Sys2Proof.Machine

/-- HD_READ's first action (R500). -/
def hdBegin (s : State) : State :=
  { s with stores := { s.stores with nodeCount := 0, stack := [] } }.goto (.hdrRead .magic)

/-- The first 32 bits of the stream, or EOS (R506). -/
def hdMagic (m : Option Nat) (s : State) : State :=
  match m with
  | none => s.raise .badMagic 1#8 0#32
  | some m =>
    if m = s.id.toNat then s.goto (.hdrRead .control) else s.raise .badMagic 0#8 (BitVec.ofNat 32 m)

/-- The return of `Des()` with the subtree at `i` to the calls waiting on STACK (R500): a call that has its left
subtree already builds its node, whose weight is 0 (R507) and whose MINSYM is unspecified (decision D26), and returns in
its turn; one that has not keeps `i` and goes on with its right subtree. With no call left, `i` is ROOT. The answer's
second part says whether the header is complete. -/
def hdReturn (minsym : NodeIdx → CodeSymbol) : List Frame → NodeIdx → Stores → Stores × Bool
  | [], i, st => ({ st with root := i, stack := [] }, true)
  | f :: fs, i, st =>
    match f.left with
    | none => ({ st with stack := { f with left := some i } :: fs }, false)
    | some l => hdReturn minsym fs f.node (st.setNode f.node (.internal 0#32 (minsym f.node) l i))

/-- The node at entry `i` is complete (R500, R501): reading goes on at the next control bit, or the body comes next
(R549). -/
def hdComplete (i : NodeIdx) (s : State) : State :=
  let r := hdReturn (Config.freeMinsym s.freeCount) s.stores.stack i s.stores
  { s with stores := r.1, freeCount := s.freeCount + 1 }.goto (if r.2 then .begin .decode else .hdrRead .control)

/-- A control bit (R500 to R503): `Alloc()`, then the value of a leaf or the left subtree of an internal node. -/
def hdControl (isLeaf : Bool) (s : State) : State :=
  match s.stores.alloc with
  | none => s.raise .headerCapacity 0#8 (BitVec.ofNat 32 Config.nodeCap)
  | some (i, st) =>
    if isLeaf then { s with stores := st }.goto (.hdrRead (.value i))
    else { s with stores := { st with stack := ⟨i, none, []⟩ :: st.stack } }.goto (.hdrRead .control)

/-- The 9-bit value of the leaf at entry `i` (R504, R505, R507). -/
def hdValue (i : NodeIdx) (v : Nat) (s : State) : State :=
  if 256 < v then s.raise .malformedHeader 3#8 (BitVec.ofNat 32 v)
  else
    hdComplete i
      { s with stores := s.stores.setNode i (.leaf (symbolOf v) 0#32 (Config.freeMinsym s.freeCount i)) }

/-- NODE_COUNT as a context word (R502, R504). -/
def nodesSoFar (s : State) : Word := BitVec.ofNat 32 s.stores.nodeCount.val

/-- HD_READ (R500): the start, or the next read and what it leads to. -/
def execHdRead (s : State) : Result :=
  match s.seq with
  | .hdrRead .start => .next (hdBegin s)
  | .hdrRead .magic => withRead 32 s fun m s => .next (hdMagic m s)
  | .hdrRead .control =>
    withRead 1 s fun c s =>
      match c with
      | none => .next (s.raise .malformedHeader 1#8 (nodesSoFar s))
      | some c => .next (hdControl (c == 1) s)
  | .hdrRead (.value i) =>
    withRead 9 s fun v s =>
      match v with
      | none => .next (s.raise .malformedHeader 2#8 (nodesSoFar s))
      | some v => .next (hdValue i v s)
  | _ => .refused .notSelected

end Sys2Proof.Machine
end

