-- ==== Sys2Proof/Machine/HeaderSerializer.lean ====
section
/-! DEFINITION. HS_WRITE, the magic and the tree header (43_header_serializer.md). One step writes the magic or one
token (R204: how the bits are grouped into writes is not architectural). -/

namespace Sys2Proof.Machine

/-- The header token of a node (R303, R460). -/
def tokenOf : Node → Instr
  | .leaf s _ _ => .hdrLeaf (BitVec.ofNat 9 s.val)
  | .internal .. => .hdrInternal

/-- HS_WRITE's first action: the walk starts at ROOT (R460). -/
def hsBegin (s : State) : State :=
  { s with stores := { s.stores with stack := [⟨s.stores.root, none, []⟩] } }.goto (.hdrWrite .magic)

/-- The node on top of STACK has been written: its whole left subtree comes next, then its right one (R460, R461). When
nothing is left the body encoder comes next (R546). -/
def hsAdvance (s : State) : State :=
  match s.stores.stack with
  | [] => s.goto (.begin .bodyEnc)
  | f :: fs =>
    let rest := (s.stores.children f.node).map (⟨·, none, []⟩) ++ fs
    { s with stores := { s.stores with stack := rest } }.goto
      (if rest.isEmpty then .begin .bodyEnc else .hdrWrite .token)

/-- The magic is written (R466). -/
def hsMagic (s : State) : Result :=
  withWrite (encode s.id .magic) s fun s => .next (s.goto (.hdrWrite .token))

/-- A token is written (R460). -/
def hsToken (token : Instr) (s : State) : Result :=
  withWrite (encode s.id token) s fun s => .next (hsAdvance s)

/-- HS_WRITE (R460): the start of the walk, or the next write. -/
def execHsWrite (s : State) : Result :=
  match s.seq with
  | .hdrWrite .start => .next (hsBegin s)
  | .hdrWrite .magic => hsMagic s
  | .hdrWrite .token =>
    match s.stores.stack with
    | [] => .next (s.goto (.begin .bodyEnc))
    | f :: _ => hsToken (tokenOf s.stores.node[f.node]) s
  | _ => .refused .notSelected

end Sys2Proof.Machine
end

