-- ==== Sys2Proof/Machine/SymbolRecovery.lean ====
section
/-! DEFINITION. SR_DECODE, the walk of the body (46_symbol_recovery.md). -/

namespace Sys2Proof.Machine

/-- `Child(n, b)` (R520, R521): a leaf, which only the root can be here, is its own child. -/
def Stores.child (st : Stores) (n : NodeIdx) (b : Bool) : NodeIdx :=
  match st.node[n] with
  | .leaf .. => n
  | .internal _ _ l r => if b then r else l

/-- SR_DECODE's first action (R520). -/
def srBegin (s : State) : State :=
  { s with stores := { s.stores with litOut := 0#32, decCur := s.stores.root } }.goto (.decode .bit)

/-- A body bit moves DEC_CUR (R521). At the EOF leaf decoding ends (R522); at another leaf its symbol is written next
(R523). -/
def srMove (b : Bool) (s : State) : State :=
  let n := s.stores.child s.stores.decCur b
  let s := { s with stores := { s.stores with decCur := n } }
  match s.stores.node[n] with
  | .internal .. => s.goto (.decode .bit)
  | .leaf sym _ _ => if sym = eofSym then s.goto (.begin .closing) else s.goto (.decode (.literal sym))

/-- The literal has been written: it is counted, and DEC_CUR returns to ROOT (R520, R523). -/
def srWritten (s : State) : State :=
  { s with stores := { s.stores with litOut := s.stores.litOut + 1#32, decCur := s.stores.root } }.goto (.decode .bit)

/-- `WriteBits(8, sym)` (R523). -/
def srLiteral (sym : CodeSymbol) (s : State) : Result :=
  withWrite (bitsOf 8 sym.val) s fun s => .next (srWritten s)

/-- SR_DECODE (R520): the start, the next bit, or the write of the symbol just reached. -/
def execSrDecode (s : State) : Result :=
  match s.seq with
  | .decode .start => .next (srBegin s)
  | .decode .bit =>
    withRead 1 s fun b s =>
      match b with
      | none => .next (s.raise .truncatedStream 0#8 s.stores.litOut)
      | some b => .next (srMove (b == 1) s)
  | .decode (.literal sym) => srLiteral sym s
  | _ => .refused .notSelected

end Sys2Proof.Machine
end

