-- ==== Sys2Proof/Machine/StreamTokens.lean ====
section
/-! DEFINITION. The fields and tokens of a stream as instructions: HDR_INTERNAL, HDR_LEAF, MAGIC and BODY_CODE
(30_encoding.md rules R302 to R305). The encoder's unit writes a token, the decoder's unit reads it; which one is at work
is PHASE (R104), and a token means nothing in another phase. The decoder's meanings take the token's bits from the
instruction, as decoded at IN's cursor. -/

namespace Sys2Proof.Machine

/-- MAGIC: HS_WRITE sends it (R466); HD_READ finds it in the first 32 bits (R506). -/
def execMagic (s : State) : Result :=
  match s.seq with
  | .hdrWrite .magic => hsMagic s
  | .hdrRead .magic => onInput s fun s => .next (hdMagic (some s.id.toNat) (s.takeBits 32 s.id.toNat))
  | _ => .refused .notSelected

/-- HDR_INTERNAL: HS_WRITE sends it for an internal node, then walks the node's two subtrees (R460, R461); HD_READ takes
the control bit 0 and goes on with the left subtree (R500, R501). -/
def execHdrInternal (s : State) : Result :=
  match s.seq with
  | .hdrWrite .token => hsToken .hdrInternal s
  | .hdrRead .control => onInput s fun s => .next (hdControl false (s.takeBits 1 0))
  | _ => .refused .notSelected

/-- HDR_LEAF: HS_WRITE sends it for a leaf (R460); HD_READ takes the control bit 1 in one step and the 9-bit value in
the next (R500, R504, R505). -/
def execHdrLeaf (v : BitVec 9) (s : State) : Result :=
  match s.seq with
  | .hdrWrite .token => hsToken (.hdrLeaf v) s
  | .hdrRead .control => onInput s fun s => .next (hdControl true (s.takeBits 1 1))
  | .hdrRead (.value i) => onInput s fun s => .next (hdValue i v.toNat (s.takeBits 9 v.toNat))
  | _ => .refused .notSelected

/-- SR_DECODE along the bits of a code (R520, R521): one read for each bit, and the write of the symbol the walk reaches
(R523); nothing is read after the EOF code (R525). -/
def srWalk : Bits → State → Result
  | [], s => .next s
  | b :: path, s =>
    match s.seq with
    | .decode .bit =>
      let t := srMove b (s.takeBits 1 b.toNat)
      match t.seq with
      | .decode (.literal sym) =>
        match srLiteral sym t with
        | .next u => srWalk path u
        | .fault r => .fault r
        | .refused r => .refused r
      | _ => srWalk path t
    | _ => .next s

/-- BODY_CODE: BE_ENCODE sends the code of the symbol at hand (R482, R483); in SR_DECODE it is the walk along the whole
code, with the transactions of as many single steps (R520 to R523). -/
def execBodyCode (path : Bits) (s : State) : Result :=
  match s.seq with
  | .bodyEnc (.emit sym) => beEmit sym path s
  | .decode .bit => onInput s fun s => srWalk path s
  | _ => .refused .notSelected

end Sys2Proof.Machine
end

