-- ==== Sys2Proof/Machine/TreeBuilder.lean ====
section
/-! DEFINITION. TB_BUILD, the Huffman tree (41_tree_builder.md). It makes no channel access, so it is one step (R7). -/

namespace Sys2Proof.Machine

namespace Stores

/-- A leaf for a symbol with a count above 0 (R420). None when `Alloc()` finds NODE full. -/
def tbLeaf (s : CodeSymbol) (st : Stores) : Option Stores :=
  if st.freq[s] = 0#32 then some st
  else
    match st.alloc with
    | none => none
    | some (i, st') => some ((st'.setNode i (.leaf s st.freq[s] s)).pqInsert i)

/-- The leaves of the symbols listed, in that order (R420). -/
def tbLeaves : List CodeSymbol → Stores → Option Stores
  | [], st => some st
  | s :: ss, st =>
    match st.tbLeaf s with
    | none => none
    | some st' => st'.tbLeaves ss

/-- The parent of `a`, removed first, and `b`, removed second (R420, R421, R425). -/
def parentOf (st : Stores) (a b : NodeIdx) : Node :=
  .internal (st.node[a].weight + st.node[b].weight) (min st.node[a].minsym st.node[b].minsym) a b

/-- One turn of the merging loop (R420): the two first nodes of the queue become the children of a new one. None when
`Alloc()` finds NODE full; the queue is left alone when it holds fewer than two nodes. -/
def tbMergeOnce (st : Stores) : Option Stores :=
  match st.pqExtractMin with
  | none => some st
  | some (a, st1) =>
    match st1.pqExtractMin with
    | none => some st
    | some (b, st2) =>
      match st2.alloc with
      | none => none
      | some (j, st3) => some ((st3.setNode j (st.parentOf a b)).pqInsert j)

/-- The merging loop (R420), at most `n` turns: each turn leaves one node fewer in the queue. -/
def tbMerge : Nat → Stores → Option Stores
  | 0, st => some st
  | n + 1, st =>
    if 1 < st.pq.length then
      match st.tbMergeOnce with
      | none => none
      | some st' => st'.tbMerge n
    else some st

/-- The node store and the queue of TB_BUILD before ROOT is set (R420). -/
def tbForest (st : Stores) : Option Stores :=
  match ({ st with nodeCount := 0, pq := [] } : Stores).tbLeaves (List.finRange 257) with
  | none => none
  | some st' => st'.tbMerge st'.pq.length

end Stores

/-- `ROOT <- PQExtractMin()` (R420). FREQ[256] = 1 keeps the queue from being empty (R405); if it were, the spec states
no answer, so ROOT would be a free value. -/
def tbRoot (s : State) : State :=
  match s.stores.pqExtractMin with
  | some (r, st) => { s with stores := { st with root := r } }
  | none =>
    { s with
      stores := { s.stores with root := Config.freeIndex s.freeCount }
      freeCount := s.freeCount + 1 }

/-- TB_BUILD (R420). `Alloc()` raises HEADER_CAPACITY when NODE is full (R113), which a tree of at most 257 leaves never
does (R424). -/
def execTbBuild (s : State) : Result :=
  match s.seq with
  | .build =>
    match s.stores.tbForest with
    | none => .next (s.raise .headerCapacity 0#8 (BitVec.ofNat 32 Config.nodeCap))
    | some st => .next ((tbRoot { s with stores := st }).goto (.begin .codegen))
  | _ => .refused .notSelected

end Sys2Proof.Machine
end

