-- ==== Sys2Proof/Machine/Dispatch.lean ====
section
/-! DEFINITION. One arm per instruction. -/

namespace Sys2Proof.Machine

def exec (i : Instr) (s : State) : Host.Outcome State Fault Refusal :=
  match i with
  -- The command words.
  | .nop => Sys2Proof.Machine.execNop s
  | .compress => Sys2Proof.Machine.execCompress s
  | .decompress => Sys2Proof.Machine.execDecompress s
  | .illegalCommand w => Sys2Proof.Machine.execIllegalCommand w s
  -- The fields and tokens of a stream.
  | .hdrInternal => Sys2Proof.Machine.execHdrInternal s
  | .hdrLeaf v => Sys2Proof.Machine.execHdrLeaf v s
  | .magic => Sys2Proof.Machine.execMagic s
  | .bodyCode path => Sys2Proof.Machine.execBodyCode path s
  -- The engine operations.
  | .fcCount => Sys2Proof.Machine.execFcCount s
  | .tbBuild => Sys2Proof.Machine.execTbBuild s
  | .cgGen => Sys2Proof.Machine.execCgGen s
  | .hsWrite => Sys2Proof.Machine.execHsWrite s
  | .beEncode => Sys2Proof.Machine.execBeEncode s
  | .hdRead => Sys2Proof.Machine.execHdRead s
  | .srDecode => Sys2Proof.Machine.execSrDecode s
  | .closing => Sys2Proof.Machine.execClosing s

end Sys2Proof.Machine
end

