-- ==== Sys2Proof/Machine/Fetch.lean ====
section
/-! DEFINITION. Which instruction the core runs next (10_state.md rule R104; 47_sequencer.md rules R546, R549), and how a
table word is put where the next step takes it. -/

namespace Sys2Proof.Machine

/-- The instruction a decoding answers, or the operation of the phase when the bits hold no whole field: it then meets
the EOS or the wrong magic itself. -/
def decodedOr (operation : Instr) : Except DecodeError (Instr × Bits) → Instr
  | .ok (i, _) => i
  | .error _ => operation

/-- The instruction the core runs next: the operation PHASE selects or, where that operation writes or reads a field of
the stream, the field. HD_READ's fields are decoded from IN at the cursor; HS_WRITE's are those of the node on top of
STACK, BE_ENCODE's those of the symbol at hand. SR_DECODE goes bit by bit (R521). In IDLE, DONE and ERROR there is none:
the core waits (R553, R619). -/
def State.fetch (s : State) : Option Instr :=
  match s.seq with
  | .idle | .done | .error => none
  | .count _ => some .fcCount
  | .build => some .tbBuild
  | .codegen => some .cgGen
  | .hdrWrite .start => some .hsWrite
  | .hdrWrite .magic => some .magic
  | .hdrWrite .token =>
    match s.stores.stack with
    | [] => some .hsWrite
    | f :: _ => some (tokenOf s.stores.node[f.node])
  | .bodyEnc .start => some .beEncode
  | .bodyEnc .read => some .beEncode
  | .bodyEnc (.emit sym) => some (.bodyCode s.stores.code[sym])
  | .hdrRead .start => some .hdRead
  | .hdrRead .magic => some (decodedOr .hdRead (decodeMagic s.id s.unread))
  | .hdrRead .control => some (decodedOr .hdRead (decodeToken s.unread))
  | .hdrRead (.value _) => some (decodedOr .hdRead (decodeToken (true :: s.unread)))
  | .decode _ => some .srDecode
  | .closing => some .closing

/-- Both channels answer. -/
def State.answering (s : State) : State :=
  { s with input := { s.input with answers := true }, output := { s.output with answers := true } }

/-- The state with an instruction's bits where the next step takes it: a command word as the host's next store to CMD;
an operation as PHASE, at its start; a header token at IN's cursor, in HD_READ, the last byte filled up with zeros. The
channels an operation or a token works on answer, and `rst` is not asserted. -/
def State.placeInstr (s : State) (space : Space) (bits : Bits) : State :=
  let s := { s with rst := false }
  match space with
  | .command => { s with agenda := .store 0x00#6 4 (BitVec.ofNat 32 (valOf bits)) :: s.agenda }
  | .phase =>
    match Phase.ofCode (valOf bits) with
    | none => s
    | some p => { s with seq := .begin p, agenda := .core :: s.agenda }.answering
  | .headerToken =>
    let stream := bits ++ List.replicate (padLength bits.length) false
    { s with
      seq := .hdrRead .control
      input := { s.input with bits := stream, ip := 0 }
      agenda := .core :: s.agenda }.answering
  | .magicField | .body _ => s

end Sys2Proof.Machine
end

