-- ==== Sys2Proof/Machine/HostPort.lean ====
section
/-! DEFINITION. The host's accesses and acts, and the acts of the channels and of the reset input (10_state.md rule R101;
20_memory.md rule R210; 30_encoding.md rule R311; 70_reset_and_hazards.md rules R701, R712, R716). -/

namespace Sys2Proof.Machine

/-- A host access the interface has: 32 bits wide and aligned to 4 bytes (R210). Any other is refused. -/
def onAccess (offset : BitVec 6) (bytes : Nat) (k : Result) : Result :=
  if bytes = 4 ∧ offset.toNat % 4 = 0 then k else .refused .badAccess

/-- A host store (R101): to CMD it is a command issue (R102, R540), unless `rst` is asserted and holds the block in IDLE
(R701); elsewhere it has no effect. -/
def hostStore (offset : BitVec 6) (bytes : Nat) (data : Word) (s : State) : Result :=
  onAccess offset bytes (if offset = 0x00#6 ∧ s.rst = false then exec (decodeCommand data) s else .next s)

/-- A host load (R101, R212): it has no side effect on the block. -/
def hostLoad (offset : BitVec 6) (bytes : Nat) (s : State) : Result :=
  onAccess offset bytes (.next (s.loadReg offset))

/-- `wait` (R311): one load of STATUS; while it shows neither DONE nor ERROR the line goes on, and the core has a turn
before the next load. -/
def hostWait (s : State) : Result :=
  let s := s.loadReg 0x04#6
  if s.loaded &&& 0x6#32 = 0#32 then .next { s with agenda := .core :: .wait :: s.agenda } else .next s

/-- `attach` (R311, R716): IN at its first bit, OUT empty and open. While a command runs it is refused (R712). -/
def hostAttach (first second : InStream) (shared : Bool) (s : State) : Result :=
  if s.busy then .refused .attachedWhileBusy
  else .next { s with
    input := {
      bits := bytesToBits first.bytes, after := first.after, ip := 0
      rewound := bytesToBits second.bytes, rewoundAfter := second.after, answers := true }
    output := { bits := [], closed := false, answers := true }
    shared := shared }

/-- The channels begin or cease to answer (R213). -/
def setAnswers (inAnswers outAnswers : Bool) (s : State) : State :=
  { s with
    input := { s.input with answers := inAnswers }
    output := { s.output with answers := outAnswers } }

/-- The core's turn: the instruction it runs next, or nothing in a waiting phase (R553, R619) and while `rst` is asserted
(R701, R702). -/
def coreStep (s : State) : Result :=
  if s.rst then .next s
  else
    match s.fetch with
    | none => .next s
    | some i => exec i s

/-- One turn. -/
def takeTurn (t : Turn) (s : State) : Result :=
  match t with
  | .core => coreStep s
  | .store offset bytes data => hostStore offset bytes data s
  | .load offset bytes => hostLoad offset bytes s
  | .wait => hostWait s
  | .attach first second shared => hostAttach first second shared s
  | .channels i o => .next (setAnswers i o s)
  | .rst asserted => .next (s.setRst asserted)

end Sys2Proof.Machine
end

