-- ==== Sys2Proof/Machine/Step.lean ====
section
/-! DEFINITION. One step of the machine (00_scope.md rules R7, R9). -/

namespace Sys2Proof.Machine

/-- The turn that is next, or the core's when the agenda is empty, in the state that `rst` forces while it is asserted
(R701). -/
def step (s : State) : Host.Outcome State Fault Refusal :=
  match s.agenda with
  | [] => coreStep s.forced
  | t :: rest => takeTurn t { s with agenda := rest }.forced

/-- `s` with the table word `w` where the next step takes its instruction. -/
def State.withFetchWord (s : State) (nbits w : Nat) : State :=
  match tableSpace nbits w with
  | none => s
  | some (space, bits) => s.placeInstr space bits

end Sys2Proof.Machine
end

