-- ==== Sys2Proof/Safety.lean ====
section
/-! DEFINITION. The terms in which claims speak of a run: trees and the streams they stand for, the legal error records,
the states every run stays in, and runs that never stop. -/

namespace Sys2Proof

namespace CodeTree

/-- How many nodes a tree has (R424). -/
def size : CodeTree → Nat
  | .leaf _ => 1
  | .node l r => l.size + r.size + 1

/-- How many leaves a tree has, `L` in R424 and R462. -/
def leaves : CodeTree → Nat
  | .leaf _ => 1
  | .node l r => l.leaves + r.leaves

/-- How often a symbol stands in a leaf. -/
def occurrences (s : CodeSymbol) : CodeTree → Nat
  | .leaf t => if s = t then 1 else 0
  | .node l r => l.occurrences s + r.occurrences s

/-- `Ser(T)`: the header bits of a tree (R303, R460). -/
def serialize : CodeTree → Bits
  | .leaf s => true :: bitsOf 9 s.val
  | .node l r => false :: (l.serialize ++ r.serialize)

/-- The root-to-leaf path of a symbol, 0 for left and 1 for right (R440); the rightmost leaf if several hold it. -/
def pathTo (s : CodeSymbol) : CodeTree → Option Bits
  | .leaf t => if s = t then some [] else none
  | .node l r =>
    match r.pathTo s with
    | some p => some (true :: p)
    | none =>
      match l.pathTo s with
      | some p => some (false :: p)
      | none => none

/-- The code of a symbol in a tree: its path, the single bit 0 in a tree that is one leaf, and nothing for a symbol the
tree lacks (R440, R443, R444). -/
def codeOf (s : CodeSymbol) : CodeTree → Bits
  | .leaf t => if s = t then [false] else []
  | .node l r => ((CodeTree.node l r).pathTo s).getD []

/-- The body of a stream: the codes of the symbols in order, then the code of EOF_SYM (R305). -/
def body (t : CodeTree) (symbols : List CodeSymbol) : Bits :=
  symbols.flatMap (fun s => t.codeOf s) ++ t.codeOf eofSym

/-- The node store holds the tree `t` at entry `n` (R112). -/
def heldAt (node : Vector Machine.Node 513) : CodeTree → NodeIdx → Bool
  | .leaf s, n =>
    match node[n] with
    | .leaf s' _ _ => decide (s = s')
    | .internal .. => false
  | .node l r, n =>
    match node[n] with
    | .leaf .. => false
    | .internal _ _ a b => l.heldAt node a && r.heldAt node b

end CodeTree

/-! The tree the spec builds from the counts, with no node store and no queue of indices. -/

/-- A subtree with its weight, in COUNT_WIDTH bits, and its least symbol (R421, R425). -/
structure Weighted where
  weight : Word
  minsym : CodeSymbol
  tree : CodeTree
  deriving DecidableEq, Repr

namespace Weighted

/-- `before(x, y)` (R422). -/
def before (x y : Weighted) : Bool :=
  decide (x.weight < y.weight ∨ (x.weight = y.weight ∧ x.minsym < y.minsym))

/-- The subtree that comes before every other one of a list, and the others (R422). -/
def first : List Weighted → Option (Weighted × List Weighted)
  | [] => none
  | x :: xs =>
    match first xs with
    | none => some (x, [])
    | some (m, rest) => if x.before m then some (x, m :: rest) else some (m, x :: rest)

/-- The subtree of `a`, removed first, and `b`, removed second (R420, R421, R425). -/
def join (a b : Weighted) : Weighted := ⟨a.weight + b.weight, min a.minsym b.minsym, .node a.tree b.tree⟩

/-- The merging of R420, at most `n` times. -/
def merge : Nat → List Weighted → List Weighted
  | 0, q => q
  | n + 1, q =>
    match first q with
    | none => q
    | some (a, q1) =>
      match first q1 with
      | none => q
      | some (b, q2) => merge n (a.join b :: q2)

end Weighted

/-- `build(F)` (R420, R548): a leaf for each symbol with a count, merged until one tree is left; none without a count. -/
def CodeTree.build (freq : CodeSymbol → Word) : Option CodeTree :=
  let leaves := (List.finRange 257).filterMap fun s => if freq s = 0#32 then none else some ⟨freq s, s, .leaf s⟩
  (Weighted.merge leaves.length leaves.reverse).head?.map Weighted.tree

/-- `freq(S)` (R406): the occurrences of every byte, and 1 for EOF_SYM. -/
def freqOf (S : List Byte) (s : CodeSymbol) : Word :=
  if s = eofSym then 1#32 else BitVec.ofNat 32 (S.countP fun b => decide (b.toNat = s.val))

namespace Machine

/-- The values ERR.CODE and ERR.CAUSE may hold together (R600). -/
def legalError (code cause : BitVec 8) : Bool :=
  (code == 0#8 && cause == 0#8) || (code == 1#8 && (cause == 0#8 || cause == 1#8)) ||
  (code == 2#8 && (cause == 1#8 || cause == 2#8 || cause == 3#8)) ||
  ((code == 3#8 || code == 4#8 || code == 5#8 || code == 6#8 || code == 7#8) && cause == 0#8)

/-- The registers stand as R700 says: PHASE is IDLE, `irq` is 0, and every slot of the window reads 0 but ID. -/
def State.atReset (s : State) : Prop :=
  s.phase = .idle ∧ s.irq = false ∧
    ∀ offset : BitVec 6, s.readReg offset = if offset = 0x10#6 then s.id else 0x00000000#32

/-- How many bits the operation asks IN for at its position (R211). -/
def Seq.readWidth : Seq → Option Nat
  | .count .loop | .bodyEnc .read => some 8
  | .hdrRead .magic => some 32
  | .hdrRead .control | .decode .bit => some 1
  | .hdrRead (.value _) => some 9
  | .idle | .count .start | .build | .codegen | .hdrWrite _ | .bodyEnc .start | .bodyEnc (.emit _)
  | .hdrRead .start | .decode .start | .decode (.literal _) | .closing | .done | .error => none

/-- The core has the next step: `rst` is not asserted, and the agenda is empty or its head is the core's turn. `rest` is
what the step leaves of the agenda. -/
def State.coreNext (s : State) (rest : List Turn) : Prop :=
  s.rst = false ∧ (s.agenda = [] ∧ rest = [] ∨ s.agenda = .core :: rest)

/-- What the registers and the channels keep to in every run. -/
structure State.Inv (s : State) : Prop where
  /-- IN's cursor stays inside the sequence (R201). -/
  cursor : s.input.ip ≤ s.input.bits.length
  /-- ERR holds a record of the error table (R600). -/
  legal : legalError s.errCode s.errCause = true
  /-- An operation runs only while no error is recorded: a `raise` ends it (R16, R542, R551). -/
  running : s.busy = true → s.phase ≠ .closing → s.errCode = 0#8 ∧ s.errInfo = 0#32
  /-- An illegal command never reaches CLOSING (R552, R608). -/
  closing : s.phase = .closing → s.errCode ≠ 7#8
  /-- DONE has no error and ERROR has one (R552, R608). -/
  ended : (s.phase = .done → s.errCode = 0#8) ∧ (s.phase = .error → s.errCode ≠ 0#8)
  /-- STATUS.OP names the command whose phase it is (R104, R541). -/
  command : (s.phase = .count ∨ s.phase = .build ∨ s.phase = .codegen ∨ s.phase = .hdrWrite ∨ s.phase = .bodyEnc →
      s.op = 1#2) ∧
    (s.phase = .hdrRead ∨ s.phase = .decode → s.op = 2#2) ∧
    (s.phase = .closing ∨ s.phase = .done → s.op = 1#2 ∨ s.op = 2#2)
  /-- While `rst` is asserted, the registers stand as R700 says (R701). -/
  reset : s.rst = true → s.phase = .idle ∧ s.op = 0#2 ∧ s.errCode = 0#8 ∧ s.errCause = 0#8 ∧ s.errInfo = 0#32
  /-- The phase the last STATUS load of the running command showed is one of its phases (R718). -/
  shown : s.busy = true → ∀ p, s.shown = some p → p ∈ Phase.ofCommand s.op

/-- While a header is read, STACK holds no more entries than there are allocated nodes, so never more than STACK_CAP
(R116, R501). -/
def State.stackInv (s : State) : Prop :=
  s.phase = .hdrRead → s.seq ≠ .hdrRead .start → s.stores.stack.length ≤ s.stores.nodeCount.val

/-- The phase that comes after `p` when `p`'s operation ends without an error (R546, R549, R552). -/
def Phase.follows (p q : Phase) : Prop :=
  (p, q) ∈ [(.count, .build), (.build, .codegen), (.codegen, .hdrWrite), (.hdrWrite, .bodyEnc), (.bodyEnc, .closing),
    (.hdrRead, .decode), (.decode, .closing), (.closing, .done), (.closing, .error)]

/-- A run of `n` steps that neither faults nor is refused. -/
def State.safeFor (n : Nat) (s : State) : Prop := ∃ t, Sys2Proof.core.run n s = .next t

end Machine

end Sys2Proof
end

