-- ==== Sys2Proof/Certificates/Slice0/Obligations.lean ====
section
/-! DEFINITION. The statements for the provers. Each docstring names the rule it formalises. A state whose agenda is empty
and whose `rst` is not asserted gives the core its turn, and so does one whose agenda begins with that turn
(`s.coreNext rest`, `rest` being what is left of the agenda); `s.unread` is what IN still has written out after its cursor, all
that is left of it where `s.input.after = .eos`. -/

open Sys2Proof Sys2Proof.Machine

/-! ### Encodings -/

/-- R301, R302, R303, R305, R104: decoding the bits of a well-formed instruction, with any bits after them, gives the
instruction back and leaves those bits; for every MAGIC, and for a body code in every tree it is a code of. -/
def Obligations.DecodeOfEncodeIsTheInstruction : Prop :=
  ∀ (magic : Word) (i : Instr) (sp : Space) (rest : Bits), i.wf = true → i.inSpace sp = true →
    decode magic sp (encode magic i ++ rest) = .ok (i, rest)

/-- The other direction: whatever decodes was encoded so, no bit of the field is dropped, and the instruction stands in
its space. -/
def Obligations.EncodeOfDecodeIsTheBits : Prop :=
  ∀ (magic : Word) (sp : Space) (bits rest : Bits) (i : Instr), decode magic sp bits = .ok (i, rest) →
    encode magic i ++ rest = bits ∧ i.inSpace sp = true

/-- R301, R303, R304, R104: words written out from the spec's encodings decode to their instructions. That a table word is
read by its width (32 bits a command, 9 to 24 a leaf token, at most 8 the internal token or a phase), and so that the
8-bit value 0 is HDR_INTERNAL, is the model's choice and no rule of the spec (DESIGN CHOICE, notes/assumptions/19.md). -/
def Obligations.WrittenOutWordsDecode : Prop :=
  decodeTableWord 32 0x00000000 = some .nop ∧ decodeTableWord 32 0x00000001 = some .compress ∧
  decodeTableWord 32 0x00000002 = some .decompress ∧
  decodeTableWord 32 0x80000001 = some (.illegalCommand 0x80000001#32) ∧
  decodeTableWord 8 0 = some .hdrInternal ∧ decodeTableWord 16 0b1001100001 = some (.hdrLeaf 0x061#9) ∧
  decodeTableWord 16 0b1100000000 = some (.hdrLeaf 0x100#9) ∧ decodeTableWord 8 0x5 = some .beEncode ∧
  decodeTableWord 8 0x9 = none

/-- R301: the command word is decoded by exact match, and every word but 0, 1 and 2 is illegal. -/
def Obligations.CommandWordsDecodeByExactMatch : Prop :=
  ∀ w : Word, (decodeCommand w = .nop ↔ w = 0x00000000#32) ∧ (decodeCommand w = .compress ↔ w = 0x00000001#32) ∧
    (decodeCommand w = .decompress ↔ w = 0x00000002#32) ∧
    (decodeCommand w = .illegalCommand w ↔ w ≠ 0x00000000#32 ∧ w ≠ 0x00000001#32 ∧ w ≠ 0x00000002#32)

/-! ### Reset, registers and the host's accesses -/

/-- R700, R701: the registers after reset and while `rst` is asserted: PHASE is IDLE, `irq` is 0, ID is hardwired and keeps
its value, and every other slot of the window reads 0. They stand so in the reset state, when `rst` is asserted in any
state, after every step while it is, and when it is deasserted. A store to CMD meanwhile starts nothing, and neither it
nor the core's turn touches a channel of a block that ran no command. -/
def Obligations.ResetForcesTheRegisters : Prop :=
  (State.reset.atReset ∧ State.reset.id = Config.magic) ∧
  (∀ (s : State) (rest : List Turn), s.agenda = .rst true :: rest →
    ∃ t, step s = .next t ∧ t.atReset ∧ t.rst = true ∧ t.id = s.id ∧ t.agenda = rest) ∧
  (∀ (s : State) (rest : List Turn), s.rst = true → s.agenda = .rst false :: rest →
    ∃ t, step s = .next t ∧ t.atReset ∧ t.rst = false ∧ t.id = s.id ∧ t.agenda = rest) ∧
  (∀ s t : State, s.rst = true → step s = .next t → t.atReset ∧ t.id = s.id ∧ t.events = s.events) ∧
  ∀ (s : State) (rest : List Turn) (offset : BitVec 6) (data : Word), s.rst = true → offset.toNat % 4 = 0 →
    (s.agenda = [] ∧ rest = [] ∨ s.agenda = .core :: rest ∨ s.agenda = .store offset 4 data :: rest) →
    ∃ t, step s = .next t ∧ t.atReset ∧ t.rst = true ∧ t.agenda = rest ∧
      (s.busy = false → t.input = s.input ∧ t.output = s.output)

/-- R702: a reset during a command abandons it with no `CloseOut()` and no error record. What OUT holds and where IN
stands afterwards is left open. That the event history gains nothing and OUT stays open or closed as it was, whatever
transaction was in flight, is the model's choice (DESIGN CHOICE, notes/assumptions/9.md). -/
def Obligations.ResetCutsACommandShort : Prop :=
  ∀ (s : State) (rest : List Turn), s.agenda = .rst true :: rest → s.busy = true →
    ∃ t, step s = .next t ∧ t.phase = .idle ∧ t.events = s.events ∧ t.output.closed = s.output.closed ∧
      t.errCode = 0#8 ∧ t.errCause = 0#8 ∧ t.errInfo = 0#32

/-- R101, R212: a word load of the window returns the register at its offset, and 0 for CMD and the reserved slots; it
changes nothing but the host's result. R718: a load of STATUS while BUSY shows the flags and OP as they are and some phase
of the running command, none that comes before the one an earlier load showed; the phases that loads may show become no
more until the command ends. R311: the line `wait` is such a load of STATUS; when it shows DONE or ERROR the line is over,
else (the block runs a command, or is in IDLE) the line stands again. That the core has one turn between two of its loads is
the model's choice (DEDUCED, notes/assumptions/27.md). -/
def Obligations.LoadsReadTheRegisterWindow : Prop :=
  (∀ (s : State) (rest : List Turn) (offset : BitVec 6), s.rst = false → s.agenda = .load offset 4 :: rest →
    offset.toNat % 4 = 0 → (offset ≠ 0x04#6 ∨ s.busy = false) →
    step s = .next { s with
      agenda := rest
      loaded :=
        match offset.toNat with
        | 0x04 => s.statusWord
        | 0x08 => s.errWord
        | 0x0C => s.errInfo
        | 0x10 => s.id
        | _ => 0x00000000#32 }) ∧
  (∀ (s : State) (rest : List Turn), s.rst = false → s.agenda = .wait :: rest →
    (s.phase = .done ∨ s.phase = .error → step s = .next { s with agenda := rest, loaded := s.statusWord }) ∧
    (s.phase = .idle → step s = .next { s with agenda := .core :: .wait :: rest, loaded := s.statusWord })) ∧
  (∀ (s : State) (rest left : List Turn), s.rst = false →
    (s.agenda = .load 0x04#6 4 :: rest ∧ left = rest ∨ s.agenda = .wait :: rest ∧ left = .core :: .wait :: rest) →
    s.busy = true → (∀ q, s.shown = some q → q ∈ Phase.ofCommand s.op) →
    ∃ (before later : List Phase) (p : Phase) (n : Nat), Phase.ofCommand s.op = before ++ p :: later ∧
      (∀ q, s.shown = some q → q ∉ later) ∧
      step s = .next { s with
        agenda := left
        loaded := 0#22 ++ s.op ++ p.code ++ 0b0001#4
        shown := some p
        freeCount := n }) ∧
  ∀ s t : State, s.Inv → step s = .next t → s.busy = true → t.busy = true → t.op = s.op ∧ t.showable <:+ s.showable

/-- R540: a host store to CMD is ignored while BUSY, and otherwise runs the command its word decodes to. R101: a word store
to a read-only register or to a reserved slot has no effect. -/
def Obligations.HostStoresIssueCommandsOnly : Prop :=
  ∀ (s : State) (rest : List Turn) (offset : BitVec 6) (w : Word), s.rst = false → s.agenda = .store offset 4 w :: rest →
    offset.toNat % 4 = 0 →
    (offset = 0x00#6 → s.busy = true → step s = .next { s with agenda := rest }) ∧
    (offset = 0x00#6 → s.busy = false → step s = exec
      (if w = 0x00000000#32 then .nop else if w = 0x00000001#32 then .compress
       else if w = 0x00000002#32 then .decompress else .illegalCommand w) { s with agenda := rest }) ∧
    (offset ≠ 0x00#6 → step s = .next { s with agenda := rest })

/-- R210: an access of another width, or at an offset that is no multiple of 4, is refused as a bad access, and no other
access is refused as one. (A store to CMD of a command on channels that share storage is refused under another name.) -/
def Obligations.OtherAccessesAreRefused : Prop :=
  ∀ (s : State) (rest : List Turn) (offset : BitVec 6) (bytes : Nat) (data : Word),
    (s.agenda = .load offset bytes :: rest ∨ s.agenda = .store offset bytes data :: rest) →
    (step s = .refused .badAccess ↔ bytes ≠ 4 ∨ offset.toNat % 4 ≠ 0)

/-- R103: the fields of STATUS, and that no two of BUSY, DONE and ERROR are 1 at once; R105, R600: the fields of ERR, CODE
in [7:0], CAUSE in [15:8] and 0 above; R108, R609: `irq` is DONE OR ERROR. -/
def Obligations.TheFieldsOfStatusErrAndIrq : Prop :=
  ∀ s : State,
    ((s.statusWord.getLsbD 0 = true ↔ 0x1 ≤ s.phase.code.toNat ∧ s.phase.code.toNat ≤ 0x8) ∧
      (s.statusWord.getLsbD 1 = true ↔ s.phase.code = 0xE#4) ∧ (s.statusWord.getLsbD 2 = true ↔ s.phase.code = 0xF#4)) ∧
    s.statusWord.getLsbD 3 = false ∧ s.statusWord.extractLsb' 4 4 = s.phase.code ∧ s.statusWord.extractLsb' 8 2 = s.op ∧
    s.statusWord.extractLsb' 10 22 = 0#22 ∧
    ¬(s.statusWord.getLsbD 0 = true ∧ s.statusWord.getLsbD 1 = true) ∧
    ¬(s.statusWord.getLsbD 0 = true ∧ s.statusWord.getLsbD 2 = true) ∧
    ¬(s.statusWord.getLsbD 1 = true ∧ s.statusWord.getLsbD 2 = true) ∧
    (s.errWord.extractLsb' 0 8 = s.errCode ∧ s.errWord.extractLsb' 8 8 = s.errCause ∧ s.errWord.extractLsb' 16 16 = 0#16) ∧
    (s.irq = true ↔ s.statusWord.getLsbD 1 = true ∨ s.statusWord.getLsbD 2 = true)

/-- R716: `attach` puts IN at its first bit and OUT open and empty, and touches nothing else; R712: while a command runs
it is refused. -/
def Obligations.AttachGivesFreshChannels : Prop :=
  ∀ (s : State) (rest : List Turn) (first second : InStream) (shared : Bool), s.rst = false →
    s.agenda = .attach first second shared :: rest →
    (s.busy = true → step s = .refused .attachedWhileBusy) ∧
    (s.busy = false → step s = .next { s with
      agenda := rest
      input := {
        bits := bytesToBits first.bytes, after := first.after, ip := 0
        rewound := bytesToBits second.bytes, rewoundAfter := second.after, answers := true }
      output := { bits := [], closed := false, answers := true }
      shared := shared })

/-! ### An endless IN -/

/-- R202, R527, R719: on an IN that never reports EOS, every operation that is about to read is answered the bits that
come next, and never EOS: those written out, then the period's or, of a sequence nothing is known of, some bits. How an
endless IN is written down is the model's choice (DESIGN CHOICE, notes/assumptions/29.md). -/
def Obligations.AnEndlessInputNeverReportsEos : Prop :=
  ∀ (s : State) (i : Instr) (n : Nat), s.input.after ≠ .eos → s.input.answers = true → s.phase.operation = some i →
    s.seq.readWidth = some n → s.input.ip ≤ s.input.bits.length →
    ∃ (t : State) (more : Bits), exec i s = .next t ∧ more.length = n - s.unread.length ∧
      t.events = s.events ++ [.rd n (some (valOf ((s.unread ++ more).take n)))] ∧
      t.input = { s.input with bits := s.input.bits ++ more, ip := s.input.ip + n } ∧
      ∀ (b : Bool) (bs : Bits) (k : Nat), s.input.after = .repeats b bs → k < more.length →
        more[k]? = (b :: bs)[(s.input.bits.length + k) % (b :: bs).length]?

/-! ### Commands -/

/-- R543: NOP leaves DONE or ERROR for IDLE and keeps ERR, ERR_INFO and STATUS.OP; otherwise nothing changes. -/
def Obligations.NopAcknowledges : Prop :=
  ∀ s : State, exec .nop s =
    .next (if s.phase = .done ∨ s.phase = .error then { s with seq := .idle } else s)

/-- R544, R542: COMPRESS clears ERR and ERR_INFO, records OP 1 and starts the counting pass; nothing else changes, and no
STATUS load has shown a phase of it yet (R718). While BUSY it is ignored (R540), and with channels that share storage it
is refused (R712, R220). -/
def Obligations.CompressStartsTheCountingPass : Prop :=
  ∀ s : State,
    (s.busy = false → s.shared = false → exec .compress s = .next { s with
      errCode := 0#8, errCause := 0#8, errInfo := 0#32, op := 1#2, seq := .count .start, shown := none }) ∧
    (s.busy = false → s.shared = true → exec .compress s = .refused .sharedStorage) ∧
    (s.busy = true → exec .compress s = .next s)

/-- R545, R542: DECOMPRESS clears ERR and ERR_INFO, records OP 2 and starts the header deserializer; nothing else changes,
and no STATUS load has shown a phase of it yet (R718). While BUSY it is ignored (R540), and with channels that share
storage it is refused (R712, R220). -/
def Obligations.DecompressStartsTheHeaderRead : Prop :=
  ∀ s : State,
    (s.busy = false → s.shared = false → exec .decompress s = .next { s with
      errCode := 0#8, errCause := 0#8, errInfo := 0#32, op := 2#2, seq := .hdrRead .start, shown := none }) ∧
    (s.busy = false → s.shared = true → exec .decompress s = .refused .sharedStorage) ∧
    (s.busy = true → exec .decompress s = .next s)

/-- R608: an illegal command records CODE 7, CAUSE 0 and the word written, sets STATUS.OP to the word's two low bits and
goes straight to ERROR with no channel event; nothing else changes. While BUSY it is ignored (R540). -/
def Obligations.IllegalCommandGoesToError : Prop :=
  ∀ (w : Word) (s : State),
    (s.busy = false → exec (.illegalCommand w) s = .next { s with
      op := w.extractLsb' 0 2, errCode := 7#8, errCause := 0#8, errInfo := w, seq := .error, shown := none }) ∧
    (s.busy = true → exec (.illegalCommand w) s = .next s)

/-! ### The counting pass -/

/-- R401: FC_COUNT starts with every count and TOTAL at 0. R402, R404: a byte that is read adds 1 to its own count and to
TOTAL, and nothing else changes but IN's cursor and the event history; read when TOTAL is MAX_INPUT it is not counted, and
the command ends with INPUT_TOO_LONG, CAUSE 0 and INFO = TOTAL. -/
def Obligations.FcCountCountsAByte : Prop :=
  (∀ s : State, s.seq = .count .start →
    exec .fcCount s = .next { s with
      seq := .count .loop, stores := { s.stores with freq := Vector.replicate 257 0#32, total := 0#32 } }) ∧
  ∀ (s : State) (b : Byte) (rest : Bits), s.seq = .count .loop → s.input.answers = true →
    s.unread = bitsOf 8 b.toNat ++ rest →
    (s.stores.total ≠ 0xFFFFFFFE#32 → ∃ f : Vector Word 257,
      exec .fcCount s = .next { s with
        stores := { s.stores with freq := f, total := s.stores.total + 1#32 }
        input := { s.input with ip := s.input.ip + 8 }
        events := s.events ++ [.rd 8 (some b.toNat)] } ∧
      ∀ x : CodeSymbol, f[x] = if x.val = b.toNat then s.stores.freq[x] + 1#32 else s.stores.freq[x]) ∧
    (s.stores.total = 0xFFFFFFFE#32 → exec .fcCount s = .next { s with
      seq := .closing, errCode := 4#8, errCause := 0#8, errInfo := 0xFFFFFFFE#32
      input := { s.input with ip := s.input.ip + 8 }
      events := s.events ++ [.rd 8 (some b.toNat)] })

/-- R403, R405: at EOS FREQ[256] is set to 1, every other count stays, and the tree builder comes next. The cursor is
left open within IN. -/
def Obligations.FcCountEndsWithTheTerminatorsCount : Prop :=
  ∀ s : State, s.seq = .count .loop → s.input.answers = true → s.input.after = .eos → s.unread.length < 8 →
    ∃ (f : Vector Word 257) (ip n : Nat), ip ≤ s.input.bits.length ∧
      exec .fcCount s = .next { s with
        seq := .build
        stores := { s.stores with freq := f }
        input := { s.input with ip := ip }
        events := s.events ++ [.rd 8 none]
        freeCount := n } ∧
      f[eofSym] = 1#32 ∧ ∀ x : CodeSymbol, x ≠ eofSym → f[x] = s.stores.freq[x]

/-- R406: after the whole pass over the bytes `S`, at most MAX_INPUT of them, FREQ holds each byte's number of occurrences and
1 for EOF_SYM, and TOTAL their number. OUT and the host's registers but PHASE are untouched. That the pass takes one step
for the clear, one for each byte and one for EOS is the model's choice (DEDUCED, notes/assumptions/6.md). -/
def Obligations.FcCountCountsTheWholeInput : Prop :=
  ∀ (s : State) (S : List Byte), s.seq = .count .start → s.agenda = [] → s.rst = false → s.input.answers = true →
    s.unread = bytesToBits S → s.input.after = .eos → S.length ≤ 2 ^ 32 - 2 →
    ∃ t, Sys2Proof.core.run (S.length + 2) s = .next t ∧ t.seq = .build ∧ t.agenda = [] ∧
      (∀ b : Byte, t.stores.freq[symbolOf b.toNat] = BitVec.ofNat 32 (S.count b)) ∧
      t.stores.freq[eofSym] = 1#32 ∧ t.stores.total.toNat = S.length ∧
      t.output = s.output ∧ t.errWord = s.errWord ∧ t.errInfo = s.errInfo ∧ t.op = s.op ∧ t.id = s.id

/-! ### The tree -/

/-- R422: `PQExtractMin()` takes one node out of the queue and changes nothing else; no node left in it comes before that
node, and that node comes before every one left, unless both keys are equal (which R423 rules out in a run). -/
def Obligations.QueueAnswersItsFirstNode : Prop :=
  ∀ (st st' : Stores) (m : NodeIdx), st.pqExtractMin = some (m, st') →
    st.pq.Perm (m :: st'.pq) ∧ st' = { st with pq := st'.pq } ∧
    ∀ x ∈ st'.pq,
      ¬(st.node[x].weight < st.node[m].weight ∨
        (st.node[x].weight = st.node[m].weight ∧ st.node[x].minsym < st.node[m].minsym)) ∧
      (¬(st.node[x].weight = st.node[m].weight ∧ st.node[x].minsym = st.node[m].minsym) →
        st.node[m].weight < st.node[x].weight ∨
          (st.node[m].weight = st.node[x].weight ∧ st.node[m].minsym < st.node[x].minsym))

/-- R420, R421, R425: a symbol with a count becomes a leaf in the next free entry, with WEIGHT = FREQ[s] and MINSYM = s, and
goes into the queue; one without a count changes nothing. One turn of the merging loop takes two nodes out of the queue
and puts in their parent, in the next free entry: LEFT is the node removed first, RIGHT the one removed second, WEIGHT the
sum of their weights and MINSYM the smaller of their MINSYMs. Nothing else changes. (Where a node stands in the queue is
the model's choice: notes/assumptions/23.md.) -/
def Obligations.TheMergingRule : Prop :=
  (∀ (st : Stores) (x : CodeSymbol) (h : st.nodeCount.val < 513),
    st.tbLeaf x = some (if st.freq[x] = 0#32 then st else { st with
      node := st.node.set st.nodeCount.val (.leaf x st.freq[x] x)
      nodeCount := ⟨st.nodeCount.val + 1, by omega⟩
      pq := ⟨st.nodeCount.val, h⟩ :: st.pq })) ∧
  ∀ (st st1 st2 : Stores) (a b : NodeIdx) (h : st.nodeCount.val < 513), st.pqExtractMin = some (a, st1) →
    st1.pqExtractMin = some (b, st2) →
    st.tbMergeOnce = some { st with
      node := st.node.set st.nodeCount.val (.internal (st.node[a].weight + st.node[b].weight)
        (if st.node[a].minsym.val ≤ st.node[b].minsym.val then st.node[a].minsym else st.node[b].minsym) a b)
      nodeCount := ⟨st.nodeCount.val + 1, by omega⟩
      pq := ⟨st.nodeCount.val, h⟩ :: st2.pq }

/-- R420: TB_BUILD raises no error (`Alloc()` cannot reach NODE_CAP) and goes on to the code table; it writes NODE,
NODE_COUNT, PQ and ROOT only, and makes no channel access. -/
def Obligations.TbBuildAlwaysGoesOn : Prop :=
  ∀ s : State, s.seq = .build →
    ∃ (node : Vector Node 513) (count : Fin 514) (root : NodeIdx) (pq : List NodeIdx) (n : Nat),
      exec .tbBuild s = .next { s with
        seq := .codegen
        stores := { s.stores with node := node, nodeCount := count, root := root, pq := pq }
        freeCount := n }

/-- R420, R424, R548: when FREQ[256] is not 0, the tree at ROOT is `build(FREQ)`, each two subtrees merged in the order of
R422 and the one removed first on the left. It holds each symbol with a count in exactly one leaf and no other symbol,
NODE_COUNT is 2L - 1 for its L leaves, and the queue is empty. -/
def Obligations.TbBuildsTheTreeOfTheCounts : Prop :=
  ∀ s : State, s.seq = .build → s.stores.freq[eofSym] ≠ 0#32 →
    ∃ (t : State) (T : CodeTree), exec .tbBuild s = .next t ∧ T.heldAt t.stores.node t.stores.root = true ∧
      CodeTree.build (fun x => s.stores.freq[x]) = some T ∧
      (∀ x : CodeSymbol, T.occurrences x = if s.stores.freq[x] = 0#32 then 0 else 1) ∧
      t.stores.nodeCount.val = T.size ∧ T.size = 2 * T.leaves - 1 ∧ t.stores.pq = []

/-- R423: the tree depends on the counts only. Two states with the same FREQ build the same tree, whatever else their
stores hold. -/
def Obligations.TheTreeDependsOnTheCountsOnly : Prop :=
  ∀ s u : State, s.seq = .build → u.seq = .build → s.stores.freq = u.stores.freq → s.stores.freq[eofSym] ≠ 0#32 →
    ∃ (t w : State) (T : CodeTree), exec .tbBuild s = .next t ∧ exec .tbBuild u = .next w ∧
      T.heldAt t.stores.node t.stores.root = true ∧ T.heldAt w.stores.node w.stores.root = true

/-- R425: the weight of the root is the sum of the counts, when these do not exceed COUNT_WIDTH bits. -/
def Obligations.RootWeighsTheSumOfTheCounts : Prop :=
  ∀ s : State, s.seq = .build → s.stores.freq[eofSym] ≠ 0#32 →
    (s.stores.freq.toList.map BitVec.toNat).sum < 2 ^ 32 →
    ∃ t : State, exec .tbBuild s = .next t ∧
      t.stores.node[t.stores.root].weight.toNat = (s.stores.freq.toList.map BitVec.toNat).sum

/-! ### The code table -/

/-- R440, R443, R444: on a tree held at ROOT with at most NODE_CAP nodes, CG_GEN fills the table with each symbol's path,
the bit 0 for the symbol of a single leaf, and nothing for a symbol the tree lacks. Only CODE and STACK are written. That STACK
is empty afterwards on a tree that is one leaf, where R440 makes no walk, is the model's choice (DESIGN CHOICE,
notes/assumptions/31.md). -/
def Obligations.CgGenAssignsThePaths : Prop :=
  ∀ (s : State) (T : CodeTree), s.seq = .codegen → T.heldAt s.stores.node s.stores.root = true → T.size ≤ 513 →
    ∃ code : Vector Bits 257,
      exec .cgGen s = .next { s with
        seq := .hdrWrite .start, stores := { s.stores with code := code, stack := [] } } ∧
      ∀ x : CodeSymbol, code[x] = T.codeOf x

/-- R442: after CG_GEN, every code has at most 256 bits, and no code of the table is a prefix of another one. -/
def Obligations.CodesArePrefixFree : Prop :=
  ∀ (s t : State) (T : CodeTree), s.seq = .codegen → T.heldAt s.stores.node s.stores.root = true → T.size ≤ 513 →
    exec .cgGen s = .next t →
    (∀ x : CodeSymbol, t.stores.code[x].length ≤ 256) ∧
    ∀ x y : CodeSymbol, x ≠ y → t.stores.code[x] ≠ [] → t.stores.code[y] ≠ [] → ¬t.stores.code[x] <+: t.stores.code[y]

/-! ### The header serializer -/

/-- R460: HS_WRITE starts its walk at ROOT; R466: the magic is sent first, most significant bit first; a token is sent
for the node on top of STACK, and for an internal node its left subtree comes next, then its right one. That a leaf's
control bit and value are one write and one step is the model's choice (DEDUCED, notes/assumptions/6.md: R204 leaves the
grouping of writes open). -/
def Obligations.HsWriteSendsTheMagicAndTheTokens : Prop :=
  (∀ s : State, s.seq = .hdrWrite .start →
    exec .hsWrite s = .next { s with
      seq := .hdrWrite .magic, stores := { s.stores with stack := [⟨s.stores.root, none, []⟩] } }) ∧
  (∀ s : State, s.seq = .hdrWrite .magic → s.output.answers = true → s.output.closed = false →
    exec .magic s = .next { s with
      seq := .hdrWrite .token
      output := { s.output with bits := s.output.bits ++ bitsOf 32 s.id.toNat }
      events := s.events ++ [.wr (bitsOf 32 s.id.toNat)] }) ∧
  (∀ (s : State) (f : Frame) (fs : List Frame) (w : Word) (m : CodeSymbol) (l r : NodeIdx),
    s.seq = .hdrWrite .token → s.output.answers = true → s.output.closed = false →
    s.stores.stack = f :: fs → s.stores.node[f.node] = .internal w m l r →
    exec .hdrInternal s = .next { s with
      output := { s.output with bits := s.output.bits ++ [false] }
      events := s.events ++ [.wr [false]]
      stores := { s.stores with stack := ⟨l, none, []⟩ :: ⟨r, none, []⟩ :: fs } }) ∧
  (∀ (s : State) (f : Frame) (fs : List Frame) (x : CodeSymbol) (w : Word) (m : CodeSymbol),
    s.seq = .hdrWrite .token → s.output.answers = true → s.output.closed = false →
    s.stores.stack = f :: fs → s.stores.node[f.node] = .leaf x w m →
    exec (.hdrLeaf (BitVec.ofNat 9 x.val)) s = .next { s with
      seq := if fs.isEmpty then .bodyEnc .start else .hdrWrite .token
      output := { s.output with bits := s.output.bits ++ true :: bitsOf 9 x.val }
      events := s.events ++ [.wr (true :: bitsOf 9 x.val)]
      stores := { s.stores with stack := fs } })

/-- R460, R461: HS_WRITE over a tree held at ROOT sends the magic and the whole tree in pre-order, and leaves everything but
OUT, STACK and the event history as it was. That it takes one step for its start, one for the magic and one for each node,
a leaf's control bit and value together, is the model's choice (DEDUCED, notes/assumptions/6.md). -/
def Obligations.HsWriteSerializesTheTree : Prop :=
  ∀ (s : State) (T : CodeTree), s.seq = .hdrWrite .start → s.agenda = [] → s.rst = false →
    s.output.answers = true → s.output.closed = false → T.heldAt s.stores.node s.stores.root = true →
    ∃ events : List Event,
      Sys2Proof.core.run (T.size + 2) s = .next { s with
        seq := .bodyEnc .start
        output := { s.output with bits := s.output.bits ++ (bitsOf 32 s.id.toNat ++ T.serialize) }
        stores := { s.stores with stack := [] }
        events := events }

/-- The lengths of R462: the serialized header of a tree of `L` leaves has `11L - 1` bits, and with the 32 bits of the magic
`11L + 31`; so 42, 53, 64 and 2858 bits for 1, 2, 3 and 257 leaves. That these are the bits HS_WRITE sends is said by
HsWriteSerializesTheTree. -/
def Obligations.HeaderLengthFollowsTheLeaves : Prop :=
  ∀ (T : CodeTree) (magic : Word), T.serialize.length = 11 * T.leaves - 1 ∧
    (bitsOf 32 magic.toNat ++ T.serialize).length = 11 * T.leaves + 31 ∧
    (T.leaves = 1 → (bitsOf 32 magic.toNat ++ T.serialize).length = 42) ∧
    (T.leaves = 2 → (bitsOf 32 magic.toNat ++ T.serialize).length = 53) ∧
    (T.leaves = 3 → (bitsOf 32 magic.toNat ++ T.serialize).length = 64) ∧
    (T.leaves = 257 → (bitsOf 32 magic.toNat ++ T.serialize).length = 2858)

/-! ### The body encoder -/

/-- R481: BE_ENCODE's first action is the rewind. R480, R484: a byte of the second pass with a code is emitted next; one
without ends the command with INPUT_MISMATCH, CAUSE 0 and INFO = the byte; at EOS the code of EOF_SYM is emitted next. -/
def Obligations.BeEncodeRewindsAndReads : Prop :=
  (∀ s : State, s.seq = .bodyEnc .start → s.input.answers = true →
    exec .beEncode s = .next { s with
      seq := .bodyEnc .read
      input := { s.input with bits := s.input.rewound, after := s.input.rewoundAfter, ip := 0 }
      events := s.events ++ [.rst] }) ∧
  (∀ (s : State) (b : Byte) (rest : Bits), s.seq = .bodyEnc .read → s.input.answers = true →
    s.unread = bitsOf 8 b.toNat ++ rest →
    (s.stores.code[symbolOf b.toNat] ≠ [] →
      exec .beEncode s = .next { s with
        seq := .bodyEnc (.emit (symbolOf b.toNat))
        input := { s.input with ip := s.input.ip + 8 }
        events := s.events ++ [.rd 8 (some b.toNat)] }) ∧
    (s.stores.code[symbolOf b.toNat] = [] →
      exec .beEncode s = .next { s with
        seq := .closing, errCode := 6#8, errCause := 0#8, errInfo := BitVec.ofNat 32 b.toNat
        input := { s.input with ip := s.input.ip + 8 }
        events := s.events ++ [.rd 8 (some b.toNat)] })) ∧
  ∀ s : State, s.seq = .bodyEnc .read → s.input.answers = true → s.input.after = .eos → s.unread.length < 8 →
    ∃ ip n : Nat, ip ≤ s.input.bits.length ∧ exec .beEncode s = .next { s with
      seq := .bodyEnc (.emit eofSym)
      input := { s.input with ip := ip }
      events := s.events ++ [.rd 8 none]
      freeCount := n }

/-- R482, R483: a code is appended to OUT in path order; after a literal's code the next byte is read, and after the code
of EOF_SYM the body is over. The statement holds of every path BODY_CODE is given, not of CODE[x] alone, since the position
is all that selects it (DESIGN CHOICE, notes/assumptions/15.md); that a code of any length is one write and one step is the
model's choice too (DEDUCED, notes/assumptions/6.md: R480 and R204 leave the grouping open). -/
def Obligations.BodyCodeIsSent : Prop :=
  ∀ (s : State) (x : CodeSymbol) (path : Bits), s.seq = .bodyEnc (.emit x) → s.output.answers = true →
    s.output.closed = false →
    exec (.bodyCode path) s = .next { s with
      seq := if x.val = 256 then .closing else .bodyEnc .read
      output := { s.output with bits := s.output.bits ++ path }
      events := s.events ++ [.wr path] }

/-- R480, R482, R483: BE_ENCODE over a second pass that delivers the bytes `S`, each with a code, rewinds and then appends
the code of every byte in order and the code of EOF_SYM. That one step is the rewind, two are each byte's and two the
end's, a code being one write and one step, is the model's choice (DEDUCED, notes/assumptions/6.md). -/
def Obligations.BeEncodeWritesTheBody : Prop :=
  ∀ (s : State) (S : List Byte), s.seq = .bodyEnc .start → s.agenda = [] → s.rst = false →
    s.input.answers = true → s.output.answers = true → s.output.closed = false → s.input.rewound = bytesToBits S →
    s.input.rewoundAfter = .eos →
    (∀ b ∈ S, s.stores.code[symbolOf b.toNat] ≠ []) →
    ∃ t, Sys2Proof.core.run (2 * S.length + 3) s = .next t ∧ t.seq = .closing ∧ t.agenda = [] ∧
      t.output = { s.output with
        bits := s.output.bits ++ (S.flatMap (fun b => s.stores.code[symbolOf b.toNat]) ++ s.stores.code[eofSym]) } ∧
      t.stores = s.stores ∧ t.errWord = s.errWord ∧ t.errInfo = s.errInfo ∧ t.op = s.op ∧ t.id = s.id

/-! ### The header deserializer -/

/-- R500, R506: HD_READ starts with no node allocated, and reads 32 bits: MAGIC lets it go on, another word is BAD_MAGIC
with CAUSE 0 and the word, EOS is BAD_MAGIC with CAUSE 1 and 0. Nothing is written to OUT. -/
def Obligations.HdReadChecksTheMagic : Prop :=
  (∀ s : State, s.seq = .hdrRead .start →
    exec .hdRead s = .next { s with
      seq := .hdrRead .magic, stores := { s.stores with nodeCount := 0, stack := [] } }) ∧
  (∀ (s : State) (w : Word) (rest : Bits), s.seq = .hdrRead .magic → s.input.answers = true →
    s.unread = bitsOf 32 w.toNat ++ rest →
    (w = s.id → exec .magic s = exec .hdRead s ∧ exec .hdRead s = .next { s with
      seq := .hdrRead .control
      input := { s.input with ip := s.input.ip + 32 }
      events := s.events ++ [.rd 32 (some w.toNat)] }) ∧
    (w ≠ s.id → exec .hdRead s = .next { s with
      seq := .closing, errCode := 1#8, errCause := 0#8, errInfo := w
      input := { s.input with ip := s.input.ip + 32 }
      events := s.events ++ [.rd 32 (some w.toNat)] })) ∧
  (∀ s : State, s.seq = .hdrRead .magic → s.input.answers = true → s.input.after = .eos → s.unread.length < 32 →
    ∃ ip n : Nat, ip ≤ s.input.bits.length ∧ exec .hdRead s = .next { s with
      seq := .closing, errCode := 1#8, errCause := 1#8, errInfo := 0#32
      input := { s.input with ip := ip }
      events := s.events ++ [.rd 32 none]
      freeCount := n })

/-- R501, R503: the token of an internal node allocates the next entry, which waits on STACK for its two subtrees; R503,
R504: the token of a leaf allocates the next entry and goes on to its value. With NODE full either raises
HEADER_CAPACITY, CAUSE 0, INFO = 513. HD_READ does the same on a control bit, be there a whole token or not: a control bit 1
with fewer than 9 bits after it has its entry allocated (R504). The meanings of the two tokens hold whatever IN has at its
cursor, since the position is all that selects them (DESIGN CHOICE, notes/assumptions/15.md). -/
def Obligations.HeaderTokensAllocateANode : Prop :=
  ∀ s : State, s.seq = .hdrRead .control → s.input.answers = true →
    (∀ rest : Bits, s.unread = false :: rest → exec .hdRead s = exec .hdrInternal s) ∧
    (∀ (rest : Bits) (v : BitVec 9), s.unread = true :: rest → exec .hdRead s = exec (.hdrLeaf v) s) ∧
    (∀ h : s.stores.nodeCount.val < 513,
      exec .hdrInternal s = .next { s with
        input := { s.input with ip := s.input.ip + 1 }
        events := s.events ++ [.rd 1 (some 0)]
        stores := { s.stores with
          nodeCount := ⟨s.stores.nodeCount.val + 1, by omega⟩
          stack := ⟨⟨s.stores.nodeCount.val, h⟩, none, []⟩ :: s.stores.stack } } ∧
      ∀ v : BitVec 9, exec (.hdrLeaf v) s = .next { s with
        seq := .hdrRead (.value ⟨s.stores.nodeCount.val, h⟩)
        input := { s.input with ip := s.input.ip + 1 }
        events := s.events ++ [.rd 1 (some 1)]
        stores := { s.stores with nodeCount := ⟨s.stores.nodeCount.val + 1, by omega⟩ } }) ∧
    (s.stores.nodeCount.val = 513 →
      exec .hdrInternal s = .next { s with
        seq := .closing, errCode := 5#8, errCause := 0#8, errInfo := 513#32
        input := { s.input with ip := s.input.ip + 1 }
        events := s.events ++ [.rd 1 (some 0)] } ∧
      ∀ v : BitVec 9, exec (.hdrLeaf v) s = .next { s with
        seq := .closing, errCode := 5#8, errCause := 0#8, errInfo := 513#32
        input := { s.input with ip := s.input.ip + 1 }
        events := s.events ++ [.rd 1 (some 1)] })

/-- R505: a leaf value of 257 to 511 is MALFORMED_HEADER with CAUSE 3 and INFO = the value. R500, R501, R507: a legal one is
stored as a leaf of weight 0: the leaf that is the whole header becomes ROOT and the body comes next; a left subtree waits
for the right one; in general the leaf's entry is written, and of the others only those that wait on STACK can be. Entries
that wait on top of STACK with their left subtree read become internal nodes of weight 0, one after the other: LEFT is that
left subtree and RIGHT the entry just completed; the last one completed is ROOT, or the left subtree of the entry below.
MINSYM is left open (D26, notes/assumptions/10.md), and the format of a STACK entry is the model's choice (DESIGN CHOICE,
notes/assumptions/23.md). HD_READ does all this on the 9 bits of the value at IN's cursor. The meaning of the token holds
whatever IN has there, since the position is all that selects it (DESIGN CHOICE, notes/assumptions/15.md). -/
def Obligations.LeafValuesAreChecked : Prop :=
  ∀ (s : State) (i : NodeIdx) (v : BitVec 9), s.seq = .hdrRead (.value i) → s.input.answers = true →
    (∀ rest : Bits, s.unread = bitsOf 9 v.toNat ++ rest → exec .hdRead s = exec (.hdrLeaf v) s) ∧
    (256 < v.toNat → exec (.hdrLeaf v) s = .next { s with
      seq := .closing, errCode := 2#8, errCause := 3#8, errInfo := BitVec.ofNat 32 v.toNat
      input := { s.input with ip := s.input.ip + 9 }
      events := s.events ++ [.rd 9 (some v.toNat)] }) ∧
    (v.toNat ≤ 256 → s.stores.stack = [] → ∃ (m : CodeSymbol) (n : Nat), exec (.hdrLeaf v) s = .next { s with
      seq := .decode .start
      input := { s.input with ip := s.input.ip + 9 }
      events := s.events ++ [.rd 9 (some v.toNat)]
      stores := { s.stores with
        node := s.stores.node.set i.val (.leaf (symbolOf v.toNat) 0#32 m)
        root := i }
      freeCount := n }) ∧
    (∀ (parent : NodeIdx) (path : Bits) (fs : List Frame), v.toNat ≤ 256 →
      s.stores.stack = ⟨parent, none, path⟩ :: fs → ∃ (m : CodeSymbol) (n : Nat), exec (.hdrLeaf v) s = .next { s with
        seq := .hdrRead .control
        input := { s.input with ip := s.input.ip + 9 }
        events := s.events ++ [.rd 9 (some v.toNat)]
        stores := { s.stores with
          node := s.stores.node.set i.val (.leaf (symbolOf v.toNat) 0#32 m)
          stack := ⟨parent, some i, path⟩ :: fs }
        freeCount := n }) ∧
    (v.toNat ≤ 256 → (∀ f ∈ s.stores.stack, f.node ≠ i) →
      ∃ (m : CodeSymbol) (n : Nat) (node : Vector Node 513) (root : NodeIdx) (stack : List Frame),
        exec (.hdrLeaf v) s = .next { s with
          seq := if stack = [] then .decode .start else .hdrRead .control
          input := { s.input with ip := s.input.ip + 9 }
          events := s.events ++ [.rd 9 (some v.toNat)]
          stores := { s.stores with node := node, root := root, stack := stack }
          freeCount := n } ∧
        node[i] = .leaf (symbolOf v.toNat) 0#32 m ∧
        (∀ j : NodeIdx, j ≠ i → (∀ f ∈ s.stores.stack, f.node ≠ j) → node[j] = s.stores.node[j]) ∧
        (stack ≠ [] → root = s.stores.root)) ∧
    (∀ waiting below : List Frame, v.toNat ≤ 256 → s.stores.stack = waiting ++ below →
      (∀ f ∈ waiting, f.left ≠ none) → (∀ f ∈ below.head?, f.left = none) → (i :: waiting.map Frame.node).Nodup →
      ∃ (m : CodeSymbol) (n : Nat) (node : Vector Node 513) (last : NodeIdx),
        last = (i :: waiting.map Frame.node).getLast (by simp) ∧
        exec (.hdrLeaf v) s = .next { s with
          seq := if below = [] then .decode .start else .hdrRead .control
          input := { s.input with ip := s.input.ip + 9 }
          events := s.events ++ [.rd 9 (some v.toNat)]
          stores := { s.stores with
            node := node
            root := if below = [] then last else s.stores.root
            stack := match below with
              | [] => []
              | f :: fs => ⟨f.node, some last, f.path⟩ :: fs }
          freeCount := n } ∧
        node[i] = .leaf (symbolOf v.toNat) 0#32 m ∧
        (∀ (before after : List Frame) (f : Frame), waiting = before ++ f :: after →
          ∃ (l : NodeIdx) (m' : CodeSymbol), f.left = some l ∧
            node[f.node] = .internal 0#32 m' l ((i :: before.map Frame.node).getLast (by simp))) ∧
        ∀ j : NodeIdx, j ∉ i :: waiting.map Frame.node → node[j] = s.stores.node[j])

/-- R502, R504: EOS at a control bit is MALFORMED_HEADER with CAUSE 1, EOS at a leaf's value with CAUSE 2; INFO is the
number of nodes allocated so far. -/
def Obligations.HeaderCutShortIsMalformed : Prop :=
  ∀ s : State, s.input.answers = true → s.input.after = .eos →
    (s.seq = .hdrRead .control → s.unread.length < 1 →
      ∃ ip n : Nat, ip ≤ s.input.bits.length ∧ exec .hdRead s = .next { s with
        seq := .closing, errCode := 2#8, errCause := 1#8, errInfo := BitVec.ofNat 32 s.stores.nodeCount.val
        input := { s.input with ip := ip }
        events := s.events ++ [.rd 1 none]
        freeCount := n }) ∧
    (∀ i : NodeIdx, s.seq = .hdrRead (.value i) → s.unread.length < 9 →
      ∃ ip n : Nat, ip ≤ s.input.bits.length ∧ exec .hdRead s = .next { s with
        seq := .closing, errCode := 2#8, errCause := 2#8, errInfo := BitVec.ofNat 32 s.stores.nodeCount.val
        input := { s.input with ip := ip }
        events := s.events ++ [.rd 9 none]
        freeCount := n })

/-- R501, R508: HD_READ on the header of any tree of at most NODE_CAP nodes, whatever follows it, rebuilds that tree at
ROOT with one entry for each node, reads exactly the header's bits, writes nothing to OUT and goes on to the body. That it
takes two steps for a leaf, one for another node and two at the start is the model's choice (DEDUCED,
notes/assumptions/6.md). -/
def Obligations.HdReadRebuildsTheTree : Prop :=
  ∀ (s : State) (T : CodeTree) (rest : Bits), s.seq = .hdrRead .start → s.agenda = [] → s.rst = false →
    s.input.answers = true →
    s.unread = bitsOf 32 s.id.toNat ++ T.serialize ++ rest → T.size ≤ 513 →
    ∃ t, Sys2Proof.core.run (T.size + T.leaves + 2) s = .next t ∧ t.seq = .decode .start ∧ t.agenda = [] ∧
      T.heldAt t.stores.node t.stores.root = true ∧ t.stores.nodeCount.val = T.size ∧ t.unread = rest ∧
      t.input.answers = true ∧ t.output = s.output ∧ t.errWord = s.errWord ∧ t.errInfo = s.errInfo ∧ t.op = s.op ∧
      t.id = s.id

/-! ### The symbol recovery engine -/

/-- R520, R521, R522: SR_DECODE starts with LIT_OUT 0 and DEC_CUR at ROOT. A body bit moves DEC_CUR to the left child on 0
and to the right child on 1, a leaf root to itself; the EOF leaf ends decoding, another leaf has its symbol written next,
an internal node goes on. -/
def Obligations.SrDecodeMovesOnABit : Prop :=
  (∀ s : State, s.seq = .decode .start →
    exec .srDecode s = .next { s with
      seq := .decode .bit, stores := { s.stores with litOut := 0#32, decCur := s.stores.root } }) ∧
  ∀ (s : State) (b : Bool) (rest : Bits) (n : NodeIdx), s.seq = .decode .bit → s.input.answers = true →
    s.unread = b :: rest →
    (match s.stores.node[s.stores.decCur] with
      | .leaf .. => n = s.stores.decCur
      | .internal _ _ l r => n = if b then r else l) →
    exec .srDecode s = .next { s with
      seq :=
        match s.stores.node[n] with
        | .internal .. => .decode .bit
        | .leaf x _ _ => if x.val = 256 then .closing else .decode (.literal x)
      input := { s.input with ip := s.input.ip + 1 }
      events := s.events ++ [.rd 1 (some b.toNat)]
      stores := { s.stores with decCur := n } }

/-- R523: a literal is written as 8 bits, most significant first, LIT_OUT counts it modulo 2^32, and DEC_CUR returns to
ROOT. -/
def Obligations.SrDecodeWritesALiteral : Prop :=
  ∀ (s : State) (x : CodeSymbol), s.seq = .decode (.literal x) → s.output.answers = true → s.output.closed = false →
    exec .srDecode s = .next { s with
      seq := .decode .bit
      output := { s.output with bits := s.output.bits ++ bitsOf 8 x.val }
      events := s.events ++ [.wr (bitsOf 8 x.val)]
      stores := { s.stores with litOut := s.stores.litOut + 1#32, decCur := s.stores.root } }

/-- R524: EOS before the EOF leaf is TRUNCATED_STREAM with CAUSE 0 and INFO = LIT_OUT; the bytes written stay in OUT. -/
def Obligations.SrDecodeReportsATruncatedBody : Prop :=
  ∀ s : State, s.seq = .decode .bit → s.input.answers = true → s.input.after = .eos → s.unread = [] →
    ∃ ip n : Nat, ip ≤ s.input.bits.length ∧ exec .srDecode s = .next { s with
      seq := .closing, errCode := 3#8, errCause := 0#8, errInfo := s.stores.litOut
      input := { s.input with ip := ip }
      events := s.events ++ [.rd 1 none]
      freeCount := n }

/-- R527, R719: on a finite IN, SR_DECODE always ends, and on a tree with no EOF_SYM leaf only by TRUNCATED_STREAM; on an IN
that never reports EOS, with a tree that has no EOF_SYM leaf, the command never ends. The bound counts the model's steps, at
most two for each bit (notes/assumptions/6.md), and how an endless IN is written down is the model's choice (DESIGN CHOICE,
notes/assumptions/29.md). -/
def Obligations.SrDecodeEndsExceptOnAnEndlessInput : Prop :=
  (∀ s : State, s.seq = .decode .start → s.agenda = [] → s.rst = false → s.input.answers = true →
    s.output.answers = true → s.output.closed = false → s.input.after = .eos →
    ∃ (n : Nat) (t : State), n ≤ 2 * s.unread.length + 2 ∧ Sys2Proof.core.run n s = .next t ∧ t.seq = .closing ∧
      ∀ T : CodeTree, T.heldAt s.stores.node s.stores.root = true → T.occurrences eofSym = 0 →
        t.errCode = 3#8 ∧ t.errCause = 0#8 ∧ t.errInfo = t.stores.litOut) ∧
  ∀ (s : State) (T : CodeTree), s.seq = .decode .start → s.agenda = [] → s.rst = false → s.input.answers = true →
    s.output.answers = true → s.output.closed = false → s.input.after ≠ .eos →
    T.heldAt s.stores.node s.stores.root = true → T.occurrences eofSym = 0 →
    ∀ n : Nat, ∃ t, Sys2Proof.core.run n s = .next t ∧ t.phase = .decode

/-- R305, R521, R523: from DEC_CUR at the root of a tree held at ROOT, BODY_CODE along the path of a literal reads its
bits, writes its symbol's 8 bits and comes back to ROOT; it is what as many single steps of SR_DECODE and the write do. That
BODY_CODE in DECODE is the walk of a whole code is the model's choice (DESIGN CHOICE, notes/assumptions/25.md: the spec's own
step there is one bit). The code of EOF_SYM and a root that is a leaf are left to SrDecodeRecoversTheBody. -/
def Obligations.BodyCodeIsTheWalkOfItsBits : Prop :=
  ∀ (s : State) (l r : CodeTree) (x : CodeSymbol) (path rest : Bits), s.seq = .decode .bit → s.agenda = [] →
    s.rst = false → s.input.answers = true → s.output.answers = true → s.output.closed = false →
    (CodeTree.node l r).heldAt s.stores.node s.stores.root = true → s.stores.decCur = s.stores.root →
    (CodeTree.node l r).pathTo x = some path → x ≠ eofSym → s.unread = path ++ rest →
    exec (.bodyCode path) s = .next { s with
      input := { s.input with ip := s.input.ip + path.length }
      output := { s.output with bits := s.output.bits ++ bitsOf 8 x.val }
      stores := { s.stores with litOut := s.stores.litOut + 1#32 }
      events := s.events ++ path.map (fun b => .rd 1 (some b.toNat)) ++ [.wr (bitsOf 8 x.val)] } ∧
    Sys2Proof.core.run (path.length + 1) s = exec (.bodyCode path) s

/-- R522, R523, R525: on a tree held at ROOT, SR_DECODE on a body of literals of the tree, whatever follows it, writes the
literals in order, stops at the EOF code, reads nothing after it and records no error. That it takes one step for its start,
one for each bit and one for each literal is the model's choice (DEDUCED, notes/assumptions/6.md). -/
def Obligations.SrDecodeRecoversTheBody : Prop :=
  ∀ (s : State) (T : CodeTree) (symbols : List CodeSymbol) (rest : Bits), s.seq = .decode .start → s.agenda = [] →
    s.rst = false → s.input.answers = true → s.output.answers = true → s.output.closed = false →
    T.heldAt s.stores.node s.stores.root = true → T.occurrences eofSym ≠ 0 →
    (∀ x ∈ symbols, x ≠ eofSym ∧ T.occurrences x ≠ 0) → s.unread = T.body symbols ++ rest →
    ∃ t, Sys2Proof.core.run ((T.body symbols).length + symbols.length + 1) s = .next t ∧ t.seq = .closing ∧
      t.agenda = [] ∧
      t.output = { s.output with bits := s.output.bits ++ symbols.flatMap (fun x => bitsOf 8 x.val) } ∧
      t.unread = rest ∧ t.stores.litOut = BitVec.ofNat 32 symbols.length ∧ t.errWord = s.errWord ∧
      t.errInfo = s.errInfo ∧ t.op = s.op ∧ t.id = s.id

/-! ### The end of a command -/

/-- R552, R205: CLOSING pads OUT with zero bits to a byte boundary and closes it, once, and goes to DONE when ERR.CODE is
0 and to ERROR otherwise. What the stores hold afterwards is left open (R119). That IN stays where the last read left it is
the model's choice (DESIGN CHOICE, notes/assumptions/32.md: R553 leaves its unread input open). -/
def Obligations.ClosingEndsTheCommand : Prop :=
  ∀ s : State, s.seq = .closing → s.output.answers = true → s.output.closed = false →
    ∃ (k n : Nat) (st : Stores), k < 8 ∧ (s.output.bits.length + k) % 8 = 0 ∧
      exec .closing s = .next { s with
        seq := if s.errCode = 0#8 then .done else .error
        output := { s.output with bits := s.output.bits ++ List.replicate k false, closed := true }
        events := s.events ++ [.close]
        stores := st
        freeCount := n }

/-- R553, R619: in IDLE, DONE and ERROR the core takes no step of its own: its turn changes nothing. -/
def Obligations.WaitingStatesKeepEverything : Prop :=
  ∀ (s : State) (rest : List Turn), s.coreNext rest → s.phase = .idle ∨ s.phase = .done ∨ s.phase = .error →
    step s = .next { s with agenda := rest }

/-- The operations and the stream's tokens run in their own phase only, and are refused by name in any other
(notes/assumptions/15.md). -/
def Obligations.OperationsRunInTheirPhaseOnly : Prop :=
  (∀ (s : State) (p : Phase) (i : Instr), p.operation = some i → s.phase ≠ p → exec i s = .refused .notSelected) ∧
  ∀ s : State,
    (s.seq ≠ .hdrWrite .magic → s.seq ≠ .hdrRead .magic → exec .magic s = .refused .notSelected) ∧
    (s.seq ≠ .hdrWrite .token → s.seq ≠ .hdrRead .control → exec .hdrInternal s = .refused .notSelected ∧
      ∀ v, (∀ i, s.seq ≠ .hdrRead (.value i)) → exec (.hdrLeaf v) s = .refused .notSelected) ∧
    ((∀ x, s.seq ≠ .bodyEnc (.emit x)) → s.seq ≠ .decode .bit → ∀ path, exec (.bodyCode path) s = .refused .notSelected)

/-- Where the core stops for good: about to write or close an OUT that is already closed (against R716,
notes/assumptions/12.md), and in CG_GEN when NODE holds no tree of at most NODE_CAP nodes at ROOT (against R112,
notes/assumptions/13.md). -/
def Obligations.TheStopsOfTheCore : Prop :=
  ∀ (s : State) (rest : List Turn), s.coreNext rest →
    (s.output.answers = true → s.output.closed = true →
      s.seq = .hdrWrite .magic ∨ (s.seq = .hdrWrite .token ∧ s.stores.stack ≠ []) ∨
        (∃ x, s.seq = .bodyEnc (.emit x)) ∨ (∃ x, s.seq = .decode (.literal x)) ∨ s.seq = .closing →
      step s = .fault .outputReleased) ∧
    (s.seq = .codegen → (∀ T : CodeTree, T.heldAt s.stores.node s.stores.root = true → 513 < T.size) →
      step s = .fault .walkDoesNotEnd)

/-! ### The whole machine -/

/-- A step runs the decoded instruction, while `rst` is not asserted. A store to CMD runs the word's command in the state
without the store (R540); the core's turn, whether the agenda is empty or lists it, runs the operation PHASE selects at its
start (R104) and the field at hand inside it. HD_READ: MAGIC where its bits stand at IN's cursor (R302), the token whose
bits stand there at a control bit, and at a leaf's value the token of the control bit 1 and the bits there (R303). HS_WRITE:
MAGIC, then the token of the node on top of STACK (R460). BE_ENCODE: the code of the symbol at hand (R482). Where no whole
field stands at the cursor, and at every other position, EveryCoreStepIsAStepOfThePhasesOperation says what runs. -/
def Obligations.StepRunsTheDecodedInstruction : Prop :=
  (∀ (s : State) (rest : List Turn) (w : Word), s.rst = false → s.agenda = .store 0x00#6 4 w :: rest →
    step s = exec (decodeCommand w) { s with agenda := rest }) ∧
  (∀ (s : State) (rest : List Turn), s.coreNext rest →
    (∀ (p : Phase) (i : Instr), s.seq = .begin p → p.operation = some i → step s = exec i { s with agenda := rest }) ∧
    (∀ bits : Bits, s.seq = .hdrRead .magic → decode s.id .magicField s.unread = .ok (.magic, bits) →
      step s = exec .magic { s with agenda := rest }) ∧
    (∀ (i : Instr) (bits : Bits), s.seq = .hdrRead .control → decode s.id .headerToken s.unread = .ok (i, bits) →
      step s = exec i { s with agenda := rest }) ∧
    (∀ (j : NodeIdx) (i : Instr) (bits : Bits), s.seq = .hdrRead (.value j) →
      decode s.id .headerToken (true :: s.unread) = .ok (i, bits) → step s = exec i { s with agenda := rest }) ∧
    (s.seq = .hdrWrite .magic → step s = exec .magic { s with agenda := rest }) ∧
    (∀ (f : Frame) (fs : List Frame), s.seq = .hdrWrite .token → s.stores.stack = f :: fs →
      step s = exec
        (match s.stores.node[f.node] with
          | .leaf x _ _ => .hdrLeaf (BitVec.ofNat 9 x.val)
          | .internal .. => .hdrInternal) { s with agenda := rest }) ∧
    (∀ x : CodeSymbol, s.seq = .bodyEnc (.emit x) →
      step s = exec (.bodyCode s.stores.code[x]) { s with agenda := rest })) ∧
  ∀ (s : State) (t : Turn) (rest : List Turn), s.rst = false → s.agenda = t :: rest →
    step s = takeTurn t { s with agenda := rest }

/-- R104, R460, R480, R500: the fields of a stream are steps of the operation whose phase they run in: on the core's turn,
whether the agenda is empty or lists it, the instruction the step runs does what the operation PHASE selects does. -/
def Obligations.EveryCoreStepIsAStepOfThePhasesOperation : Prop :=
  ∀ (s : State) (rest : List Turn) (i : Instr), s.coreNext rest → s.phase.operation = some i →
    step s = exec i { s with agenda := rest }

/-- R213: while IN does not answer, an operation that is about to read or rewind stays where it is, and while OUT does not
answer one that is about to write or close stays where it is. The turn `channels` says which of the two answer from then on
and changes nothing else; that turn is the model's choice (DEDUCED, notes/assumptions/14.md). -/
def Obligations.UnansweredTransactionsWait : Prop :=
  (∀ (s : State) (rest : List Turn), s.coreNext rest →
    (s.input.answers = false →
      s.seq = .count .loop ∨ s.seq = .bodyEnc .start ∨ s.seq = .bodyEnc .read ∨ s.seq = .hdrRead .magic ∨
        s.seq = .hdrRead .control ∨ (∃ i, s.seq = .hdrRead (.value i)) ∨ s.seq = .decode .bit →
      step s = .next { s with agenda := rest }) ∧
    (s.output.answers = false →
      s.seq = .hdrWrite .magic ∨ (s.seq = .hdrWrite .token ∧ s.stores.stack ≠ []) ∨
        (∃ x, s.seq = .bodyEnc (.emit x)) ∨ (∃ x, s.seq = .decode (.literal x)) ∨ s.seq = .closing →
      step s = .next { s with agenda := rest })) ∧
  ∀ (s : State) (rest : List Turn) (i o : Bool), s.rst = false → s.agenda = .channels i o :: rest →
    step s = .next { s with
      agenda := rest, input := { s.input with answers := i }, output := { s.output with answers := o } }

/-- R546, R549, R551: on the core's turn PHASE stays, moves to the phase that follows in its command's order, or goes
from an operation to CLOSING with an error recorded. No phase is skipped or repeated. -/
def Obligations.PhasesFollowInOrder : Prop :=
  ∀ (s t : State) (rest : List Turn), s.coreNext rest → step s = .next t →
    t.phase = s.phase ∨ Phase.follows s.phase t.phase ∨
      (s.busy = true ∧ s.phase ≠ .closing ∧ t.phase = .closing ∧ t.errCode ≠ 0#8)

/-- R7, R216, R203: a step makes at most one channel transaction, and the event history only grows; only the core's own turn
in a running phase makes one. IN is rewound by BE_ENCODE's first action only; IN is read in the two passes over it, in
HD_READ and in SR_DECODE only; OUT is written in HS_WRITE, BE_ENCODE and SR_DECODE only, and closed in CLOSING only. -/
def Obligations.AStepMakesAtMostOneTransaction : Prop :=
  ∀ s t : State, step s = .next t →
    t.events = s.events ∨
      (s.busy = true ∧ (s.agenda = [] ∨ ∃ rest, s.agenda = .core :: rest) ∧ ∃ e, t.events = s.events ++ [e] ∧
        match e with
        | .rst => s.seq = .bodyEnc .start
        | .rd _ _ => s.phase = .count ∨ s.phase = .bodyEnc ∨ s.phase = .hdrRead ∨ s.phase = .decode
        | .wr _ => s.phase = .hdrWrite ∨ s.phase = .bodyEnc ∨ s.phase = .decode
        | .close => s.phase = .closing)

/-- R105, R106: ERR and ERR_INFO change only when a running operation raises an error, when a command is accepted, and on
reset. -/
def Obligations.ErrorRecordsAreKept : Prop :=
  ∀ s t : State, step s = .next t →
    (t.errCode = s.errCode ∧ t.errCause = s.errCause ∧ t.errInfo = s.errInfo) ∨
    (s.busy = true ∧ s.phase ≠ .closing ∧ t.phase = .closing ∧ t.errCode ≠ 0#8) ∨
    (s.busy = false ∧ ∃ w rest, s.agenda = .store 0x00#6 4 w :: rest ∧ w ≠ 0#32) ∨
    s.rst = true ∨ (∃ rest, s.agenda = .rst true :: rest)

/-- R107: ID holds MAGIC and never changes, not even on reset; a load of its slot returns it. -/
def Obligations.IdNeverChanges : Prop :=
  State.reset.id = Config.magic ∧ (∀ s t : State, step s = .next t → t.id = s.id) ∧
    ∀ (s : State) (rest : List Turn), s.agenda = .load 0x10#6 4 :: rest → ∃ t, step s = .next t ∧ t.loaded = s.id

/-- Every step keeps the invariant of Safety.lean: IN's cursor stays inside the sequence (R201), ERR holds a record of the
error table (R600), an operation runs only with no error recorded (R542, R551), DONE has no error and ERROR has one
(R552, R608), STATUS.OP names the command whose phase it is (R541), the registers stand as R700 says while `rst` is
asserted (R701), and the phase that STATUS loads have come to is one of the running command (R718). -/
def Obligations.EveryStepKeepsTheInvariant : Prop :=
  ∀ s t : State, s.Inv → step s = .next t → t.Inv

/-- The reset state meets the invariant. -/
def Obligations.ResetMeetsTheInvariant : Prop := State.reset.Inv

/-- R116, R501: while a header is read, STACK never holds more entries than there are allocated nodes. -/
def Obligations.HeaderReadingKeepsWithinTheStack : Prop :=
  ∀ s t : State, s.stackInv → step s = .next t → t.stackInv

/-- R302, R485, R548: what COMPRESS writes. On the bytes `S`, at most MAX_INPUT of them and delivered again after the
rewind, it ends in DONE, and OUT holds the magic, the header of the tree `build(freq(S))`, whose symbols are those of `S`
and EOF_SYM, the codes of the bytes in order and of EOF_SYM, and zero bits, as few as reach a byte boundary. All of it
depends on `S` and MAGIC only. -/
def Obligations.CompressWritesTheStream : Prop :=
  ∀ (s : State) (S : List Byte), s.busy = false → s.rst = false →
    s.agenda = [.attach (.of S) (.of S) false, .compress] → S.length ≤ 2 ^ 32 - 2 →
    ∃ (n k : Nat) (t : State) (T : CodeTree), Sys2Proof.core.run n s = .next t ∧ t.phase = .done ∧ t.errWord = 0#32 ∧
      t.output.closed = true ∧ t.agenda = [] ∧ t.id = s.id ∧ k < 8 ∧ CodeTree.build (freqOf S) = some T ∧
      (∀ b : Byte, T.occurrences (symbolOf b.toNat) = if b ∈ S then 1 else 0) ∧ T.occurrences eofSym = 1 ∧
      t.output.bits = bitsOf 32 s.id.toNat ++ T.serialize ++ T.body (S.map fun b => symbolOf b.toNat) ++
        List.replicate k false ∧
      t.output.bits.length % 8 = 0

/-- R526: the round trip. From a block that runs no command, with the bytes `S`, at most MAX_INPUT of them, on a channel
that delivers them again after the rewind, COMPRESS ends in DONE; and on the stream it leaves in OUT, DECOMPRESS with
the same MAGIC ends in DONE with exactly the bytes `S` in OUT. -/
def Obligations.DecompressUndoesCompress : Prop :=
  ∀ (s : State) (S : List Byte), s.busy = false → s.rst = false →
    s.agenda = [.attach (.of S) (.of S) false, .compress] → S.length ≤ 2 ^ 32 - 2 →
    ∃ (n : Nat) (t : State), Sys2Proof.core.run n s = .next t ∧ t.phase = .done ∧ t.errWord = 0#32 ∧
      t.output.closed = true ∧ bytesToBits (bitsToBytes t.output.bits) = t.output.bits ∧
      ∀ u : State, u.busy = false → u.rst = false → u.id = s.id →
        u.agenda = [.attach (.of (bitsToBytes t.output.bits)) (.of (bitsToBytes t.output.bits)) false, .decompress] →
        ∃ (m : Nat) (w : State), Sys2Proof.core.run m u = .next w ∧ w.phase = .done ∧ w.errWord = 0#32 ∧
          w.output.closed = true ∧ bitsToBytes w.output.bits = S
end

