-- ==== Sys2Proof/Laws/Bits.lean ====
section
/-! SUPPORT. Bit sequences: lengths, values, the two directions of R13's `bits_n` and `val`, and bytes. -/

namespace Sys2Proof

@[simp] theorem bitsOf_zero (v : Nat) : bitsOf 0 v = [] := rfl

@[simp] theorem bitsOf_succ (n v : Nat) : bitsOf (n + 1) v = v.testBit n :: bitsOf n v := rfl

@[simp] theorem length_bitsOf (n v : Nat) : (bitsOf n v).length = n := by
  induction n with
  | zero => rfl
  | succ n ih => simp [ih]

theorem valFrom_eq (a : Nat) (s : Bits) : valFrom a s = a * 2 ^ s.length + valOf s := by
  induction s generalizing a with
  | nil => simp [valFrom, valOf]
  | cons b s ih =>
    simp only [valFrom, valOf, List.length_cons]
    rw [ih (2 * a + b.toNat), ih (2 * 0 + b.toNat)]
    ring

@[simp] theorem valOf_nil : valOf [] = 0 := rfl

theorem valOf_cons (b : Bool) (s : Bits) : valOf (b :: s) = b.toNat * 2 ^ s.length + valOf s := by
  show valFrom (2 * 0 + b.toNat) s = _
  rw [valFrom_eq]
  ring

theorem valOf_lt (s : Bits) : valOf s < 2 ^ s.length := by
  induction s with
  | nil => simp
  | cons b s ih =>
    rw [valOf_cons, List.length_cons, pow_succ]
    have : b.toNat ≤ 1 := by cases b <;> simp
    nlinarith

/-- `val(bits_n(v)) = v` for `v < 2^n`. -/
theorem valOf_bitsOf (n v : Nat) : valOf (bitsOf n v) = v % 2 ^ n := by
  induction n with
  | zero => simp [Nat.mod_one]
  | succ n ih =>
    rw [bitsOf_succ, valOf_cons, length_bitsOf, ih, Nat.mod_pow_succ, Nat.testBit_eq_decide_div_mod_eq]
    rcases Nat.mod_two_eq_zero_or_one (v / 2 ^ n) with h | h <;> simp [h]
    omega

theorem valOf_bitsOf_of_lt {n v : Nat} (h : v < 2 ^ n) : valOf (bitsOf n v) = v := by
  rw [valOf_bitsOf, Nat.mod_eq_of_lt h]

theorem bitsOf_mod (n v : Nat) : bitsOf n (v % 2 ^ n) = bitsOf n v := by
  suffices h : ∀ m, m ≤ n → bitsOf m (v % 2 ^ n) = bitsOf m v from h n le_rfl
  intro m
  induction m with
  | zero => simp
  | succ m ih =>
    intro hm
    simp only [bitsOf_succ, ih (by omega), Nat.testBit_mod_two_pow]
    simp [show m < n by omega]

/-- `bits_n(val(s)) = s` for a sequence of `n` bits. -/
theorem bitsOf_valOf (s : Bits) : bitsOf s.length (valOf s) = s := by
  induction s with
  | nil => rfl
  | cons b s ih =>
    rw [List.length_cons, bitsOf_succ, valOf_cons]
    have h := valOf_lt s
    congr 1
    · cases b <;> simp [Nat.testBit_lt_two_pow h, Nat.testBit_two_pow_add_eq]
    · rw [← bitsOf_mod, Nat.mul_add_mod_self_right, Nat.mod_eq_of_lt h, ih]

@[simp] theorem length_bytesToBits (bs : List Byte) : (bytesToBits bs).length = 8 * bs.length := by
  induction bs with
  | nil => rfl
  | cons b bs ih => simp only [bytesToBits, List.length_append, length_bitsOf, ih, List.length_cons]; ring

/-- A stream read as bytes again gives the bytes it was made of (R207, R208). -/
theorem bitsToBytes_bytesToBits (bs : List Byte) : bitsToBytes (bytesToBits bs) = bs := by
  induction bs with
  | nil => rfl
  | cons b bs ih =>
    have h : BitVec.ofNat 8 (valOf (bitsOf 8 b.toNat)) = b := by
      rw [valOf_bitsOf_of_lt b.isLt, BitVec.ofNat_toNat, BitVec.setWidth_eq]
    simp only [bitsOf_succ, bitsOf_zero] at h
    simp only [bytesToBits, bitsOf_succ, bitsOf_zero, List.cons_append, List.nil_append, bitsToBytes, h, ih]

theorem padLength_lt (n : Nat) : padLength n < 8 := by unfold padLength; omega

/-- Padding ends on a byte boundary (R205). -/
theorem add_padLength_mod (n : Nat) : (n + padLength n) % 8 = 0 := by unfold padLength; omega

theorem symbolOf_val_of_le {v : Nat} (h : v ≤ 256) : (symbolOf v).val = v := by
  simp only [symbolOf, Fin.val_ofNat]
  omega

end Sys2Proof
end

