-- ==== Sys2Proof/Laws/State.lean ====
section
/-! SUPPORT. What every field is after every named update of State and of Stores. -/

namespace Sys2Proof.Machine

namespace State

variable (s : State)

@[simp] theorem goto_seq (q : Seq) : (s.goto q).seq = q := rfl
@[simp] theorem goto_op (q : Seq) : (s.goto q).op = s.op := rfl
@[simp] theorem goto_errCode (q : Seq) : (s.goto q).errCode = s.errCode := rfl
@[simp] theorem goto_errCause (q : Seq) : (s.goto q).errCause = s.errCause := rfl
@[simp] theorem goto_errInfo (q : Seq) : (s.goto q).errInfo = s.errInfo := rfl
@[simp] theorem goto_id (q : Seq) : (s.goto q).id = s.id := rfl
@[simp] theorem goto_stores (q : Seq) : (s.goto q).stores = s.stores := rfl
@[simp] theorem goto_input (q : Seq) : (s.goto q).input = s.input := rfl
@[simp] theorem goto_output (q : Seq) : (s.goto q).output = s.output := rfl
@[simp] theorem goto_shared (q : Seq) : (s.goto q).shared = s.shared := rfl
@[simp] theorem goto_events (q : Seq) : (s.goto q).events = s.events := rfl
@[simp] theorem goto_agenda (q : Seq) : (s.goto q).agenda = s.agenda := rfl
@[simp] theorem goto_loaded (q : Seq) : (s.goto q).loaded = s.loaded := rfl
@[simp] theorem goto_rst (q : Seq) : (s.goto q).rst = s.rst := rfl
@[simp] theorem goto_shown (q : Seq) : (s.goto q).shown = s.shown := rfl
@[simp] theorem goto_freeCount (q : Seq) : (s.goto q).freeCount = s.freeCount := rfl

@[simp] theorem record_seq (e : Event) : (s.record e).seq = s.seq := rfl
@[simp] theorem record_op (e : Event) : (s.record e).op = s.op := rfl
@[simp] theorem record_errCode (e : Event) : (s.record e).errCode = s.errCode := rfl
@[simp] theorem record_errCause (e : Event) : (s.record e).errCause = s.errCause := rfl
@[simp] theorem record_errInfo (e : Event) : (s.record e).errInfo = s.errInfo := rfl
@[simp] theorem record_id (e : Event) : (s.record e).id = s.id := rfl
@[simp] theorem record_stores (e : Event) : (s.record e).stores = s.stores := rfl
@[simp] theorem record_input (e : Event) : (s.record e).input = s.input := rfl
@[simp] theorem record_output (e : Event) : (s.record e).output = s.output := rfl
@[simp] theorem record_shared (e : Event) : (s.record e).shared = s.shared := rfl
@[simp] theorem record_events (e : Event) : (s.record e).events = s.events ++ [e] := rfl
@[simp] theorem record_agenda (e : Event) : (s.record e).agenda = s.agenda := rfl
@[simp] theorem record_loaded (e : Event) : (s.record e).loaded = s.loaded := rfl
@[simp] theorem record_rst (e : Event) : (s.record e).rst = s.rst := rfl
@[simp] theorem record_shown (e : Event) : (s.record e).shown = s.shown := rfl
@[simp] theorem record_freeCount (e : Event) : (s.record e).freeCount = s.freeCount := rfl

@[simp] theorem takeBits_seq (n v : Nat) : (s.takeBits n v).seq = s.seq := rfl
@[simp] theorem takeBits_op (n v : Nat) : (s.takeBits n v).op = s.op := rfl
@[simp] theorem takeBits_errCode (n v : Nat) : (s.takeBits n v).errCode = s.errCode := rfl
@[simp] theorem takeBits_errCause (n v : Nat) : (s.takeBits n v).errCause = s.errCause := rfl
@[simp] theorem takeBits_errInfo (n v : Nat) : (s.takeBits n v).errInfo = s.errInfo := rfl
@[simp] theorem takeBits_id (n v : Nat) : (s.takeBits n v).id = s.id := rfl
@[simp] theorem takeBits_stores (n v : Nat) : (s.takeBits n v).stores = s.stores := rfl
@[simp] theorem takeBits_input (n v : Nat) : (s.takeBits n v).input = { s.input with ip := s.input.ip + n } := rfl
@[simp] theorem takeBits_output (n v : Nat) : (s.takeBits n v).output = s.output := rfl
@[simp] theorem takeBits_shared (n v : Nat) : (s.takeBits n v).shared = s.shared := rfl
@[simp] theorem takeBits_events (n v : Nat) : (s.takeBits n v).events = s.events ++ [.rd n (some v)] := rfl
@[simp] theorem takeBits_agenda (n v : Nat) : (s.takeBits n v).agenda = s.agenda := rfl
@[simp] theorem takeBits_loaded (n v : Nat) : (s.takeBits n v).loaded = s.loaded := rfl
@[simp] theorem takeBits_rst (n v : Nat) : (s.takeBits n v).rst = s.rst := rfl
@[simp] theorem takeBits_shown (n v : Nat) : (s.takeBits n v).shown = s.shown := rfl
@[simp] theorem takeBits_freeCount (n v : Nat) : (s.takeBits n v).freeCount = s.freeCount := rfl

@[simp] theorem takeEos_seq (n : Nat) : (s.takeEos n).seq = s.seq := rfl
@[simp] theorem takeEos_op (n : Nat) : (s.takeEos n).op = s.op := rfl
@[simp] theorem takeEos_errCode (n : Nat) : (s.takeEos n).errCode = s.errCode := rfl
@[simp] theorem takeEos_errCause (n : Nat) : (s.takeEos n).errCause = s.errCause := rfl
@[simp] theorem takeEos_errInfo (n : Nat) : (s.takeEos n).errInfo = s.errInfo := rfl
@[simp] theorem takeEos_id (n : Nat) : (s.takeEos n).id = s.id := rfl
@[simp] theorem takeEos_stores (n : Nat) : (s.takeEos n).stores = s.stores := rfl
@[simp] theorem takeEos_input (n : Nat) :
    (s.takeEos n).input = { s.input with ip := Config.freeCursor s.freeCount % (s.input.bits.length + 1) } := rfl
@[simp] theorem takeEos_output (n : Nat) : (s.takeEos n).output = s.output := rfl
@[simp] theorem takeEos_shared (n : Nat) : (s.takeEos n).shared = s.shared := rfl
@[simp] theorem takeEos_events (n : Nat) : (s.takeEos n).events = s.events ++ [.rd n none] := rfl
@[simp] theorem takeEos_agenda (n : Nat) : (s.takeEos n).agenda = s.agenda := rfl
@[simp] theorem takeEos_loaded (n : Nat) : (s.takeEos n).loaded = s.loaded := rfl
@[simp] theorem takeEos_rst (n : Nat) : (s.takeEos n).rst = s.rst := rfl
@[simp] theorem takeEos_shown (n : Nat) : (s.takeEos n).shown = s.shown := rfl
@[simp] theorem takeEos_freeCount (n : Nat) : (s.takeEos n).freeCount = s.freeCount + 1 := rfl

@[simp] theorem resetIn_seq : (s.resetIn).seq = s.seq := rfl
@[simp] theorem resetIn_op : (s.resetIn).op = s.op := rfl
@[simp] theorem resetIn_errCode : (s.resetIn).errCode = s.errCode := rfl
@[simp] theorem resetIn_errCause : (s.resetIn).errCause = s.errCause := rfl
@[simp] theorem resetIn_errInfo : (s.resetIn).errInfo = s.errInfo := rfl
@[simp] theorem resetIn_id : (s.resetIn).id = s.id := rfl
@[simp] theorem resetIn_stores : (s.resetIn).stores = s.stores := rfl
@[simp] theorem resetIn_input :
    (s.resetIn).input = { s.input with bits := s.input.rewound, after := s.input.rewoundAfter, ip := 0 } := rfl
@[simp] theorem resetIn_output : (s.resetIn).output = s.output := rfl
@[simp] theorem resetIn_shared : (s.resetIn).shared = s.shared := rfl
@[simp] theorem resetIn_events : (s.resetIn).events = s.events ++ [.rst] := rfl
@[simp] theorem resetIn_agenda : (s.resetIn).agenda = s.agenda := rfl
@[simp] theorem resetIn_loaded : (s.resetIn).loaded = s.loaded := rfl
@[simp] theorem resetIn_rst : (s.resetIn).rst = s.rst := rfl
@[simp] theorem resetIn_shown : (s.resetIn).shown = s.shown := rfl
@[simp] theorem resetIn_freeCount : (s.resetIn).freeCount = s.freeCount := rfl

@[simp] theorem writeBits_seq (bits : Bits) : (s.writeBits bits).seq = s.seq := rfl
@[simp] theorem writeBits_op (bits : Bits) : (s.writeBits bits).op = s.op := rfl
@[simp] theorem writeBits_errCode (bits : Bits) : (s.writeBits bits).errCode = s.errCode := rfl
@[simp] theorem writeBits_errCause (bits : Bits) : (s.writeBits bits).errCause = s.errCause := rfl
@[simp] theorem writeBits_errInfo (bits : Bits) : (s.writeBits bits).errInfo = s.errInfo := rfl
@[simp] theorem writeBits_id (bits : Bits) : (s.writeBits bits).id = s.id := rfl
@[simp] theorem writeBits_stores (bits : Bits) : (s.writeBits bits).stores = s.stores := rfl
@[simp] theorem writeBits_input (bits : Bits) : (s.writeBits bits).input = s.input := rfl
@[simp] theorem writeBits_output (bits : Bits) :
    (s.writeBits bits).output = { s.output with bits := s.output.bits ++ bits } := rfl
@[simp] theorem writeBits_shared (bits : Bits) : (s.writeBits bits).shared = s.shared := rfl
@[simp] theorem writeBits_events (bits : Bits) : (s.writeBits bits).events = s.events ++ [.wr bits] := rfl
@[simp] theorem writeBits_agenda (bits : Bits) : (s.writeBits bits).agenda = s.agenda := rfl
@[simp] theorem writeBits_loaded (bits : Bits) : (s.writeBits bits).loaded = s.loaded := rfl
@[simp] theorem writeBits_rst (bits : Bits) : (s.writeBits bits).rst = s.rst := rfl
@[simp] theorem writeBits_shown (bits : Bits) : (s.writeBits bits).shown = s.shown := rfl
@[simp] theorem writeBits_freeCount (bits : Bits) : (s.writeBits bits).freeCount = s.freeCount := rfl

@[simp] theorem closeOut_seq : (s.closeOut).seq = s.seq := rfl
@[simp] theorem closeOut_op : (s.closeOut).op = s.op := rfl
@[simp] theorem closeOut_errCode : (s.closeOut).errCode = s.errCode := rfl
@[simp] theorem closeOut_errCause : (s.closeOut).errCause = s.errCause := rfl
@[simp] theorem closeOut_errInfo : (s.closeOut).errInfo = s.errInfo := rfl
@[simp] theorem closeOut_id : (s.closeOut).id = s.id := rfl
@[simp] theorem closeOut_stores : (s.closeOut).stores = s.stores := rfl
@[simp] theorem closeOut_input : (s.closeOut).input = s.input := rfl
@[simp] theorem closeOut_output :
    (s.closeOut).output = { s.output with
      bits := s.output.bits ++ List.replicate (padLength s.output.bits.length) false
      closed := true } := rfl
@[simp] theorem closeOut_shared : (s.closeOut).shared = s.shared := rfl
@[simp] theorem closeOut_events : (s.closeOut).events = s.events ++ [.close] := rfl
@[simp] theorem closeOut_agenda : (s.closeOut).agenda = s.agenda := rfl
@[simp] theorem closeOut_loaded : (s.closeOut).loaded = s.loaded := rfl
@[simp] theorem closeOut_rst : (s.closeOut).rst = s.rst := rfl
@[simp] theorem closeOut_shown : (s.closeOut).shown = s.shown := rfl
@[simp] theorem closeOut_freeCount : (s.closeOut).freeCount = s.freeCount := rfl

@[simp] theorem setError_seq (e : ErrorName) (c : BitVec 8) (w : Word) : (s.setError e c w).seq = s.seq := rfl
@[simp] theorem setError_op (e : ErrorName) (c : BitVec 8) (w : Word) : (s.setError e c w).op = s.op := rfl
@[simp] theorem setError_errCode (e : ErrorName) (c : BitVec 8) (w : Word) : (s.setError e c w).errCode = e.code := rfl
@[simp] theorem setError_errCause (e : ErrorName) (c : BitVec 8) (w : Word) : (s.setError e c w).errCause = c := rfl
@[simp] theorem setError_errInfo (e : ErrorName) (c : BitVec 8) (w : Word) : (s.setError e c w).errInfo = w := rfl
@[simp] theorem setError_id (e : ErrorName) (c : BitVec 8) (w : Word) : (s.setError e c w).id = s.id := rfl
@[simp] theorem setError_stores (e : ErrorName) (c : BitVec 8) (w : Word) : (s.setError e c w).stores = s.stores := rfl
@[simp] theorem setError_input (e : ErrorName) (c : BitVec 8) (w : Word) : (s.setError e c w).input = s.input := rfl
@[simp] theorem setError_output (e : ErrorName) (c : BitVec 8) (w : Word) : (s.setError e c w).output = s.output := rfl
@[simp] theorem setError_shared (e : ErrorName) (c : BitVec 8) (w : Word) : (s.setError e c w).shared = s.shared := rfl
@[simp] theorem setError_events (e : ErrorName) (c : BitVec 8) (w : Word) : (s.setError e c w).events = s.events := rfl
@[simp] theorem setError_agenda (e : ErrorName) (c : BitVec 8) (w : Word) : (s.setError e c w).agenda = s.agenda := rfl
@[simp] theorem setError_loaded (e : ErrorName) (c : BitVec 8) (w : Word) : (s.setError e c w).loaded = s.loaded := rfl
@[simp] theorem setError_rst (e : ErrorName) (c : BitVec 8) (w : Word) : (s.setError e c w).rst = s.rst := rfl
@[simp] theorem setError_shown (e : ErrorName) (c : BitVec 8) (w : Word) : (s.setError e c w).shown = s.shown := rfl
@[simp] theorem setError_freeCount (e : ErrorName) (c : BitVec 8) (w : Word) : (s.setError e c w).freeCount = s.freeCount := rfl

@[simp] theorem raise_seq (e : ErrorName) (c : BitVec 8) (w : Word) : (s.raise e c w).seq = .closing := rfl
@[simp] theorem raise_op (e : ErrorName) (c : BitVec 8) (w : Word) : (s.raise e c w).op = s.op := rfl
@[simp] theorem raise_errCode (e : ErrorName) (c : BitVec 8) (w : Word) : (s.raise e c w).errCode = e.code := rfl
@[simp] theorem raise_errCause (e : ErrorName) (c : BitVec 8) (w : Word) : (s.raise e c w).errCause = c := rfl
@[simp] theorem raise_errInfo (e : ErrorName) (c : BitVec 8) (w : Word) : (s.raise e c w).errInfo = w := rfl
@[simp] theorem raise_id (e : ErrorName) (c : BitVec 8) (w : Word) : (s.raise e c w).id = s.id := rfl
@[simp] theorem raise_stores (e : ErrorName) (c : BitVec 8) (w : Word) : (s.raise e c w).stores = s.stores := rfl
@[simp] theorem raise_input (e : ErrorName) (c : BitVec 8) (w : Word) : (s.raise e c w).input = s.input := rfl
@[simp] theorem raise_output (e : ErrorName) (c : BitVec 8) (w : Word) : (s.raise e c w).output = s.output := rfl
@[simp] theorem raise_shared (e : ErrorName) (c : BitVec 8) (w : Word) : (s.raise e c w).shared = s.shared := rfl
@[simp] theorem raise_events (e : ErrorName) (c : BitVec 8) (w : Word) : (s.raise e c w).events = s.events := rfl
@[simp] theorem raise_agenda (e : ErrorName) (c : BitVec 8) (w : Word) : (s.raise e c w).agenda = s.agenda := rfl
@[simp] theorem raise_loaded (e : ErrorName) (c : BitVec 8) (w : Word) : (s.raise e c w).loaded = s.loaded := rfl
@[simp] theorem raise_rst (e : ErrorName) (c : BitVec 8) (w : Word) : (s.raise e c w).rst = s.rst := rfl
@[simp] theorem raise_shown (e : ErrorName) (c : BitVec 8) (w : Word) : (s.raise e c w).shown = s.shown := rfl
@[simp] theorem raise_freeCount (e : ErrorName) (c : BitVec 8) (w : Word) : (s.raise e c w).freeCount = s.freeCount := rfl

@[simp] theorem startCommand_seq (op : BitVec 2) : (s.startCommand op).seq = s.seq := rfl
@[simp] theorem startCommand_op (op : BitVec 2) : (s.startCommand op).op = op := rfl
@[simp] theorem startCommand_errCode (op : BitVec 2) : (s.startCommand op).errCode = 0#8 := rfl
@[simp] theorem startCommand_errCause (op : BitVec 2) : (s.startCommand op).errCause = 0#8 := rfl
@[simp] theorem startCommand_errInfo (op : BitVec 2) : (s.startCommand op).errInfo = 0#32 := rfl
@[simp] theorem startCommand_id (op : BitVec 2) : (s.startCommand op).id = s.id := rfl
@[simp] theorem startCommand_stores (op : BitVec 2) : (s.startCommand op).stores = s.stores := rfl
@[simp] theorem startCommand_input (op : BitVec 2) : (s.startCommand op).input = s.input := rfl
@[simp] theorem startCommand_output (op : BitVec 2) : (s.startCommand op).output = s.output := rfl
@[simp] theorem startCommand_shared (op : BitVec 2) : (s.startCommand op).shared = s.shared := rfl
@[simp] theorem startCommand_events (op : BitVec 2) : (s.startCommand op).events = s.events := rfl
@[simp] theorem startCommand_agenda (op : BitVec 2) : (s.startCommand op).agenda = s.agenda := rfl
@[simp] theorem startCommand_loaded (op : BitVec 2) : (s.startCommand op).loaded = s.loaded := rfl
@[simp] theorem startCommand_rst (op : BitVec 2) : (s.startCommand op).rst = s.rst := rfl
@[simp] theorem startCommand_shown (op : BitVec 2) : (s.startCommand op).shown = none := rfl
@[simp] theorem startCommand_freeCount (op : BitVec 2) : (s.startCommand op).freeCount = s.freeCount := rfl

@[simp] theorem discardStores_seq : (s.discardStores).seq = s.seq := rfl
@[simp] theorem discardStores_op : (s.discardStores).op = s.op := rfl
@[simp] theorem discardStores_errCode : (s.discardStores).errCode = s.errCode := rfl
@[simp] theorem discardStores_errCause : (s.discardStores).errCause = s.errCause := rfl
@[simp] theorem discardStores_errInfo : (s.discardStores).errInfo = s.errInfo := rfl
@[simp] theorem discardStores_id : (s.discardStores).id = s.id := rfl
@[simp] theorem discardStores_stores :
    (s.discardStores).stores = (Config.freeStores s.freeCount).withinCapacity := rfl
@[simp] theorem discardStores_input : (s.discardStores).input = s.input := rfl
@[simp] theorem discardStores_output : (s.discardStores).output = s.output := rfl
@[simp] theorem discardStores_shared : (s.discardStores).shared = s.shared := rfl
@[simp] theorem discardStores_events : (s.discardStores).events = s.events := rfl
@[simp] theorem discardStores_agenda : (s.discardStores).agenda = s.agenda := rfl
@[simp] theorem discardStores_loaded : (s.discardStores).loaded = s.loaded := rfl
@[simp] theorem discardStores_rst : (s.discardStores).rst = s.rst := rfl
@[simp] theorem discardStores_shown : (s.discardStores).shown = s.shown := rfl
@[simp] theorem discardStores_freeCount : (s.discardStores).freeCount = s.freeCount + 1 := rfl

@[simp] theorem acknowledge_op : (s.acknowledge).op = s.op := by unfold acknowledge; split <;> rfl
@[simp] theorem acknowledge_errCode : (s.acknowledge).errCode = s.errCode := by unfold acknowledge; split <;> rfl
@[simp] theorem acknowledge_errCause : (s.acknowledge).errCause = s.errCause := by unfold acknowledge; split <;> rfl
@[simp] theorem acknowledge_errInfo : (s.acknowledge).errInfo = s.errInfo := by unfold acknowledge; split <;> rfl
@[simp] theorem acknowledge_id : (s.acknowledge).id = s.id := by unfold acknowledge; split <;> rfl
@[simp] theorem acknowledge_stores : (s.acknowledge).stores = s.stores := by unfold acknowledge; split <;> rfl
@[simp] theorem acknowledge_input : (s.acknowledge).input = s.input := by unfold acknowledge; split <;> rfl
@[simp] theorem acknowledge_output : (s.acknowledge).output = s.output := by unfold acknowledge; split <;> rfl
@[simp] theorem acknowledge_shared : (s.acknowledge).shared = s.shared := by unfold acknowledge; split <;> rfl
@[simp] theorem acknowledge_events : (s.acknowledge).events = s.events := by unfold acknowledge; split <;> rfl
@[simp] theorem acknowledge_agenda : (s.acknowledge).agenda = s.agenda := by unfold acknowledge; split <;> rfl
@[simp] theorem acknowledge_loaded : (s.acknowledge).loaded = s.loaded := by unfold acknowledge; split <;> rfl
@[simp] theorem acknowledge_rst : (s.acknowledge).rst = s.rst := by unfold acknowledge; split <;> rfl
@[simp] theorem acknowledge_shown : (s.acknowledge).shown = s.shown := by unfold acknowledge; split <;> rfl
@[simp] theorem acknowledge_freeCount : (s.acknowledge).freeCount = s.freeCount := by unfold acknowledge; split <;> rfl

@[simp] theorem resetBlock_seq : (s.resetBlock).seq = .idle := by unfold resetBlock; split <;> rfl
@[simp] theorem resetBlock_op : (s.resetBlock).op = 0#2 := by unfold resetBlock; split <;> rfl
@[simp] theorem resetBlock_errCode : (s.resetBlock).errCode = 0#8 := by unfold resetBlock; split <;> rfl
@[simp] theorem resetBlock_errCause : (s.resetBlock).errCause = 0#8 := by unfold resetBlock; split <;> rfl
@[simp] theorem resetBlock_errInfo : (s.resetBlock).errInfo = 0#32 := by unfold resetBlock; split <;> rfl
@[simp] theorem resetBlock_id : (s.resetBlock).id = s.id := by unfold resetBlock; split <;> rfl
@[simp] theorem resetBlock_shared : (s.resetBlock).shared = s.shared := by unfold resetBlock; split <;> rfl
@[simp] theorem resetBlock_events : (s.resetBlock).events = s.events := by unfold resetBlock; split <;> rfl
@[simp] theorem resetBlock_agenda : (s.resetBlock).agenda = s.agenda := by unfold resetBlock; split <;> rfl
@[simp] theorem resetBlock_loaded : (s.resetBlock).loaded = s.loaded := by unfold resetBlock; split <;> rfl
@[simp] theorem resetBlock_rst : (s.resetBlock).rst = s.rst := by unfold resetBlock; split <;> rfl
@[simp] theorem resetBlock_shown : (s.resetBlock).shown = none := by unfold resetBlock; split <;> rfl

/-- Reset does not close OUT (R702). -/
@[simp] theorem resetBlock_closed : (s.resetBlock).output.closed = s.output.closed := by
  unfold resetBlock; split <;> rfl

@[simp] theorem supply_seq (n : Nat) : (s.supply n).seq = s.seq := rfl
@[simp] theorem supply_op (n : Nat) : (s.supply n).op = s.op := rfl
@[simp] theorem supply_errCode (n : Nat) : (s.supply n).errCode = s.errCode := rfl
@[simp] theorem supply_errCause (n : Nat) : (s.supply n).errCause = s.errCause := rfl
@[simp] theorem supply_errInfo (n : Nat) : (s.supply n).errInfo = s.errInfo := rfl
@[simp] theorem supply_id (n : Nat) : (s.supply n).id = s.id := rfl
@[simp] theorem supply_stores (n : Nat) : (s.supply n).stores = s.stores := rfl
@[simp] theorem supply_input (n : Nat) : (s.supply n).input = s.input.supplyTo (s.input.ip + n) := rfl
@[simp] theorem supply_output (n : Nat) : (s.supply n).output = s.output := rfl
@[simp] theorem supply_shared (n : Nat) : (s.supply n).shared = s.shared := rfl
@[simp] theorem supply_events (n : Nat) : (s.supply n).events = s.events := rfl
@[simp] theorem supply_agenda (n : Nat) : (s.supply n).agenda = s.agenda := rfl
@[simp] theorem supply_loaded (n : Nat) : (s.supply n).loaded = s.loaded := rfl
@[simp] theorem supply_rst (n : Nat) : (s.supply n).rst = s.rst := rfl
@[simp] theorem supply_shown (n : Nat) : (s.supply n).shown = s.shown := rfl
@[simp] theorem supply_freeCount (n : Nat) : (s.supply n).freeCount = s.freeCount := rfl

@[simp] theorem loadReg_seq (offset : BitVec 6) : (s.loadReg offset).seq = s.seq := by unfold loadReg; split <;> rfl
@[simp] theorem loadReg_op (offset : BitVec 6) : (s.loadReg offset).op = s.op := by unfold loadReg; split <;> rfl
@[simp] theorem loadReg_errCode (offset : BitVec 6) : (s.loadReg offset).errCode = s.errCode := by unfold loadReg; split <;> rfl
@[simp] theorem loadReg_errCause (offset : BitVec 6) : (s.loadReg offset).errCause = s.errCause := by unfold loadReg; split <;> rfl
@[simp] theorem loadReg_errInfo (offset : BitVec 6) : (s.loadReg offset).errInfo = s.errInfo := by unfold loadReg; split <;> rfl
@[simp] theorem loadReg_id (offset : BitVec 6) : (s.loadReg offset).id = s.id := by unfold loadReg; split <;> rfl
@[simp] theorem loadReg_stores (offset : BitVec 6) : (s.loadReg offset).stores = s.stores := by unfold loadReg; split <;> rfl
@[simp] theorem loadReg_input (offset : BitVec 6) : (s.loadReg offset).input = s.input := by unfold loadReg; split <;> rfl
@[simp] theorem loadReg_output (offset : BitVec 6) : (s.loadReg offset).output = s.output := by unfold loadReg; split <;> rfl
@[simp] theorem loadReg_shared (offset : BitVec 6) : (s.loadReg offset).shared = s.shared := by unfold loadReg; split <;> rfl
@[simp] theorem loadReg_events (offset : BitVec 6) : (s.loadReg offset).events = s.events := by unfold loadReg; split <;> rfl
@[simp] theorem loadReg_agenda (offset : BitVec 6) : (s.loadReg offset).agenda = s.agenda := by unfold loadReg; split <;> rfl
@[simp] theorem loadReg_loaded (offset : BitVec 6) : (s.loadReg offset).loaded = s.readReg offset := by unfold loadReg; split <;> rfl
@[simp] theorem loadReg_rst (offset : BitVec 6) : (s.loadReg offset).rst = s.rst := by unfold loadReg; split <;> rfl

@[simp] theorem setRst_id (b : Bool) : (s.setRst b).id = s.id := by cases b <;> simp [setRst]
@[simp] theorem setRst_shared (b : Bool) : (s.setRst b).shared = s.shared := by cases b <;> simp [setRst]
@[simp] theorem setRst_events (b : Bool) : (s.setRst b).events = s.events := by cases b <;> simp [setRst]
@[simp] theorem setRst_agenda (b : Bool) : (s.setRst b).agenda = s.agenda := by cases b <;> simp [setRst]
@[simp] theorem setRst_loaded (b : Bool) : (s.setRst b).loaded = s.loaded := by cases b <;> simp [setRst]
@[simp] theorem setRst_rst (b : Bool) : (s.setRst b).rst = b := by cases b <;> simp [setRst]

/-- The state that `rst` forces is the state itself while `rst` is not asserted. -/
@[simp] theorem forced_of_rst (h : s.rst = false) : s.forced = s := by simp [forced, h]

/-- The state that `rst` forces while it is asserted (R701). -/
theorem forced_of_asserted (h : s.rst = true) : s.forced = s.resetBlock := by simp [forced, h]

@[simp] theorem forced_rst : s.forced.rst = s.rst := by unfold forced; split <;> simp
@[simp] theorem forced_id : s.forced.id = s.id := by unfold forced; split <;> simp
@[simp] theorem forced_shared : s.forced.shared = s.shared := by unfold forced; split <;> simp
@[simp] theorem forced_events : s.forced.events = s.events := by unfold forced; split <;> simp
@[simp] theorem forced_agenda : s.forced.agenda = s.agenda := by unfold forced; split <;> simp
@[simp] theorem forced_loaded : s.forced.loaded = s.loaded := by unfold forced; split <;> simp

@[simp] theorem phase_goto (q : Seq) : (s.goto q).phase = q.phase := rfl
@[simp] theorem phase_raise (e : ErrorName) (c : BitVec 8) (w : Word) : (s.raise e c w).phase = .closing := rfl
@[simp] theorem goto_goto (q r : Seq) : (s.goto q).goto r = s.goto r := rfl

end State

namespace Stores

variable (st : Stores)

@[simp] theorem setNode_freq (i : NodeIdx) (n : Node) : (st.setNode i n).freq = st.freq := rfl
@[simp] theorem setNode_total (i : NodeIdx) (n : Node) : (st.setNode i n).total = st.total := rfl
@[simp] theorem setNode_node (i : NodeIdx) (n : Node) : (st.setNode i n).node = st.node.set i.val n := rfl
@[simp] theorem setNode_nodeCount (i : NodeIdx) (n : Node) : (st.setNode i n).nodeCount = st.nodeCount := rfl
@[simp] theorem setNode_root (i : NodeIdx) (n : Node) : (st.setNode i n).root = st.root := rfl
@[simp] theorem setNode_pq (i : NodeIdx) (n : Node) : (st.setNode i n).pq = st.pq := rfl
@[simp] theorem setNode_code (i : NodeIdx) (n : Node) : (st.setNode i n).code = st.code := rfl
@[simp] theorem setNode_stack (i : NodeIdx) (n : Node) : (st.setNode i n).stack = st.stack := rfl
@[simp] theorem setNode_decCur (i : NodeIdx) (n : Node) : (st.setNode i n).decCur = st.decCur := rfl
@[simp] theorem setNode_litOut (i : NodeIdx) (n : Node) : (st.setNode i n).litOut = st.litOut := rfl

@[simp] theorem pqInsert_freq (i : NodeIdx) : (st.pqInsert i).freq = st.freq := rfl
@[simp] theorem pqInsert_total (i : NodeIdx) : (st.pqInsert i).total = st.total := rfl
@[simp] theorem pqInsert_node (i : NodeIdx) : (st.pqInsert i).node = st.node := rfl
@[simp] theorem pqInsert_nodeCount (i : NodeIdx) : (st.pqInsert i).nodeCount = st.nodeCount := rfl
@[simp] theorem pqInsert_root (i : NodeIdx) : (st.pqInsert i).root = st.root := rfl
@[simp] theorem pqInsert_pq (i : NodeIdx) : (st.pqInsert i).pq = i :: st.pq := rfl
@[simp] theorem pqInsert_code (i : NodeIdx) : (st.pqInsert i).code = st.code := rfl
@[simp] theorem pqInsert_stack (i : NodeIdx) : (st.pqInsert i).stack = st.stack := rfl
@[simp] theorem pqInsert_decCur (i : NodeIdx) : (st.pqInsert i).decCur = st.decCur := rfl
@[simp] theorem pqInsert_litOut (i : NodeIdx) : (st.pqInsert i).litOut = st.litOut := rfl

@[simp] theorem withinCapacity_freq : (st.withinCapacity).freq = st.freq := rfl
@[simp] theorem withinCapacity_total : (st.withinCapacity).total = st.total := rfl
@[simp] theorem withinCapacity_node : (st.withinCapacity).node = st.node := rfl
@[simp] theorem withinCapacity_nodeCount : (st.withinCapacity).nodeCount = st.nodeCount := rfl
@[simp] theorem withinCapacity_root : (st.withinCapacity).root = st.root := rfl
@[simp] theorem withinCapacity_pq : (st.withinCapacity).pq = st.pq.take Config.queueCap := rfl
@[simp] theorem withinCapacity_code : (st.withinCapacity).code = st.code.map (List.take Config.maxCodeLen) := rfl
@[simp] theorem withinCapacity_stack : (st.withinCapacity).stack = st.stack.take Config.nodeCap := rfl
@[simp] theorem withinCapacity_decCur : (st.withinCapacity).decCur = st.decCur := rfl
@[simp] theorem withinCapacity_litOut : (st.withinCapacity).litOut = st.litOut := rfl

end Stores

/-- A phase's first position is a position of that phase. -/
@[simp] theorem Seq.phase_begin (p : Phase) : (Seq.begin p).phase = p := by cases p <;> rfl

end Sys2Proof.Machine
end

