-- ==== Sys2Proof/Laws/Channels.lean ====
section
/-! SUPPORT. What the channel primitives do (20_memory.md rules R202 to R205, R213): each lemma says it once, and the
proofs about the engines cite it. -/

namespace Sys2Proof.Machine

namespace State

theorem length_unread (s : State) : s.unread.length = s.input.bits.length - s.input.ip := by simp [unread]

/-- Where enough bits are written out, IN stays as it is. -/
theorem supplyTo_of_le {c : InChannel} {n : Nat} (h : n ≤ c.bits.length) : c.supplyTo n = c := by
  have h0 : n - c.bits.length = 0 := Nat.sub_eq_zero_of_le h
  unfold InChannel.supplyTo
  rw [h0]
  rcases c with ⟨bits, _ | _ | _, _, _, _, _⟩ <;> simp [bitsAfter]

/-- A finite IN stays as it is. -/
theorem supplyTo_eos {c : InChannel} (n : Nat) (h : c.after = .eos) : c.supplyTo n = c := by
  unfold InChannel.supplyTo
  rw [h]
  simp [bitsAfter, ← h]

/-- An endless IN has as many bits written out as it is asked for (R527). -/
theorem length_supplyTo {c : InChannel} (n : Nat) (h : c.after ≠ .eos) :
    (c.supplyTo n).bits.length = max c.bits.length n := by
  rcases c with ⟨bits, _ | _ | _, _, _, _, _⟩
  · exact absurd rfl h
  all_goals
    simp only [InChannel.supplyTo, bitsAfter, List.length_append, List.length_map, List.length_range]
    omega

/-- With the next `n` bits written out, there is nothing to supply. -/
theorem supply_of_le {s : State} {n : Nat} (h0 : 0 < n) (h : n ≤ s.unread.length) : s.supply n = s := by
  have : s.input.ip + n ≤ s.input.bits.length := by rw [length_unread] at h; omega
  simp [supply, supplyTo_of_le this]

theorem supply_eos {s : State} (n : Nat) (h : s.input.after = .eos) : s.supply n = s := by
  simp [supply, supplyTo_eos _ h]

/-- An endless IN has the next `n` bits (R527). -/
theorem le_length_unread_supply {s : State} (n : Nat) (h : s.input.after ≠ .eos) : n ≤ (s.supply n).unread.length := by
  rw [length_unread, supply_input, length_supplyTo _ h]
  show n ≤ max s.input.bits.length (s.input.ip + n) - s.input.ip
  omega

/-- A read that `n` written-out bits remain for answers their value, and takes them (R202). -/
theorem readBits_of_unread {n : Nat} {s : State} {field rest : Bits} (h : s.unread = field ++ rest)
    (hn : field.length = n) (h0 : 0 < n) : s.readBits n = (some (valOf field), s.takeBits n (valOf field)) := by
  have hl : s.input.bits.length - s.input.ip = field.length + rest.length := by
    rw [← length_unread, h, List.length_append]
  unfold readBits
  simp only [supply_of_le h0 (by rw [h, List.length_append]; omega)]
  rw [if_neg (by omega), h, ← hn, List.take_left]

/-- A read of a field written as `bits_n(v)` answers `v` (R13, R202). -/
theorem readBits_bitsOf {n v : Nat} {s : State} {rest : Bits} (h : s.unread = bitsOf n v ++ rest) (hv : v < 2 ^ n)
    (h0 : 0 < n) : s.readBits n = (some v, s.takeBits n v) := by
  rw [readBits_of_unread h (length_bitsOf n v) h0, valOf_bitsOf_of_lt hv]

/-- A read of one bit (R202). -/
theorem readBits_one {s : State} {b : Bool} {rest : Bits} (h : s.unread = b :: rest) :
    s.readBits 1 = (some b.toNat, s.takeBits 1 b.toNat) := by
  rw [readBits_of_unread (n := 1) (field := [b]) h rfl (by decide)]
  cases b <;> rfl

/-- With fewer than `n` bits left of a finite IN a read answers EOS (R202). -/
theorem readBits_eos {n : Nat} {s : State} (he : s.input.after = .eos) (h : s.unread.length < n) :
    s.readBits n = (none, s.takeEos n) := by
  unfold readBits
  simp only [supply_eos n he]
  rw [if_pos (by rwa [← length_unread])]

/-- A read for which IN has `n` bits, written out or not, answers their value (R202). -/
theorem readBits_of_le {n : Nat} {s : State} (h : n ≤ (s.supply n).unread.length) :
    s.readBits n = (some (valOf ((s.supply n).unread.take n)),
      (s.supply n).takeBits n (valOf ((s.supply n).unread.take n))) := by
  unfold readBits
  simp only
  rw [if_neg (by rw [← length_unread]; omega)]

/-- A read of an endless IN never answers EOS (R527). -/
theorem readBits_endless (n : Nat) {s : State} (h : s.input.after ≠ .eos) :
    s.readBits n = (some (valOf ((s.supply n).unread.take n)),
      (s.supply n).takeBits n (valOf ((s.supply n).unread.take n))) :=
  readBits_of_le (le_length_unread_supply n h)

/-- Everything a read can do (R202). -/
theorem readBits_cases (n : Nat) (s : State) :
    (s.input.after = .eos ∧ s.unread.length < n ∧ s.readBits n = (none, s.takeEos n)) ∨
    (n ≤ (s.supply n).unread.length ∧ s.readBits n = (some (valOf ((s.supply n).unread.take n)),
      (s.supply n).takeBits n (valOf ((s.supply n).unread.take n)))) := by
  by_cases he : s.input.after = .eos
  · rcases Nat.lt_or_ge s.unread.length n with h | h
    · exact .inl ⟨he, h, readBits_eos he h⟩
    · have h' : n ≤ (s.supply n).unread.length := by rwa [supply_eos n he]
      exact .inr ⟨h', readBits_of_le h'⟩
  · exact .inr ⟨le_length_unread_supply n he, readBits_endless n he⟩

@[simp] theorem unread_goto (s : State) (q : Seq) : (s.goto q).unread = s.unread := rfl

/-- What is left of IN after a read (R202). -/
@[simp] theorem unread_takeBits (s : State) (n v : Nat) : (s.takeBits n v).unread = s.unread.drop n := by
  simp [unread, List.drop_drop]

@[simp] theorem unread_writeBits (s : State) (bits : Bits) : (s.writeBits bits).unread = s.unread := rfl

/-- After the rewind the whole sequence is there again (R203). -/
@[simp] theorem unread_resetIn (s : State) : s.resetIn.unread = s.input.rewound := rfl

/-- A read that answers keeps the cursor inside the sequence (R201). -/
theorem cursor_takeBits {s : State} {n : Nat} (v : Nat) (hn : n ≤ s.unread.length)
    (hc : s.input.ip ≤ s.input.bits.length) :
    (s.takeBits n v).input.ip ≤ (s.takeBits n v).input.bits.length := by
  rw [length_unread] at hn
  simp only [takeBits_input]
  omega

/-- The cursor after EOS, though open, stays inside the sequence (R201, R202). -/
theorem cursor_takeEos (s : State) (n : Nat) : (s.takeEos n).input.ip ≤ (s.takeEos n).input.bits.length :=
  Nat.lt_succ_iff.mp (Nat.mod_lt _ (Nat.succ_pos _))

/-- Closing leaves OUT on a byte boundary (R205). -/
theorem length_closeOut (s : State) : s.closeOut.output.bits.length % 8 = 0 := by
  simp only [closeOut_output, List.length_append, List.length_replicate]
  exact add_padLength_mod _

end State

variable {s : State}

theorem onInput_answers (h : s.input.answers = true) (k : State → Result) : onInput s k = k s := if_pos h

/-- A transaction on IN waits for the channel (R213). -/
theorem onInput_waits (h : s.input.answers = false) (k : State → Result) : onInput s k = .next s := by
  simp [onInput, h]

theorem onOutput_open (ha : s.output.answers = true) (hc : s.output.closed = false) (k : State → Result) :
    onOutput s k = k s := by simp [onOutput, ha, hc]

/-- A transaction on OUT waits for the channel (R213). -/
theorem onOutput_waits (h : s.output.answers = false) (k : State → Result) : onOutput s k = .next s := by
  simp [onOutput, h]

/-- A transaction on a released OUT faults. -/
theorem onOutput_released (ha : s.output.answers = true) (hc : s.output.closed = true) (k : State → Result) :
    onOutput s k = .fault .outputReleased := by simp [onOutput, ha, hc]

/-- What a transaction on IN leads to, if it leads to a state. -/
theorem onInput_next {k : State → Result} {t : State} (h : onInput s k = .next t) :
    (s.input.answers = false ∧ t = s) ∨ (s.input.answers = true ∧ k s = .next t) := by
  unfold onInput at h
  split at h
  · exact .inr ⟨by assumption, h⟩
  · exact .inl ⟨by simp_all, by cases h; rfl⟩

/-- What a transaction on OUT leads to, if it leads to a state. -/
theorem onOutput_next {k : State → Result} {t : State} (h : onOutput s k = .next t) :
    (s.output.answers = false ∧ t = s) ∨
      (s.output.answers = true ∧ s.output.closed = false ∧ k s = .next t) := by
  unfold onOutput at h
  split at h
  · split at h
    · cases h
    · exact .inr ⟨by assumption, by simp_all, h⟩
  · exact .inl ⟨by simp_all, by cases h; rfl⟩

/-- What a read leads to, if it leads to a state: nothing yet, or what the engine does with EOS or with the value. -/
theorem withRead_next {n : Nat} {k : Option Nat → State → Result} {t : State} (h : withRead n s k = .next t) :
    t = s ∨ (s.input.after = .eos ∧ k none (s.takeEos n) = .next t) ∨
      ∃ v < 2 ^ n, n ≤ (s.supply n).unread.length ∧ k (some v) ((s.supply n).takeBits n v) = .next t := by
  obtain ⟨-, rfl⟩ | ⟨-, h⟩ := onInput_next h
  · exact .inl rfl
  obtain ⟨he, -, e⟩ | ⟨hn, e⟩ := s.readBits_cases n
  · rw [e] at h
    exact .inr (.inl ⟨he, h⟩)
  · rw [e] at h
    refine .inr (.inr ⟨_, ?_, hn, h⟩)
    simpa [hn] using valOf_lt ((s.supply n).unread.take n)

/-- What a write leads to, if it leads to a state. -/
theorem withWrite_next {bits : Bits} {k : State → Result} {t : State} (h : withWrite bits s k = .next t) :
    t = s ∨ k (s.writeBits bits) = .next t := by
  obtain ⟨-, rfl⟩ | ⟨-, -, h⟩ := onOutput_next h
  · exact .inl rfl
  · exact .inr h

end Sys2Proof.Machine
end

