-- ==== Sys2Proof/Laws/Stores.lean ====
section
/-! SUPPORT. The node store, the queue and the walks over them (10_state.md rules R112 to R116; 41_tree_builder.md rule
R422). -/

namespace Sys2Proof.Machine.Stores

variable {st : Stores}

/-- `Alloc()` with room (R113). -/
theorem alloc_of_lt (h : st.nodeCount.val < 513) :
    st.alloc = some (⟨st.nodeCount.val, h⟩, { st with nodeCount := ⟨st.nodeCount.val + 1, by omega⟩ }) := by
  simp [alloc, h]

/-- `Alloc()` on a full node store (R113). -/
theorem alloc_full (h : st.nodeCount.val = 513) : st.alloc = none := by simp [alloc, h]

/-- Everything `Alloc()` can answer (R113). -/
theorem alloc_eq_some {i : NodeIdx} {st' : Stores} (h : st.alloc = some (i, st')) :
    i.val = st.nodeCount.val ∧ st'.nodeCount.val = st.nodeCount.val + 1 ∧
      st' = { st with nodeCount := st'.nodeCount } := by
  unfold alloc at h
  split at h
  · cases h
    exact ⟨rfl, rfl, rfl⟩
  · cases h

theorem alloc_eq_none (h : st.alloc = none) : st.nodeCount.val = 513 := by
  unfold alloc at h
  split at h
  · cases h
  · omega

/-- Reading the entry just written (R112). -/
@[simp] theorem node_setNode_self (st : Stores) (i : NodeIdx) (n : Node) : (st.setNode i n).node[i] = n := by
  simp [setNode]

/-- Writing one entry leaves every other one alone (R112). -/
theorem node_setNode_of_ne (st : Stores) {i j : NodeIdx} (n : Node) (h : i ≠ j) :
    (st.setNode i n).node[j] = st.node[j] := by
  have : i.val ≠ j.val := fun e => h (Fin.ext e)
  simp [setNode, this]

/-- The queue without its first node, and that node, are the queue (R422). -/
theorem takeMin_perm {q : List NodeIdx} {m : NodeIdx} {rest : List NodeIdx} (h : st.takeMin q = some (m, rest)) :
    q.Perm (m :: rest) := by
  induction q generalizing m rest with
  | nil => cases h
  | cons x xs ih =>
    simp only [takeMin] at h
    split at h
    · cases h
      rename_i hn
      cases xs with
      | nil => exact .refl _
      | cons y ys =>
        simp only [takeMin] at hn
        split at hn
        · cases hn
        · split at hn <;> cases hn
    · rename_i m' r' hm
      split at h <;> cases h
      · exact (ih hm).cons x
      · exact ((ih hm).cons x).trans (.swap m x r')

/-- A queue that is not empty has a first node (R422). -/
theorem takeMin_isSome (x : NodeIdx) (xs : List NodeIdx) : ∃ m rest, st.takeMin (x :: xs) = some (m, rest) := by
  simp only [takeMin]
  split
  · exact ⟨_, _, rfl⟩
  · split <;> exact ⟨_, _, rfl⟩

/-- `PQExtractMin()` shortens the queue by one and changes nothing else (R420, R422). -/
theorem pqExtractMin_eq_some {m : NodeIdx} {st' : Stores} (h : st.pqExtractMin = some (m, st')) :
    st.pq.Perm (m :: st'.pq) ∧ st' = { st with pq := st'.pq } := by
  unfold pqExtractMin at h
  split at h
  · cases h
  · rename_i hm
    cases h
    exact ⟨takeMin_perm hm, rfl⟩

theorem pqExtractMin_isSome (h : st.pq ≠ []) : ∃ m st', st.pqExtractMin = some (m, st') := by
  obtain ⟨x, xs, hq⟩ := List.exists_cons_of_ne_nil h
  obtain ⟨m, rest, hm⟩ := takeMin_isSome (st := st) x xs
  exact ⟨m, { st with pq := rest }, by simp [pqExtractMin, hq, hm]⟩

theorem pqExtractMin_nil (h : st.pq = []) : st.pqExtractMin = none := by simp [pqExtractMin, h, takeMin]

/-- Discarded stores keep to the capacities of PQ, CODE and STACK (R114 to R116). -/
theorem withinCapacity_bounds (st : Stores) :
    st.withinCapacity.pq.length ≤ 257 ∧ st.withinCapacity.stack.length ≤ 513 ∧
      ∀ x : CodeSymbol, st.withinCapacity.code[x].length ≤ 256 := by
  refine ⟨?_, ?_, fun x => ?_⟩
  · simp [Config.queueCap]
  · simp [Config.nodeCap]
  · simp [Config.maxCodeLen]

end Sys2Proof.Machine.Stores
end

