-- ==== Sys2Proof/Laws/Exec.lean ====
section
/-! SUPPORT. One equation for each position an operation can stand at: what `exec` answers there, in terms of the
operation's own actions. The proofs about instructions cite these and never unfold a meaning. -/

namespace Sys2Proof.Machine

variable {s : State}

/-! ### Commands (R540) -/

theorem exec_busy_nop (h : s.busy = true) : exec .nop s = .next s := by simp [exec, execNop, issue, h]
theorem exec_busy_compress (h : s.busy = true) : exec .compress s = .next s := by
  simp [exec, execCompress, issueOnChannels, issue, h]
theorem exec_busy_decompress (h : s.busy = true) : exec .decompress s = .next s := by
  simp [exec, execDecompress, issueOnChannels, issue, h]
theorem exec_busy_illegalCommand (w : Word) (h : s.busy = true) : exec (.illegalCommand w) s = .next s := by
  simp [exec, execIllegalCommand, issue, h]

/-- A command word written while BUSY is ignored (R540). -/
theorem exec_busy_command (w : Word) (h : s.busy = true) : exec (decodeCommand w) s = .next s := by
  unfold decodeCommand
  split_ifs
  · exact exec_busy_nop h
  · exact exec_busy_compress h
  · exact exec_busy_decompress h
  · exact exec_busy_illegalCommand w h

theorem exec_nop (h : s.busy = false) : exec .nop s = .next s.acknowledge := by simp [exec, execNop, issue, h]
theorem exec_compress (h : s.busy = false) (hs : s.shared = false) :
    exec .compress s = .next ((s.startCommand 1#2).goto (.count .start)) := by
  simp [exec, execCompress, issueOnChannels, issue, h, hs, Seq.begin]
theorem exec_decompress (h : s.busy = false) (hs : s.shared = false) :
    exec .decompress s = .next ((s.startCommand 2#2).goto (.hdrRead .start)) := by
  simp [exec, execDecompress, issueOnChannels, issue, h, hs, Seq.begin]
theorem exec_illegalCommand (w : Word) (h : s.busy = false) :
    exec (.illegalCommand w) s =
      .next (((s.startCommand (w.extractLsb' 0 2)).setError .illegalCommand 0#8 w).goto .error) := by
  simp [exec, execIllegalCommand, issue, h]

/-! ### FC_COUNT (R400) -/

theorem exec_fcCount_start (h : s.seq = .count .start) : exec .fcCount s = .next (fcClear s) := by
  simp [exec, execFcCount, h]
theorem exec_fcCount_byte {b : Byte} {rest : Bits} (h : s.seq = .count .loop) (ha : s.input.answers = true)
    (hu : s.unread = bitsOf 8 b.toNat ++ rest) : exec .fcCount s = .next (fcByte b.toNat (s.takeBits 8 b.toNat)) := by
  simp only [exec, execFcCount, h, withRead, onInput_answers ha, State.readBits_bitsOf hu b.isLt (by decide)]
theorem exec_fcCount_eos (h : s.seq = .count .loop) (ha : s.input.answers = true)
    (he : s.input.after = .eos) (hu : s.unread.length < 8) :
    exec .fcCount s = .next (fcEnd (s.takeEos 8)) := by
  simp only [exec, execFcCount, h, withRead, onInput_answers ha, State.readBits_eos he hu]

/-! ### TB_BUILD (R420) and CG_GEN (R440) -/

theorem exec_tbBuild (h : s.seq = .build) {st : Stores} (hf : s.stores.tbForest = some st) :
    exec .tbBuild s = .next ((tbRoot { s with stores := st }).goto (.codegen)) := by
  simp [exec, execTbBuild, h, hf, Seq.begin]
theorem exec_cgGen (h : s.seq = .codegen) {code : Vector Bits 257} (hc : cgTable s.stores = some code) :
    exec .cgGen s =
      .next ({ s with stores := { s.stores with code := code, stack := [] } }.goto (.hdrWrite .start)) := by
  simp [exec, execCgGen, h, hc, Seq.begin]

/-! ### HS_WRITE and its fields (R460) -/

theorem exec_hsWrite_start (h : s.seq = .hdrWrite .start) : exec .hsWrite s = .next (hsBegin s) := by
  simp [exec, execHsWrite, h]
theorem exec_hsWrite_magic (h : s.seq = .hdrWrite .magic) : exec .hsWrite s = exec .magic s := by
  simp [exec, execHsWrite, execMagic, h]
theorem exec_magic_write (h : s.seq = .hdrWrite .magic) (ha : s.output.answers = true)
    (hc : s.output.closed = false) :
    exec .magic s = .next ((s.writeBits (bitsOf 32 s.id.toNat)).goto (.hdrWrite .token)) := by
  simp only [exec, execMagic, h, hsMagic, withWrite, onOutput_open ha hc, encode]
theorem exec_hdrInternal_write (h : s.seq = .hdrWrite .token) (ha : s.output.answers = true)
    (hc : s.output.closed = false) : exec .hdrInternal s = .next (hsAdvance (s.writeBits [false])) := by
  simp only [exec, execHdrInternal, h, hsToken, withWrite, onOutput_open ha hc, encode]
theorem exec_hdrLeaf_write (v : BitVec 9) (h : s.seq = .hdrWrite .token) (ha : s.output.answers = true)
    (hc : s.output.closed = false) :
    exec (.hdrLeaf v) s = .next (hsAdvance (s.writeBits (true :: bitsOf 9 v.toNat))) := by
  simp only [exec, execHdrLeaf, h, hsToken, withWrite, onOutput_open ha hc, encode]
/-- The token HS_WRITE sends is the one of the node on top of STACK. -/
theorem exec_hsWrite_token {f : Frame} {fs : List Frame} (h : s.seq = .hdrWrite .token) (hs : s.stores.stack = f :: fs) :
    exec .hsWrite s = exec (tokenOf s.stores.node[f.node]) s := by
  simp only [exec, execHsWrite, h, hs]
  cases s.stores.node[f.node] <;> simp [tokenOf, execHdrLeaf, execHdrInternal, h]

/-! ### BE_ENCODE and BODY_CODE (R480) -/

theorem exec_beEncode_start (h : s.seq = .bodyEnc .start) (ha : s.input.answers = true) :
    exec .beEncode s = .next (s.resetIn.goto (.bodyEnc .read)) := by
  simp only [exec, execBeEncode, h, onInput_answers ha]
theorem exec_beEncode_byte {b : Byte} {rest : Bits} (h : s.seq = .bodyEnc .read) (ha : s.input.answers = true)
    (hu : s.unread = bitsOf 8 b.toNat ++ rest) : exec .beEncode s = .next (beByte b.toNat (s.takeBits 8 b.toNat)) := by
  simp only [exec, execBeEncode, h, withRead, onInput_answers ha, State.readBits_bitsOf hu b.isLt (by decide)]
theorem exec_beEncode_eos (h : s.seq = .bodyEnc .read) (ha : s.input.answers = true)
    (he : s.input.after = .eos) (hu : s.unread.length < 8) :
    exec .beEncode s = .next ((s.takeEos 8).goto (.bodyEnc (.emit eofSym))) := by
  simp only [exec, execBeEncode, h, withRead, onInput_answers ha, State.readBits_eos he hu]
theorem exec_beEncode_emit {x : CodeSymbol} (h : s.seq = .bodyEnc (.emit x)) :
    exec .beEncode s = exec (.bodyCode s.stores.code[x]) s := by
  simp only [exec, execBeEncode, execBodyCode, h]
theorem exec_bodyCode_write {x : CodeSymbol} (path : Bits) (h : s.seq = .bodyEnc (.emit x))
    (ha : s.output.answers = true) (hc : s.output.closed = false) :
    exec (.bodyCode path) s = .next (beEmitted x (s.writeBits path)) := by
  simp only [exec, execBodyCode, h, beEmit, withWrite, onOutput_open ha hc]

/-! ### HD_READ and its fields (R500) -/

theorem exec_hdRead_start (h : s.seq = .hdrRead .start) : exec .hdRead s = .next (hdBegin s) := by
  simp [exec, execHdRead, h]
theorem exec_hdRead_magic {w : Word} {rest : Bits} (h : s.seq = .hdrRead .magic) (ha : s.input.answers = true)
    (hu : s.unread = bitsOf 32 w.toNat ++ rest) :
    exec .hdRead s = .next (hdMagic (some w.toNat) (s.takeBits 32 w.toNat)) := by
  simp only [exec, execHdRead, h, withRead, onInput_answers ha, State.readBits_bitsOf hu w.isLt (by decide)]
theorem exec_hdRead_magicEos (h : s.seq = .hdrRead .magic) (ha : s.input.answers = true)
    (he : s.input.after = .eos) (hu : s.unread.length < 32) :
    exec .hdRead s = .next (hdMagic none (s.takeEos 32)) := by
  simp only [exec, execHdRead, h, withRead, onInput_answers ha, State.readBits_eos he hu]
theorem exec_magic_read (h : s.seq = .hdrRead .magic) (ha : s.input.answers = true) :
    exec .magic s = .next (hdMagic (some s.id.toNat) (s.takeBits 32 s.id.toNat)) := by
  simp only [exec, execMagic, h, onInput_answers ha]
theorem exec_hdRead_control {b : Bool} {rest : Bits} (h : s.seq = .hdrRead .control) (ha : s.input.answers = true)
    (hu : s.unread = b :: rest) : exec .hdRead s = .next (hdControl b (s.takeBits 1 b.toNat)) := by
  simp only [exec, execHdRead, h, withRead, onInput_answers ha, State.readBits_one hu]
  cases b <;> rfl
theorem exec_hdRead_controlEos (h : s.seq = .hdrRead .control) (ha : s.input.answers = true)
    (he : s.input.after = .eos) (hu : s.unread.length < 1) :
    exec .hdRead s = .next ((s.takeEos 1).raise .malformedHeader 1#8 (nodesSoFar (s.takeEos 1))) := by
  simp only [exec, execHdRead, h, withRead, onInput_answers ha, State.readBits_eos he hu]
theorem exec_hdRead_value {i : NodeIdx} {v : Nat} {rest : Bits} (h : s.seq = .hdrRead (.value i))
    (ha : s.input.answers = true) (hv : v < 2 ^ 9) (hu : s.unread = bitsOf 9 v ++ rest) :
    exec .hdRead s = .next (hdValue i v (s.takeBits 9 v)) := by
  simp only [exec, execHdRead, h, withRead, onInput_answers ha, State.readBits_bitsOf hu hv (by decide)]
theorem exec_hdRead_valueEos {i : NodeIdx} (h : s.seq = .hdrRead (.value i)) (ha : s.input.answers = true)
    (he : s.input.after = .eos) (hu : s.unread.length < 9) :
    exec .hdRead s = .next ((s.takeEos 9).raise .malformedHeader 2#8 (nodesSoFar (s.takeEos 9))) := by
  simp only [exec, execHdRead, h, withRead, onInput_answers ha, State.readBits_eos he hu]
theorem exec_hdrInternal_read (h : s.seq = .hdrRead .control) (ha : s.input.answers = true) :
    exec .hdrInternal s = .next (hdControl false (s.takeBits 1 0)) := by
  simp only [exec, execHdrInternal, h, onInput_answers ha]
theorem exec_hdrLeaf_control (v : BitVec 9) (h : s.seq = .hdrRead .control) (ha : s.input.answers = true) :
    exec (.hdrLeaf v) s = .next (hdControl true (s.takeBits 1 1)) := by
  simp only [exec, execHdrLeaf, h, onInput_answers ha]
theorem exec_hdrLeaf_value {i : NodeIdx} (v : BitVec 9) (h : s.seq = .hdrRead (.value i))
    (ha : s.input.answers = true) : exec (.hdrLeaf v) s = .next (hdValue i v.toNat (s.takeBits 9 v.toNat)) := by
  simp only [exec, execHdrLeaf, h, onInput_answers ha]

/-! ### SR_DECODE and BODY_CODE (R520) -/

theorem exec_srDecode_start (h : s.seq = .decode .start) : exec .srDecode s = .next (srBegin s) := by
  simp [exec, execSrDecode, h]
theorem exec_srDecode_bit {b : Bool} {rest : Bits} (h : s.seq = .decode .bit) (ha : s.input.answers = true)
    (hu : s.unread = b :: rest) : exec .srDecode s = .next (srMove b (s.takeBits 1 b.toNat)) := by
  simp only [exec, execSrDecode, h, withRead, onInput_answers ha, State.readBits_one hu]
  cases b <;> rfl
theorem exec_srDecode_eos (h : s.seq = .decode .bit) (ha : s.input.answers = true)
    (he : s.input.after = .eos) (hu : s.unread.length < 1) :
    exec .srDecode s = .next ((s.takeEos 1).raise .truncatedStream 0#8 s.stores.litOut) := by
  simp only [exec, execSrDecode, h, withRead, onInput_answers ha, State.readBits_eos he hu, State.takeEos_stores]
theorem srLiteral_open (x : CodeSymbol) (ha : s.output.answers = true) (hc : s.output.closed = false) :
    srLiteral x s = .next (srWritten (s.writeBits (bitsOf 8 x.val))) := by
  simp only [srLiteral, withWrite, onOutput_open ha hc]
theorem exec_srDecode_literal {x : CodeSymbol} (h : s.seq = .decode (.literal x)) :
    exec .srDecode s = srLiteral x s := by
  simp only [exec, execSrDecode, h]
theorem exec_bodyCode_read (path : Bits) (h : s.seq = .decode .bit) (ha : s.input.answers = true) :
    exec (.bodyCode path) s = srWalk path s := by
  simp only [exec, execBodyCode, h, onInput_answers ha]

/-! ### CLOSING (R552) -/

theorem exec_closing (h : s.seq = .closing) (ha : s.output.answers = true) (hc : s.output.closed = false) :
    exec .closing s = .next (finish s.closeOut) := by
  simp only [exec, execClosing, h, onOutput_open ha hc]

/-! ### Frames of the actions: the registers and the channels -/

/-- The actions of an engine that make no transaction leave IN, OUT, `rst`, the agenda, the history and ID alone. -/
structure SameChannels (s t : State) : Prop where
  input : t.input = s.input
  output : t.output = s.output
  shared : t.shared = s.shared
  events : t.events = s.events
  agenda : t.agenda = s.agenda
  loaded : t.loaded = s.loaded
  rst : t.rst = s.rst
  shown : t.shown = s.shown
  id : t.id = s.id
  op : t.op = s.op

theorem fcClear_same (s : State) : SameChannels s (fcClear s) := by constructor <;> rfl
theorem fcEnd_same (s : State) : SameChannels s (fcEnd s) := by constructor <;> rfl
theorem fcByte_same (v : Nat) (s : State) : SameChannels s (fcByte v s) := by
  unfold fcByte; split <;> constructor <;> rfl
theorem tbRoot_same (s : State) : SameChannels s (tbRoot s) := by
  unfold tbRoot; split <;> constructor <;> rfl
theorem hsBegin_same (s : State) : SameChannels s (hsBegin s) := by constructor <;> rfl
theorem hsAdvance_same (s : State) : SameChannels s (hsAdvance s) := by
  unfold hsAdvance; split <;> constructor <;> rfl
theorem beByte_same (v : Nat) (s : State) : SameChannels s (beByte v s) := by
  unfold beByte; split <;> constructor <;> rfl
theorem beEmitted_same (x : CodeSymbol) (s : State) : SameChannels s (beEmitted x s) := by
  unfold beEmitted; split <;> constructor <;> rfl
theorem hdBegin_same (s : State) : SameChannels s (hdBegin s) := by constructor <;> rfl
theorem hdMagic_same (m : Option Nat) (s : State) : SameChannels s (hdMagic m s) := by
  unfold hdMagic
  split
  · constructor <;> rfl
  · split <;> constructor <;> rfl
theorem hdComplete_same (i : NodeIdx) (s : State) : SameChannels s (hdComplete i s) := by constructor <;> rfl
theorem hdControl_same (b : Bool) (s : State) : SameChannels s (hdControl b s) := by
  unfold hdControl
  split
  · constructor <;> rfl
  · split <;> constructor <;> rfl
theorem hdValue_same (i : NodeIdx) (v : Nat) (s : State) : SameChannels s (hdValue i v s) := by
  unfold hdValue; split <;> constructor <;> rfl
theorem srBegin_same (s : State) : SameChannels s (srBegin s) := by constructor <;> rfl
theorem srMove_same (b : Bool) (s : State) : SameChannels s (srMove b s) := by
  unfold srMove
  simp only
  split
  · constructor <;> rfl
  · split <;> constructor <;> rfl
theorem srWritten_same (s : State) : SameChannels s (srWritten s) := by constructor <;> rfl
theorem finish_same (s : State) : SameChannels s (finish s) := by constructor <;> rfl

end Sys2Proof.Machine
end

