-- ==== Sys2Proof/Laws/Run.lean ====
section
/-! SUPPORT. Steps on the core's own turn, and runs of several steps. -/

namespace Sys2Proof.Machine

variable {s t : State}

/-- With an empty agenda and `rst` deasserted a step is the core's turn. -/
theorem step_core (h : s.agenda = []) (hr : s.rst = false) : step s = coreStep s := by simp [step, h, hr]

/-- The core's turn runs the instruction that is fetched. -/
theorem coreStep_fetch {i : Instr} (hr : s.rst = false) (hf : s.fetch = some i) : coreStep s = exec i s := by
  simp [coreStep, hr, hf]

/-- The same of a step with an empty agenda. -/
theorem step_fetch {i : Instr} (h : s.agenda = []) (hr : s.rst = false) (hf : s.fetch = some i) : step s = exec i s :=
  (step_core h hr).trans (coreStep_fetch hr hf)

/-- With `rst` deasserted a turn of the agenda is taken in the state without it. -/
theorem step_turn {turn : Turn} {rest : List Turn} (h : s.agenda = turn :: rest) (hr : s.rst = false) :
    step s = takeTurn turn { s with agenda := rest } := by simp [step, h, State.forced, hr]

/-- With the core next, by an empty agenda or by its head, a step is the core's turn in the state without that head. -/
theorem step_coreNext {rest : List Turn} (h : s.coreNext rest) : step s = coreStep { s with agenda := rest } := by
  obtain ⟨hr, ⟨ha, rfl⟩ | ha⟩ := h
  · cases s
    cases ha
    exact step_core rfl hr
  · exact step_turn ha hr

/-- With the core next, a step runs the instruction that is fetched. -/
theorem step_coreNext_fetch {rest : List Turn} {i : Instr} (h : s.coreNext rest) (hf : s.fetch = some i) :
    step s = exec i { s with agenda := rest } :=
  (step_coreNext h).trans (coreStep_fetch (s := { s with agenda := rest }) h.1 hf)

/-- While `rst` is asserted the core does nothing (R701). -/
theorem coreStep_reset (hr : s.rst = true) : coreStep s = .next s := by simp [coreStep, hr]

/-- While `rst` is asserted and no turn is next, a step forces the reset state (R701). -/
theorem step_reset (h : s.agenda = []) (hr : s.rst = true) : step s = .next s.resetBlock := by
  simp [step, h, State.forced, hr, coreStep]

/-- While `rst` is asserted a turn is taken in the reset state (R701). -/
theorem step_reset_turn {turn : Turn} {rest : List Turn} (h : s.agenda = turn :: rest) (hr : s.rst = true) :
    step s = takeTurn turn { s with agenda := rest }.resetBlock := by simp [step, h, State.forced, hr]

/-! ### Loads of STATUS (R101, R718) -/

/-- STATUS while BUSY (R103). -/
theorem statusWordAs_busy (p : Phase) (h : s.busy = true) :
    s.statusWordAs p = 0#22 ++ s.op ++ p.code ++ 0b0001#4 := by
  have hf : s.doneFlag = false ∧ s.errorFlag = false := by
    unfold State.busy at h
    cases hp : s.phase <;> simp_all [State.doneFlag, State.errorFlag, Phase.busy]
  simp only [State.statusWordAs, h, hf]
  generalize s.op = o
  generalize p.code = c
  revert o c
  decide

/-- A load of STATUS while no command runs shows the register. -/
theorem loadReg_status (h : s.busy = false) : s.loadReg 0x04#6 = { s with loaded := s.statusWord } := by
  simp [State.loadReg, State.readReg, State.shownPhase, h, State.statusWord]

/-- A load of STATUS while BUSY shows a phase of its own choice, and the model keeps it. -/
theorem loadReg_status_busy (h : s.busy = true) :
    s.loadReg 0x04#6 = { s with
      loaded := 0#22 ++ s.op ++ s.shownPhase.code ++ 0b0001#4
      shown := some s.shownPhase
      freeCount := s.freeCount + 1 } := by
  simp only [State.loadReg, State.readReg, h, and_self, if_true, statusWordAs_busy]

/-- STATUS shows neither DONE nor ERROR exactly in the phases other than those two (R103). -/
theorem statusWord_and_six : s.statusWord &&& 0x6#32 = 0#32 ↔ s.phase ≠ .done ∧ s.phase ≠ .error := by
  simp only [State.statusWord, State.statusWordAs, State.busy, State.doneFlag, State.errorFlag]
  generalize s.op = o
  revert o
  cases s.phase <;> decide

theorem run_zero (s : State) : Sys2Proof.core.run 0 s = .next s := rfl

/-- A run takes its first step and goes on from the state it leads to. -/
theorem run_eq (n : Nat) (s : State) :
    Sys2Proof.core.run (n + 1) s =
      (match step s with
      | .next t => Sys2Proof.core.run n t
      | .fault r => .fault r
      | .refused r => .refused r) := by
  have h : Sys2Proof.core.step s = step s := rfl
  simp only [Host.Core.run, h]
  cases step s <;> rfl

theorem run_succ (n : Nat) (h : step s = .next t) : Sys2Proof.core.run (n + 1) s = Sys2Proof.core.run n t := by
  simp only [run_eq, h]

theorem run_one (h : step s = .next t) : Sys2Proof.core.run 1 s = .next t := by rw [run_succ 0 h, run_zero]

/-- Runs compose. -/
theorem run_add {m n : Nat} (h : Sys2Proof.core.run m s = .next t) :
    Sys2Proof.core.run (m + n) s = Sys2Proof.core.run n t := by
  induction m generalizing s with
  | zero => cases h; rw [Nat.zero_add]
  | succ m ih =>
    rw [Nat.succ_add]
    simp only [run_eq] at h ⊢
    rcases hs : step s with s' | r | r
    · simp only [hs] at h
      exact ih h
    · simp [hs] at h
    · simp [hs] at h

/-- The operation a phase begins with is fetched at its start (R546, R549). -/
theorem fetch_begin {p : Phase} (h : s.seq = .begin p) : s.fetch = p.operation := by
  cases p <;> simp [State.fetch, h, Seq.begin, Phase.operation]

end Sys2Proof.Machine
end

