-- ==== Sys2Proof/Laws/Trees.lean ====
section
/-! SUPPORT. Code trees: sizes, paths, walks, and what it means that a node store holds one. -/

namespace Sys2Proof.CodeTree

open Sys2Proof.Machine

theorem size_pos (T : CodeTree) : 1 ≤ T.size := by cases T <;> simp [size]

theorem leaves_pos (T : CodeTree) : 1 ≤ T.leaves := by
  induction T with
  | leaf => exact le_rfl
  | node l r ihl _ => simp only [leaves]; omega

/-- A strict binary tree has one node fewer than twice its leaves (R424). -/
theorem size_add_one (T : CodeTree) : T.size + 1 = 2 * T.leaves := by
  induction T with
  | leaf => rfl
  | node l r ihl ihr => simp only [size, leaves]; omega

section Held

variable {nodes : Vector Node 513}

theorem heldAt_leaf {x : CodeSymbol} {n : NodeIdx} :
    (leaf x).heldAt nodes n = true ↔ ∃ w m, nodes[n] = .leaf x w m := by
  simp only [heldAt]
  rcases nodes[n] with ⟨x', w, m⟩ | ⟨w, m, a, b⟩ <;> simp [eq_comm]

theorem heldAt_node {l r : CodeTree} {n : NodeIdx} :
    (node l r).heldAt nodes n = true ↔
      ∃ w m a b, nodes[n] = .internal w m a b ∧ l.heldAt nodes a = true ∧ r.heldAt nodes b = true := by
  simp only [heldAt]
  rcases nodes[n] with ⟨x', w, m⟩ | ⟨w, m, a, b⟩ <;> simp

end Held

/-- A symbol has a path exactly when it stands in a leaf. -/
theorem pathTo_isSome (x : CodeSymbol) (T : CodeTree) : (T.pathTo x).isSome ↔ T.occurrences x ≠ 0 := by
  induction T with
  | leaf t => by_cases h : x = t <;> simp [pathTo, occurrences, h]
  | node l r ihl ihr =>
    simp only [pathTo, occurrences]
    rcases hr : r.pathTo x with _ | p <;> rcases hl : l.pathTo x with _ | q <;> simp_all

/-- Walking down along the path of a symbol ends at that symbol, and leaves what comes after the path (R308). -/
theorem walk_pathTo {x : CodeSymbol} {T : CodeTree} {p : Bits} (h : T.pathTo x = some p) (rest : Bits) :
    T.walk (p ++ rest) = .ok (p, x, rest) := by
  induction T generalizing p with
  | leaf t =>
    simp only [pathTo] at h
    split at h <;> cases h
    subst_vars
    rfl
  | node l r ihl ihr =>
    simp only [pathTo] at h
    split at h
    · rename_i q hq
      cases h
      simp only [List.cons_append, walk, ihr hq]
    · split at h
      · rename_i q hq
        cases h
        simp only [List.cons_append, walk, ihl hq]
      · cases h

/-- What a walk answers: the bits it has taken and the bits left are the bits given. -/
theorem walk_append {T : CodeTree} {bits p rest : Bits} {x : CodeSymbol} (h : T.walk bits = .ok (p, x, rest)) :
    p ++ rest = bits ∧ ∀ rest', T.walk (p ++ rest') = .ok (p, x, rest') := by
  induction T generalizing bits p with
  | leaf t => cases h; exact ⟨rfl, fun _ => rfl⟩
  | node l r ihl ihr =>
    rcases bits with _ | ⟨b, bits⟩
    · cases h
    · cases b
      · simp only [walk] at h
        split at h <;> cases h
        rename_i hw
        exact ⟨congrArg _ (ihl hw).1, fun rest' => by simp only [List.cons_append, walk, (ihl hw).2]⟩
      · simp only [walk] at h
        split at h <;> cases h
        rename_i hw
        exact ⟨congrArg _ (ihr hw).1, fun rest' => by simp only [List.cons_append, walk, (ihr hw).2]⟩

/-- A path is at most as long as the tree has leaves besides the one it leads to (R442). -/
theorem length_pathTo {x : CodeSymbol} {T : CodeTree} {p : Bits} (h : T.pathTo x = some p) :
    p.length + 1 ≤ T.leaves := by
  induction T generalizing p with
  | leaf t =>
    simp only [pathTo] at h
    split at h <;> cases h
    simp [leaves]
  | node l r ihl ihr =>
    have := l.leaves_pos
    have := r.leaves_pos
    simp only [pathTo] at h
    split at h
    · rename_i q hq
      cases h
      have := ihr hq
      simp only [List.length_cons, leaves]
      omega
    · split at h
      · rename_i q hq
        cases h
        have := ihl hq
        simp only [List.length_cons, leaves]
        omega
      · cases h

/-- The paths of two symbols: neither goes on from the other, since both end at leaves (R442). -/
theorem pathTo_prefix {x y : CodeSymbol} {T : CodeTree} {p q : Bits} (hp : T.pathTo x = some p) (hq : T.pathTo y = some q)
    (h : p <+: q) : x = y := by
  obtain ⟨rest, rfl⟩ := h
  have h1 := walk_pathTo hp rest
  have h2 := walk_pathTo hq []
  rw [List.append_nil, h1] at h2
  exact congrArg (fun o => o.2.1) (Except.ok.inj h2)

/-- The walk of CG_GEN over a tree writes each symbol's path behind the path so far (R440). -/
def fill : CodeTree → Bits → Vector Bits 257 → Vector Bits 257
  | .leaf x, p, code => code.set x.val p
  | .node l r, p, code => r.fill (p ++ [true]) (l.fill (p ++ [false]) code)

theorem fill_get (x : CodeSymbol) (T : CodeTree) (p : Bits) (code : Vector Bits 257) :
    (T.fill p code)[x] = match T.pathTo x with | some q => p ++ q | none => code[x] := by
  induction T generalizing p code with
  | leaf t =>
    simp only [fill, pathTo]
    by_cases h : x = t
    · subst h; simp
    · have : t.val ≠ x.val := fun e => h (Fin.ext e.symm)
      simp [h, this]
  | node l r ihl ihr =>
    simp only [fill, pathTo, ihr, ihl]
    rcases r.pathTo x with _ | q <;> rcases l.pathTo x with _ | q' <;> simp

/-- CG_GEN's walk over a stack whose top holds `T` (R440, R441): `T.size` visits fill in the paths of `T`. -/
theorem cgWalk_held {nodes : Vector Node 513} {T : CodeTree} {f : Frame} (h : T.heldAt nodes f.node = true) (n : Nat)
    (fs : List Frame) (code : Vector Bits 257) :
    cgWalk nodes (n + T.size) (f :: fs) code = cgWalk nodes n fs (T.fill f.path code) := by
  induction T generalizing f n fs code with
  | leaf x =>
    obtain ⟨w, m, hx⟩ := heldAt_leaf.mp h
    simp only [size, cgWalk, hx, fill]
  | node l r ihl ihr =>
    obtain ⟨w, m, a, b, hx, hl, hr⟩ := heldAt_node.mp h
    rw [size, ← Nat.add_assoc, Nat.add_comm l.size, ← Nat.add_assoc]
    simp only [cgWalk, hx, fill]
    rw [ihl (f := ⟨a, none, _⟩) hl (n + r.size), ihr (f := ⟨b, none, _⟩) hr n]

/-- A walk that ends has visited trees of as many nodes (R441): the entry on top of its stack holds one. -/
theorem held_of_cgWalk {nodes : Vector Node 513} {n : Nat} {fs : List Frame} {code c : Vector Bits 257}
    (h : cgWalk nodes n fs code = some c) :
    ∃ Ts : List CodeTree, List.Forall₂ (fun T f => T.heldAt nodes f.node = true) Ts fs ∧ (Ts.map size).sum ≤ n := by
  induction n generalizing fs code with
  | zero =>
    rcases fs with _ | ⟨f, fs⟩
    · exact ⟨[], .nil, le_rfl⟩
    · simp [cgWalk] at h
  | succ n ih =>
    rcases fs with _ | ⟨f, fs⟩
    · exact ⟨[], .nil, Nat.zero_le _⟩
    · simp only [cgWalk] at h
      split at h
      · rename_i x w m hx
        obtain ⟨Ts, hT, hs⟩ := ih h
        refine ⟨.leaf x :: Ts, .cons (heldAt_leaf.mpr ⟨w, m, hx⟩) hT, ?_⟩
        simp only [List.map_cons, List.sum_cons, size]
        omega
      · rename_i w m a b hx
        obtain ⟨Ts, hT, hs⟩ := ih h
        cases hT with
        | @cons l _ _ _ hl hT =>
          cases hT with
          | @cons r _ Us _ hr hT =>
            refine ⟨.node l r :: Us, .cons (heldAt_node.mpr ⟨w, m, a, b, hx, hl, hr⟩) hT, ?_⟩
            simp only [List.map_cons, List.sum_cons, size] at hs ⊢
            omega

/-- A tree stays held while the entries of a set that holds it, closed under children, stay as they are. -/
theorem heldAt_congr {nodes nodes' : Vector Node 513} {P : NodeIdx → Prop} {T : CodeTree} {n : NodeIdx}
    (hsub : ∀ (i : NodeIdx) (w : Word) (m : CodeSymbol) (a b : NodeIdx), P i → nodes[i] = .internal w m a b → P a ∧ P b)
    (he : ∀ i : NodeIdx, P i → nodes'[i] = nodes[i]) (hn : P n) (h : T.heldAt nodes n = true) :
    T.heldAt nodes' n = true := by
  induction T generalizing n with
  | leaf x =>
    obtain ⟨w, m, hx⟩ := heldAt_leaf.mp h
    exact heldAt_leaf.mpr ⟨w, m, by rw [he n hn, hx]⟩
  | node l r ihl ihr =>
    obtain ⟨w, m, a, b, hx, hl, hr⟩ := heldAt_node.mp h
    obtain ⟨ha, hb⟩ := hsub n w m a b hn hx
    exact heldAt_node.mpr ⟨w, m, a, b, by rw [he n hn, hx], ihl ha hl, ihr hb hr⟩

end Sys2Proof.CodeTree
end

