-- ==== Sys2Proof/Laws/Engines.lean ====
section
/-! SUPPORT. Runs of the header serializer and the header deserializer over one subtree, wherever it stands in the whole:
the inductions that claims about whole headers are put together from. -/

namespace Sys2Proof.Machine

variable {s : State}

/-! ### HS_WRITE (R460, R461) -/

/-- One token: the step of HS_WRITE for the node on top of STACK. -/
theorem step_token {f : Frame} {fs : List Frame} (hq : s.seq = .hdrWrite .token) (hag : s.agenda = [])
    (hrst : s.rst = false) (ha : s.output.answers = true) (hc : s.output.closed = false) (hs : s.stores.stack = f :: fs) :
    step s = .next (hsAdvance (s.writeBits (encode s.id (tokenOf s.stores.node[f.node])))) := by
  have hf : s.fetch = some (tokenOf s.stores.node[f.node]) := by simp [State.fetch, hq, hs]
  rw [step_fetch hag hrst hf]
  rcases s.stores.node[f.node] with ⟨x, w, m⟩ | ⟨w, m, a, b⟩
  · exact exec_hdrLeaf_write _ hq ha hc
  · exact exec_hdrInternal_write hq ha hc

/-- The walk of HS_WRITE over the subtree on top of STACK: one step for each node, its serialization appended, and then
the rest of STACK (R461). -/
theorem run_tokens {T : CodeTree} {f : Frame} {fs : List Frame} (hq : s.seq = .hdrWrite .token) (hag : s.agenda = [])
    (hrst : s.rst = false) (ha : s.output.answers = true) (hc : s.output.closed = false) (hs : s.stores.stack = f :: fs)
    (h : T.heldAt s.stores.node f.node = true) :
    ∃ es : List Event,
      Sys2Proof.core.run T.size s = .next { s with
        seq := if fs.isEmpty then .bodyEnc .start else .hdrWrite .token
        output := { s.output with bits := s.output.bits ++ T.serialize }
        stores := { s.stores with stack := fs }
        events := s.events ++ es } := by
  induction T generalizing s f fs with
  | leaf x =>
    obtain ⟨w, m, hx⟩ := CodeTree.heldAt_leaf.mp h
    refine ⟨[.wr (true :: bitsOf 9 x.val)], run_one ?_⟩
    rw [step_token hq hag hrst ha hc hs, hx]
    have hv : x.val % 512 = x.val := Nat.mod_eq_of_lt (by omega)
    simp [hsAdvance, hs, Stores.children, hx, tokenOf, encode, CodeTree.serialize, State.goto, State.writeBits,
      State.record, hv, Seq.begin]
  | node l r ihl ihr =>
    obtain ⟨w, m, a, b, hx, hl, hr⟩ := CodeTree.heldAt_node.mp h
    have h1 : step s = .next { s with
        seq := .hdrWrite .token
        output := { s.output with bits := s.output.bits ++ [false] }
        stores := { s.stores with stack := ⟨a, none, []⟩ :: ⟨b, none, []⟩ :: fs }
        events := s.events ++ [.wr [false]] } := by
      rw [step_token hq hag hrst ha hc hs, hx]
      simp [hsAdvance, hs, Stores.children, hx, tokenOf, encode, State.goto, State.writeBits, State.record, hq]
    obtain ⟨e1, h2⟩ := ihl (s := { s with
        seq := .hdrWrite .token
        output := { s.output with bits := s.output.bits ++ [false] }
        stores := { s.stores with stack := ⟨a, none, []⟩ :: ⟨b, none, []⟩ :: fs }
        events := s.events ++ [.wr [false]] }) rfl hag hrst ha hc rfl hl
    obtain ⟨e2, h3⟩ := ihr (s := { s with
        seq := .hdrWrite .token
        output := { s.output with bits := s.output.bits ++ [false] ++ l.serialize }
        stores := { s.stores with stack := ⟨b, none, []⟩ :: fs }
        events := s.events ++ [.wr [false]] ++ e1 }) rfl hag hrst ha hc rfl hr
    refine ⟨.wr [false] :: (e1 ++ e2), ?_⟩
    have hsize : (CodeTree.node l r).size = (l.size + r.size) + 1 := rfl
    rw [hsize, run_succ _ h1, run_add h2]
    refine h3.trans ?_
    simp only [CodeTree.serialize, List.append_assoc, List.cons_append, List.nil_append]

/-! ### HD_READ (R500, R501) -/

/-- A control bit at the cursor: the step of HD_READ, whether it decodes the whole token or not. -/
theorem step_control {c : Bool} {rest : Bits} (hq : s.seq = .hdrRead .control) (hag : s.agenda = [])
    (hrst : s.rst = false) (ha : s.input.answers = true) (hu : s.unread = c :: rest) :
    step s = .next (hdControl c (s.takeBits 1 c.toNat)) := by
  have hf : s.fetch = some (decodedOr .hdRead (decodeToken s.unread)) := by simp [State.fetch, hq]
  rw [step_fetch hag hrst hf]
  rcases c
  · have hd : decodeToken s.unread = .ok (.hdrInternal, rest) := by rw [hu]; rfl
    simp only [hd, decodedOr]
    exact exec_hdrInternal_read hq ha
  · rcases hd : decodeToken s.unread with e | ⟨i, r⟩
    · exact exec_hdRead_control hq ha hu
    · rw [hu, decodeToken] at hd
      split at hd <;> cases hd
      exact exec_hdrLeaf_control _ hq ha

/-- A value field at the cursor: the step of HD_READ. -/
theorem step_value {i : NodeIdx} {v : Nat} {rest : Bits} (hq : s.seq = .hdrRead (.value i)) (hag : s.agenda = [])
    (hrst : s.rst = false) (ha : s.input.answers = true) (hv : v < 2 ^ 9) (hu : s.unread = bitsOf 9 v ++ rest) :
    step s = .next (hdValue i v (s.takeBits 9 v)) := by
  have hf : s.fetch = some (decodedOr .hdRead (decodeToken (true :: s.unread))) := by simp [State.fetch, hq]
  have hd : decodeToken (true :: s.unread) = .ok (.hdrLeaf (BitVec.ofNat 9 v), rest) := by
    have hl : ¬(bitsOf 9 v ++ rest).length < 9 := by simp
    simp only [decodeToken, takeField, hu, hl, if_false, List.take_left' (length_bitsOf 9 v),
      List.drop_left' (length_bitsOf 9 v), valOf_bitsOf_of_lt hv]
  rw [step_fetch hag hrst hf]
  simp only [hd, decodedOr]
  rw [exec_hdrLeaf_value _ hq ha, BitVec.toNat_ofNat, Nat.mod_eq_of_lt hv]

/-- The return to the calls waiting on STACK reads and writes nothing but NODE, ROOT and STACK. -/
theorem hdReturn_frame (ms : NodeIdx → CodeSymbol) (fs : List Frame) (i : NodeIdx) (st : Stores) :
    (hdReturn ms fs i st).1 = { st with
      node := (hdReturn ms fs i st).1.node
      root := (hdReturn ms fs i st).1.root
      stack := (hdReturn ms fs i st).1.stack } := by
  induction fs generalizing i st with
  | nil => rfl
  | cons f fs ih =>
    simp only [hdReturn]
    split
    · rfl
    · rw [ih]; rfl

/-- What returning to the waiting calls leaves does not depend on the stack entry of the stores it starts from. -/
theorem hdReturn_stack (ms : NodeIdx → CodeSymbol) (fs k : List Frame) (i : NodeIdx) (st : Stores) :
    hdReturn ms fs i { st with stack := k } = hdReturn ms fs i st := by
  induction fs generalizing i st with
  | nil => rfl
  | cons f fs ih =>
    simp only [hdReturn]
    split
    · rfl
    · exact ih _ (st.setNode _ _)

/-- The return with the subtree at `i` over the calls that have their left subtree, down to one that has not: each builds
its node, its right child the entry completed before it, and nothing else is written (R500, R501, R507). -/
theorem hdReturn_waiting (ms : NodeIdx → CodeSymbol) (waiting below : List Frame)
    (hb : ∀ f ∈ below.head?, f.left = none) (i : NodeIdx) (st : Stores) (hl : ∀ f ∈ waiting, f.left ≠ none)
    (hn : (i :: waiting.map Frame.node).Nodup) :
    ∃ node : Vector Node 513,
      hdReturn ms (waiting ++ below) i st = ({ st with
        node := node
        root := if below = [] then (i :: waiting.map Frame.node).getLast (by simp) else st.root
        stack := match below with
          | [] => []
          | f :: fs => ⟨f.node, some ((i :: waiting.map Frame.node).getLast (by simp)), f.path⟩ :: fs },
        decide (below = [])) ∧
      (∀ (before after : List Frame) (f : Frame), waiting = before ++ f :: after → ∃ (l : NodeIdx) (m : CodeSymbol),
        f.left = some l ∧ node[f.node] = .internal 0#32 m l ((i :: before.map Frame.node).getLast (by simp))) ∧
      ∀ j : NodeIdx, j ∉ waiting.map Frame.node → node[j] = st.node[j] := by
  induction waiting generalizing i st with
  | nil =>
    refine ⟨st.node, ?_, by simp, by simp⟩
    cases below with
    | nil => simp [hdReturn]
    | cons f fs => simp [hdReturn, hb f (by simp)]
  | cons w ws ih =>
    obtain ⟨l, hwl⟩ := Option.ne_none_iff_exists'.mp (hl w (by simp))
    have hn' := (List.nodup_cons.mp hn).2
    have hw := (List.nodup_cons.mp hn').1
    obtain ⟨node, h1, h2, h3⟩ := ih w.node (st.setNode w.node (.internal 0#32 (ms w.node) l i))
      (fun f hf => hl f (by simp [hf])) hn'
    refine ⟨node, ?_, fun before after f hf => ?_, fun j hj => ?_⟩
    · simp only [List.cons_append, hdReturn, hwl, h1, List.map_cons, List.getLast_cons_cons]
      rfl
    · cases before with
      | nil =>
        obtain ⟨rfl, rfl⟩ := List.cons.inj hf
        exact ⟨l, ms w.node, hwl, (h3 w.node hw).trans (Stores.node_setNode_self _ _ _)⟩
      | cons b bs =>
        injection hf with hb' hs'
        subst hb'
        exact h2 bs after f hs'
    · simp only [List.map_cons, List.mem_cons, not_or] at hj
      exact (h3 j hj.2).trans (Stores.node_setNode_of_ne _ _ (Ne.symm hj.1))

/-- The state in which HD_READ returns to the calls waiting on STACK with the subtree at entry `i`. -/
def returnState (ms : NodeIdx → CodeSymbol) (i : NodeIdx) (st : Stores) (len : Nat) (es : List Event) (n : Nat)
    (s : State) : State :=
  { s with
    seq := if (hdReturn ms st.stack i st).2 then .decode .start else .hdrRead .control
    stores := (hdReturn ms st.stack i st).1
    input := { s.input with ip := s.input.ip + len }
    events := s.events ++ es
    freeCount := n }

/-- The children of the entries from `lo` up to `hi` are among these entries. -/
def ClosedUnder (nodes : Vector Node 513) (lo hi : Nat) : Prop :=
  ∀ (j : NodeIdx) (w : Word) (m : CodeSymbol) (a b : NodeIdx), (lo ≤ j.val ∧ j.val < hi) →
    nodes[j] = .internal w m a b → (lo ≤ a.val ∧ a.val < hi) ∧ lo ≤ b.val ∧ b.val < hi

/-- HD_READ over one whole subtree in the middle of a header (R501): its bits are read, its nodes are the next entries,
no earlier entry changes, and then the calls waiting on STACK are returned to. -/
theorem run_subtree {T : CodeTree} {rest : Bits} (hq : s.seq = .hdrRead .control) (hag : s.agenda = [])
    (hrst : s.rst = false) (ha : s.input.answers = true) (hu : s.unread = T.serialize ++ rest)
    (hn : s.stores.nodeCount.val + T.size ≤ 513) :
    ∃ (i : NodeIdx) (count : Fin 514) (nodes : Vector Node 513) (ms : NodeIdx → CodeSymbol) (es : List Event) (n : Nat),
      i.val = s.stores.nodeCount.val ∧ count.val = s.stores.nodeCount.val + T.size ∧
      T.heldAt nodes i = true ∧ (∀ j : NodeIdx, j.val < s.stores.nodeCount.val → nodes[j] = s.stores.node[j]) ∧
      ClosedUnder nodes i.val count.val ∧
      Sys2Proof.core.run (T.size + T.leaves) s =
        .next (returnState ms i { s.stores with nodeCount := count, node := nodes } T.serialize.length es n s) := by
  induction T generalizing s rest with
  | leaf x =>
    have hlt : s.stores.nodeCount.val < 513 := by simp only [CodeTree.size] at hn; omega
    let i : NodeIdx := ⟨s.stores.nodeCount.val, hlt⟩
    let count : Fin 514 := ⟨s.stores.nodeCount.val + 1, by omega⟩
    let s1 : State := { s with
      seq := .hdrRead (.value i)
      input := { s.input with ip := s.input.ip + 1 }
      stores := { s.stores with nodeCount := count }
      events := s.events ++ [.rd 1 (some 1)] }
    have h1 : step s = .next s1 := by
      rw [step_control hq hag hrst ha (c := true) (by rw [hu]; rfl)]
      simp only [hdControl, State.takeBits_stores, Stores.alloc_of_lt hlt, if_true]
      rfl
    have hu1 : s1.unread = bitsOf 9 x.val ++ rest := by
      show s.input.bits.drop (s.input.ip + 1) = _
      rw [← List.drop_drop]
      show s.unread.drop 1 = _
      rw [hu]
      rfl
    have h2 := step_value (s := s1) (i := i) (v := x.val) (rest := rest) rfl hag hrst ha (by omega) hu1
    have hx : ¬256 < x.val := by omega
    have hsym : symbolOf x.val = x := Fin.ext (symbolOf_val_of_le (by omega))
    refine ⟨i, count, s.stores.node.set i.val (.leaf x 0#32 (Config.freeMinsym s.freeCount i)),
      Config.freeMinsym s.freeCount, [.rd 1 (some 1), .rd 9 (some x.val)], s.freeCount + 1, rfl, rfl,
      CodeTree.heldAt_leaf.mpr ⟨0#32, Config.freeMinsym s.freeCount i, by simp⟩, fun j hj => ?_, fun j w m a b hj he => ?_, ?_⟩
    · have : i.val ≠ j.val := Nat.ne_of_gt hj
      simp [this]
    · have : j = i := Fin.ext (by show j.val = i.val; have : count.val = i.val + 1 := rfl; omega)
      subst this
      simp at he
    · show Sys2Proof.core.run (1 + 1) s = _
      rw [run_succ _ h1, run_one h2]
      simp only [hdValue, hx, if_false, hsym, hdComplete, returnState, Seq.begin]
      simp only [State.goto, State.takeBits, State.record, s1, Stores.setNode, List.append_assoc,
        CodeTree.serialize, List.length_cons, length_bitsOf, List.cons_append, List.nil_append]
  | node l r ihl ihr =>
    have hsize : (CodeTree.node l r).size = l.size + r.size + 1 := rfl
    have hlt : s.stores.nodeCount.val < 513 := by omega
    let i : NodeIdx := ⟨s.stores.nodeCount.val, hlt⟩
    let s1 : State := { s with
      seq := .hdrRead .control
      input := { s.input with ip := s.input.ip + 1 }
      stores := { s.stores with
        nodeCount := ⟨s.stores.nodeCount.val + 1, by omega⟩, stack := ⟨i, none, []⟩ :: s.stores.stack }
      events := s.events ++ [.rd 1 (some 0)] }
    have h1 : step s = .next s1 := by
      rw [step_control hq hag hrst ha (c := false) (by rw [hu]; rfl)]
      simp only [hdControl, State.takeBits_stores, Stores.alloc_of_lt hlt, Bool.false_eq_true, if_false]
      rfl
    have hu1 : s1.unread = l.serialize ++ (r.serialize ++ rest) := by
      show s.input.bits.drop (s.input.ip + 1) = _
      rw [← List.drop_drop]
      show s.unread.drop 1 = _
      rw [hu, CodeTree.serialize, List.cons_append, List.append_assoc]
      rfl
    obtain ⟨a, c1, nodes1, ms1, es1, n1, ha1, hc1, hl, hold1, hclosed1, hrun1⟩ :=
      ihl (s := s1) (rest := r.serialize ++ rest) rfl hag hrst ha hu1 (by show s.stores.nodeCount.val + 1 + l.size ≤ 513; omega)
    let s2 : State := returnState ms1 a { s1.stores with nodeCount := c1, node := nodes1 } l.serialize.length es1 n1 s1
    have hu2 : s2.unread = r.serialize ++ rest := by
      show s1.input.bits.drop (s1.input.ip + l.serialize.length) = _
      rw [← List.drop_drop]
      show s1.unread.drop _ = _
      rw [hu1, List.drop_left]
    have hc1' : c1.val = s.stores.nodeCount.val + 1 + l.size := hc1
    obtain ⟨b, c2, nodes2, ms2, es2, n2, hb2, hc2, hr, hold2, hclosed2, hrun2⟩ :=
      ihr (s := s2) (rest := rest) rfl hag hrst ha hu2 (by show c1.val + r.size ≤ 513; omega)
    have hc2' : c2.val = c1.val + r.size := hc2
    have hb2' : b.val = c1.val := hb2
    have ha1' : a.val = i.val + 1 := ha1
    have hi : i.val = s.stores.nodeCount.val := rfl
    have hold2' : ∀ j : NodeIdx, j.val < c1.val → nodes2[j] = nodes1[j] := hold2
    have hrp := r.size_pos
    have hlp := l.size_pos
    have hset : ∀ j : NodeIdx, i.val < j.val → (nodes2.set i.val (.internal 0#32 (ms2 i) a b))[j] = nodes2[j] := by
      intro j hj
      have : i.val ≠ j.val := Nat.ne_of_lt hj
      simp [this]
    refine ⟨i, c2, nodes2.set i.val (.internal 0#32 (ms2 i) a b), ms2, .rd 1 (some 0) :: (es1 ++ es2), n2, rfl,
      by omega, CodeTree.heldAt_node.mpr ⟨0#32, ms2 i, a, b, by simp, ?_, ?_⟩, fun j hj => ?_, ?_, ?_⟩
    · refine CodeTree.heldAt_congr (P := fun j => a.val ≤ j.val ∧ j.val < c1.val) hclosed1 (fun j hj => ?_) (by omega) hl
      rw [hset j (by omega), hold2' j hj.2]
    · exact CodeTree.heldAt_congr (P := fun j => b.val ≤ j.val ∧ j.val < c2.val) hclosed2
        (fun j hj => hset j (by omega)) (by omega) hr
    · have h' : i.val ≠ j.val := by omega
      have h2 := hold2' j (by omega)
      have h3 : nodes1[j] = s.stores.node[j] := hold1 j (by show j.val < s.stores.nodeCount.val + 1; omega)
      rw [← h3, ← h2]
      simp [h']
    · intro j w m p q hj he
      rcases Nat.lt_or_ge i.val j.val with hij | hij
      · rw [hset j hij] at he
        rcases Nat.lt_or_ge j.val c1.val with hj1 | hj1
        · rw [hold2' j hj1] at he
          have := hclosed1 j w m p q (by omega) he
          omega
        · have := hclosed2 j w m p q (by omega) he
          omega
      · have : j = i := Fin.ext (by omega)
        subst this
        simp at he
        obtain ⟨-, -, rfl, rfl⟩ := he
        omega
    · have hrun : (CodeTree.node l r).size + (CodeTree.node l r).leaves =
          ((l.size + l.leaves) + (r.size + r.leaves)) + 1 := by
        simp only [CodeTree.size, CodeTree.leaves]; omega
      rw [hrun, run_succ _ h1, run_add hrun1]
      refine hrun2.trans ?_
      have hip : s.input.ip + 1 + l.serialize.length + r.serialize.length =
          s.input.ip + (CodeTree.node l r).serialize.length := by
        simp only [CodeTree.serialize, List.length_cons, List.length_append]; omega
      have hev : s.events ++ [.rd 1 (some 0)] ++ es1 ++ es2 = s.events ++ .rd 1 (some 0) :: (es1 ++ es2) := by simp
      have hret2 : hdReturn ms2 s2.stores.stack b { s2.stores with nodeCount := c2, node := nodes2 } =
          hdReturn ms2 s.stores.stack i
            { s.stores with nodeCount := c2, node := nodes2.set i.val (.internal 0#32 (ms2 i) a b) } :=
        (hdReturn_stack ms2 s.stores.stack (⟨i, some a, []⟩ :: s.stores.stack) i
          { s.stores with nodeCount := c2, node := nodes2.set i.val (.internal 0#32 (ms2 i) a b) })
      simp only [returnState, ← hip, ← hev, hret2]
      rfl

end Sys2Proof.Machine
end

