-- ==== Sys2Proof/Laws/PerInstr.lean ====
section
/-! SUPPORT. Statements for all instructions, one lemma for each constructor. -/

namespace Sys2Proof.Laws.EncodeLength

/-- No encoding is empty, and none is longer than the longest code (R301, R303, R305, R104). -/
def Statement (i : Instr) : Prop :=
  ∀ magic : Word, i.wf = true → 1 ≤ (encode magic i).length ∧ (encode magic i).length ≤ 256

theorem nop : Statement .nop := by simp [Statement, encode]
theorem compress : Statement .compress := by simp [Statement, encode]
theorem decompress : Statement .decompress := by simp [Statement, encode]
theorem illegalCommand (w : Word) : Statement (.illegalCommand w) := by simp [Statement, encode]
theorem hdrInternal : Statement .hdrInternal := by simp [Statement, encode]
theorem hdrLeaf (v : BitVec 9) : Statement (.hdrLeaf v) := by simp [Statement, encode]
theorem magic : Statement .magic := by simp [Statement, encode]
theorem bodyCode (path : Bits) : Statement (.bodyCode path) := by simp [Statement, encode, Instr.wf]
theorem fcCount : Statement .fcCount := by simp [Statement, encode]
theorem tbBuild : Statement .tbBuild := by simp [Statement, encode]
theorem cgGen : Statement .cgGen := by simp [Statement, encode]
theorem hsWrite : Statement .hsWrite := by simp [Statement, encode]
theorem beEncode : Statement .beEncode := by simp [Statement, encode]
theorem hdRead : Statement .hdRead := by simp [Statement, encode]
theorem srDecode : Statement .srDecode := by simp [Statement, encode]
theorem closing : Statement .closing := by simp [Statement, encode]

end Sys2Proof.Laws.EncodeLength
end

