-- ==== Sys2Proof/Laws/Steps.lean ====
section
/-! SUPPORT. Everything a step can do, said once: the moves of the core on its own turn and the other turns. Claims about
every step are case analyses over these two lists. -/

namespace Sys2Proof.Machine

/-- The moves of the core. `wait` is a waiting phase (R553) or a channel that does not answer (R213). -/
inductive CoreMove (s : State) : State → Prop where
  | wait : CoreMove s s
  | fcClear (h : s.seq = .count .start) : CoreMove s (fcClear s)
  | fcByte (h : s.seq = .count .loop) (v : Nat) (hv : v < 2 ^ 8) (hu : 8 ≤ (s.supply 8).unread.length) :
      CoreMove s (fcByte v ((s.supply 8).takeBits 8 v))
  | fcEnd (h : s.seq = .count .loop) (he : s.input.after = .eos) : CoreMove s (fcEnd (s.takeEos 8))
  | tbBuild (h : s.seq = .build) (st : Stores) (hf : s.stores.tbForest = some st) :
      CoreMove s ((tbRoot { s with stores := st }).goto .codegen)
  | tbFull (h : s.seq = .build) : CoreMove s (s.raise .headerCapacity 0#8 (BitVec.ofNat 32 Config.nodeCap))
  | cgGen (h : s.seq = .codegen) (code : Vector Bits 257) (hc : cgTable s.stores = some code) :
      CoreMove s ({ s with stores := { s.stores with code := code, stack := [] } }.goto (.hdrWrite .start))
  | hsBegin (h : s.seq = .hdrWrite .start) : CoreMove s (hsBegin s)
  | hsMagic (h : s.seq = .hdrWrite .magic) :
      CoreMove s ((s.writeBits (bitsOf 32 s.id.toNat)).goto (.hdrWrite .token))
  | hsToken (h : s.seq = .hdrWrite .token) (bits : Bits) : CoreMove s (hsAdvance (s.writeBits bits))
  | hsDone (h : s.seq = .hdrWrite .token) : CoreMove s (s.goto (.bodyEnc .start))
  | beReset (h : s.seq = .bodyEnc .start) : CoreMove s (s.resetIn.goto (.bodyEnc .read))
  | beByte (h : s.seq = .bodyEnc .read) (v : Nat) (hv : v < 2 ^ 8) (hu : 8 ≤ (s.supply 8).unread.length) :
      CoreMove s (beByte v ((s.supply 8).takeBits 8 v))
  | beEos (h : s.seq = .bodyEnc .read) (he : s.input.after = .eos) :
      CoreMove s ((s.takeEos 8).goto (.bodyEnc (.emit eofSym)))
  | beEmit (x : CodeSymbol) (h : s.seq = .bodyEnc (.emit x)) (bits : Bits) :
      CoreMove s (beEmitted x (s.writeBits bits))
  | hdBegin (h : s.seq = .hdrRead .start) : CoreMove s (hdBegin s)
  | hdMagic (h : s.seq = .hdrRead .magic) (v : Nat) (hv : v < 2 ^ 32) (hu : 32 ≤ (s.supply 32).unread.length) :
      CoreMove s (hdMagic (some v) ((s.supply 32).takeBits 32 v))
  | hdMagicEos (h : s.seq = .hdrRead .magic) (he : s.input.after = .eos) : CoreMove s (hdMagic none (s.takeEos 32))
  | hdControl (h : s.seq = .hdrRead .control) (b : Bool) (hu : 1 ≤ (s.supply 1).unread.length) :
      CoreMove s (hdControl b ((s.supply 1).takeBits 1 b.toNat))
  | hdControlEos (h : s.seq = .hdrRead .control) (he : s.input.after = .eos) :
      CoreMove s ((s.takeEos 1).raise .malformedHeader 1#8 (nodesSoFar (s.takeEos 1)))
  | hdValue (i : NodeIdx) (h : s.seq = .hdrRead (.value i)) (v : Nat) (hv : v < 2 ^ 9)
      (hu : 9 ≤ (s.supply 9).unread.length) :
      CoreMove s (hdValue i v ((s.supply 9).takeBits 9 v))
  | hdValueEos (i : NodeIdx) (h : s.seq = .hdrRead (.value i)) (he : s.input.after = .eos) :
      CoreMove s ((s.takeEos 9).raise .malformedHeader 2#8 (nodesSoFar (s.takeEos 9)))
  | srBegin (h : s.seq = .decode .start) : CoreMove s (srBegin s)
  | srMove (h : s.seq = .decode .bit) (b : Bool) (hu : 1 ≤ (s.supply 1).unread.length) :
      CoreMove s (srMove b ((s.supply 1).takeBits 1 b.toNat))
  | srEos (h : s.seq = .decode .bit) (he : s.input.after = .eos) :
      CoreMove s ((s.takeEos 1).raise .truncatedStream 0#8 s.stores.litOut)
  | srLiteral (x : CodeSymbol) (h : s.seq = .decode (.literal x)) :
      CoreMove s (srWritten (s.writeBits (bitsOf 8 x.val)))
  | close (h : s.seq = .closing) : CoreMove s (finish s.closeOut)

/-- A value below 2 is a bit. -/
theorem bit_of_lt {v : Nat} (h : v < 2 ^ 1) : ∃ b : Bool, v = b.toNat ∧ (v == 1) = b := by
  interval_cases v
  · exact ⟨false, rfl, rfl⟩
  · exact ⟨true, rfl, rfl⟩

variable {s t : State}

/-- The bits a field was decoded from are there (R202). -/
theorem length_of_decodeMagic {i : Instr} {magic : Word} {bits rest : Bits}
    (h : decodeMagic magic bits = .ok (i, rest)) : i = .magic ∧ 32 ≤ bits.length := by
  unfold decodeMagic takeField at h
  split at h
  · cases h
  · rename_i v r hf
    split at hf
    · cases hf
    · split at h <;> cases h
      exact ⟨rfl, by omega⟩

/-- What a decoded header token is, and that its bits are there (R303). -/
theorem cases_of_decodeToken {i : Instr} {bits rest : Bits} (h : decodeToken bits = .ok (i, rest)) :
    (i = .hdrInternal ∧ ∃ r, bits = false :: r) ∨ ∃ v r, i = .hdrLeaf v ∧ bits = true :: r ∧ 9 ≤ r.length := by
  unfold decodeToken takeField at h
  split at h
  · cases h
  · cases h
    exact .inl ⟨rfl, _, rfl⟩
  · split at h
    · cases h
    · rename_i v r hf
      cases h
      split at hf
      · cases hf
      · exact .inr ⟨_, _, rfl, rfl, by omega⟩

theorem execFcCount_move (h : exec .fcCount s = .next t) : CoreMove s t := by
  simp only [exec, execFcCount] at h
  split at h
  · cases h; exact .fcClear ‹_›
  · obtain rfl | ⟨he, h⟩ | ⟨v, hv, hu, h⟩ := withRead_next h
    · exact .wait
    · cases h; exact .fcEnd ‹_› he
    · cases h; exact .fcByte ‹_› v hv hu
  · cases h

theorem execTbBuild_move (h : exec .tbBuild s = .next t) : CoreMove s t := by
  simp only [exec, execTbBuild] at h
  split at h
  · split at h <;> cases h
    · exact .tbFull ‹_›
    · exact .tbBuild ‹_› _ ‹_›
  · cases h

theorem execCgGen_move (h : exec .cgGen s = .next t) : CoreMove s t := by
  simp only [exec, execCgGen] at h
  split at h
  · split at h <;> cases h
    exact .cgGen ‹_› _ ‹_›
  · cases h

theorem hsMagic_move (hq : s.seq = .hdrWrite .magic) (h : hsMagic s = .next t) : CoreMove s t := by
  obtain rfl | h := withWrite_next h
  · exact .wait
  · cases h; exact .hsMagic hq

theorem hsToken_move {i : Instr} (hq : s.seq = .hdrWrite .token) (h : hsToken i s = .next t) : CoreMove s t := by
  obtain rfl | h := withWrite_next h
  · exact .wait
  · cases h; exact .hsToken hq _

theorem execHsWrite_move (h : exec .hsWrite s = .next t) : CoreMove s t := by
  simp only [exec, execHsWrite] at h
  split at h
  · cases h; exact .hsBegin ‹_›
  · exact hsMagic_move ‹_› h
  · split at h
    · cases h; exact .hsDone ‹_›
    · exact hsToken_move ‹_› h
  · cases h

theorem beEmit_move {x : CodeSymbol} {bits : Bits} (hq : s.seq = .bodyEnc (.emit x)) (h : beEmit x bits s = .next t) :
    CoreMove s t := by
  obtain rfl | h := withWrite_next h
  · exact .wait
  · cases h; exact .beEmit x hq _

theorem execBeEncode_move (h : exec .beEncode s = .next t) : CoreMove s t := by
  simp only [exec, execBeEncode] at h
  split at h
  · obtain ⟨-, rfl⟩ | ⟨-, h⟩ := onInput_next h
    · exact .wait
    · cases h; exact .beReset ‹_›
  · obtain rfl | ⟨he, h⟩ | ⟨v, hv, hu, h⟩ := withRead_next h
    · exact .wait
    · cases h; exact .beEos ‹_› he
    · cases h; exact .beByte ‹_› v hv hu
  · exact beEmit_move ‹_› h
  · cases h

theorem execHdRead_move (h : exec .hdRead s = .next t) : CoreMove s t := by
  simp only [exec, execHdRead] at h
  split at h
  · cases h; exact .hdBegin ‹_›
  · obtain rfl | ⟨he, h⟩ | ⟨v, hv, hu, h⟩ := withRead_next h
    · exact .wait
    · cases h; exact .hdMagicEos ‹_› he
    · cases h; exact .hdMagic ‹_› v hv hu
  · obtain rfl | ⟨he, h⟩ | ⟨v, hv, hu, h⟩ := withRead_next h
    · exact .wait
    · cases h; exact .hdControlEos ‹_› he
    · obtain ⟨b, hb, hb'⟩ := bit_of_lt hv
      simp only [hb'] at h
      cases h
      rw [hb]
      exact .hdControl ‹_› b hu
  · obtain rfl | ⟨he, h⟩ | ⟨v, hv, hu, h⟩ := withRead_next h
    · exact .wait
    · cases h; exact .hdValueEos _ ‹_› he
    · cases h; exact .hdValue _ ‹_› v hv hu
  · cases h

theorem execSrDecode_move (h : exec .srDecode s = .next t) : CoreMove s t := by
  simp only [exec, execSrDecode] at h
  split at h
  · cases h; exact .srBegin ‹_›
  · obtain rfl | ⟨he, h⟩ | ⟨v, hv, hu, h⟩ := withRead_next h
    · exact .wait
    · cases h; exact .srEos ‹_› he
    · obtain ⟨b, hb, hb'⟩ := bit_of_lt hv
      simp only [hb'] at h
      cases h
      rw [hb]
      exact .srMove ‹_› b hu
  · obtain rfl | h := withWrite_next h
    · exact .wait
    · cases h; exact .srLiteral _ ‹_›
  · cases h

theorem execClosing_move (h : exec .closing s = .next t) : CoreMove s t := by
  simp only [exec, execClosing] at h
  split at h
  · obtain ⟨-, rfl⟩ | ⟨-, -, h⟩ := onOutput_next h
    · exact .wait
    · cases h; exact .close ‹_›
  · cases h

/-- A control bit that is written out. -/
theorem CoreMove.hdControlAt (h : s.seq = .hdrRead .control) (b : Bool) (hu : 1 ≤ s.unread.length) :
    CoreMove s (Machine.hdControl b (s.takeBits 1 b.toNat)) := by
  have hs := State.supply_of_le (by decide) hu
  have := CoreMove.hdControl h b (by rwa [hs])
  rwa [hs] at this

/-- A value field that is written out. -/
theorem CoreMove.hdValueAt (i : NodeIdx) (h : s.seq = .hdrRead (.value i)) (v : Nat) (hv : v < 2 ^ 9)
    (hu : 9 ≤ s.unread.length) : CoreMove s (Machine.hdValue i v (s.takeBits 9 v)) := by
  have hs := State.supply_of_le (by decide) hu
  have := CoreMove.hdValue i h v hv (by rwa [hs])
  rwa [hs] at this

/-- A magic field that is written out. -/
theorem CoreMove.hdMagicAt (h : s.seq = .hdrRead .magic) (v : Nat) (hv : v < 2 ^ 32) (hu : 32 ≤ s.unread.length) :
    CoreMove s (Machine.hdMagic (some v) (s.takeBits 32 v)) := by
  have hs := State.supply_of_le (by decide) hu
  have := CoreMove.hdMagic h v hv (by rwa [hs])
  rwa [hs] at this

/-- A header token runs as a move of the deserializer when its bits stand at the cursor (R500). -/
theorem execToken_move {i : Instr} {rest : Bits} (hq : s.seq = .hdrRead .control)
    (hd : decodeToken s.unread = .ok (i, rest)) (h : exec i s = .next t) : CoreMove s t := by
  obtain ⟨rfl, r, hu⟩ | ⟨v, r, rfl, hu, -⟩ := cases_of_decodeToken hd
  · simp only [exec, execHdrInternal, hq] at h
    obtain ⟨-, rfl⟩ | ⟨-, h⟩ := onInput_next h
    · exact .wait
    · cases h; exact .hdControlAt hq false (by simp [hu])
  · simp only [exec, execHdrLeaf, hq] at h
    obtain ⟨-, rfl⟩ | ⟨-, h⟩ := onInput_next h
    · exact .wait
    · cases h; exact .hdControlAt hq true (by simp [hu])

/-- A leaf's value runs as a move of the deserializer when its bits stand at the cursor (R500). -/
theorem execLeafValue_move {j : Instr} {i : NodeIdx} {rest : Bits} (hq : s.seq = .hdrRead (.value i))
    (hd : decodeToken (true :: s.unread) = .ok (j, rest)) (h : exec j s = .next t) : CoreMove s t := by
  obtain ⟨-, r, hu⟩ | ⟨v, r, rfl, hu, hl⟩ := cases_of_decodeToken hd
  · cases hu
  · cases hu
    simp only [exec, execHdrLeaf, hq] at h
    obtain ⟨-, rfl⟩ | ⟨-, h⟩ := onInput_next h
    · exact .wait
    · cases h; exact .hdValueAt i hq _ v.isLt hl

/-- Everything the core can do on its own turn. -/
theorem coreStep_move (h : coreStep s = .next t) : CoreMove s t := by
  unfold coreStep at h
  split at h
  · cases h; exact .wait
  split at h
  · cases h; exact .wait
  · rename_i i hf
    rcases hq : s.seq with _ | p | _ | _ | p | p | p | p | _ | _ | _
    · simp [State.fetch, hq] at hf
    · simp [State.fetch, hq] at hf; subst hf; exact execFcCount_move h
    · simp [State.fetch, hq] at hf; subst hf; exact execTbBuild_move h
    · simp [State.fetch, hq] at hf; subst hf; exact execCgGen_move h
    · cases p
      · simp [State.fetch, hq] at hf; subst hf; exact execHsWrite_move h
      · simp [State.fetch, hq] at hf
        subst hf
        rw [← exec_hsWrite_magic hq] at h
        exact execHsWrite_move h
      · rcases hs : s.stores.stack with _ | ⟨f, fs⟩
        · simp [State.fetch, hq, hs] at hf; subst hf; exact execHsWrite_move h
        · simp [State.fetch, hq, hs] at hf
          subst hf
          rw [← Fin.getElem_fin, ← exec_hsWrite_token hq hs] at h
          exact execHsWrite_move h
    · rcases p with _ | _ | x
      · simp [State.fetch, hq] at hf; subst hf; exact execBeEncode_move h
      · simp [State.fetch, hq] at hf; subst hf; exact execBeEncode_move h
      · simp [State.fetch, hq] at hf
        subst hf
        rw [← Fin.getElem_fin, ← exec_beEncode_emit hq] at h
        exact execBeEncode_move h
    · rcases p with _ | _ | _ | j
      · simp [State.fetch, hq] at hf; subst hf; exact execHdRead_move h
      · simp only [State.fetch, hq, Option.some.injEq, decodedOr] at hf
        subst hf
        split at h
        · rename_i i rest hd
          obtain ⟨rfl, hu⟩ := length_of_decodeMagic hd
          simp only [exec, execMagic, hq] at h
          obtain ⟨-, rfl⟩ | ⟨-, h⟩ := onInput_next h
          · exact .wait
          · cases h; exact .hdMagicAt hq _ s.id.isLt hu
        · exact execHdRead_move h
      · simp only [State.fetch, hq, Option.some.injEq, decodedOr] at hf
        subst hf
        split at h
        · exact execToken_move hq ‹_› h
        · exact execHdRead_move h
      · simp only [State.fetch, hq, Option.some.injEq, decodedOr] at hf
        subst hf
        split at h
        · exact execLeafValue_move hq ‹_› h
        · exact execHdRead_move h
    · simp [State.fetch, hq] at hf; subst hf; exact execSrDecode_move h
    · simp [State.fetch, hq] at hf; subst hf; exact execClosing_move h
    · simp [State.fetch, hq] at hf
    · simp [State.fetch, hq] at hf

theorem SameChannels.keeps (h : SameChannels s t) :
    t.id = s.id ∧ t.op = s.op ∧ t.rst = s.rst ∧ t.agenda = s.agenda ∧ t.shown = s.shown :=
  ⟨h.id, h.op, h.rst, h.agenda, h.shown⟩

/-- What no move of the core changes: ID, OP, the level of `rst`, the agenda, and the phase that STATUS loads have come to. -/
theorem coreMove_keeps (h : CoreMove s t) :
    t.id = s.id ∧ t.op = s.op ∧ t.rst = s.rst ∧ t.agenda = s.agenda ∧ t.shown = s.shown := by
  cases h with
  | fcByte _ v => exact (fcByte_same v ((s.supply 8).takeBits 8 v)).keeps
  | tbBuild _ st => exact (tbRoot_same { s with stores := st }).keeps
  | hsToken _ bits => exact (hsAdvance_same (s.writeBits bits)).keeps
  | beByte _ v => exact (beByte_same v ((s.supply 8).takeBits 8 v)).keeps
  | beEmit x _ bits => exact (beEmitted_same x (s.writeBits bits)).keeps
  | hdMagic _ v => exact (hdMagic_same (some v) ((s.supply 32).takeBits 32 v)).keeps
  | hdMagicEos => exact (hdMagic_same none (s.takeEos 32)).keeps
  | hdControl _ b => exact (hdControl_same b ((s.supply 1).takeBits 1 b.toNat)).keeps
  | hdValue i _ v => exact (hdValue_same i v ((s.supply 9).takeBits 9 v)).keeps
  | srMove _ b => exact (srMove_same b ((s.supply 1).takeBits 1 b.toNat)).keeps
  | _ => exact ⟨rfl, rfl, rfl, rfl, rfl⟩

/-- The moves of the other agents, and the core's own. -/
inductive TurnMove (s : State) : Turn → State → Prop where
  | core {t : State} (hr : s.rst = false) (h : CoreMove s t) : TurnMove s .core t
  /-- The core's turn while `rst` is asserted (R701). -/
  | held (hr : s.rst = true) : TurnMove s .core s
  /-- A store that does nothing: outside CMD (R101), while BUSY (R540), or while `rst` is asserted (R701). -/
  | ignored (offset : BitVec 6) (data : Word) : TurnMove s (.store offset 4 data) s
  | nop (hr : s.rst = false) (hb : s.busy = false) : TurnMove s (.store 0x00#6 4 0#32) s.acknowledge
  | compress (hr : s.rst = false) (hb : s.busy = false) (hs : s.shared = false) :
      TurnMove s (.store 0x00#6 4 1#32) ((s.startCommand 1#2).goto (.count .start))
  | decompress (hr : s.rst = false) (hb : s.busy = false) (hs : s.shared = false) :
      TurnMove s (.store 0x00#6 4 2#32) ((s.startCommand 2#2).goto (.hdrRead .start))
  | illegal (hr : s.rst = false) (hb : s.busy = false) (w : Word) (hw : w ≠ 0#32) :
      TurnMove s (.store 0x00#6 4 w)
        (((s.startCommand (w.extractLsb' 0 2)).setError .illegalCommand 0#8 w).goto .error)
  | load (offset : BitVec 6) : TurnMove s (.load offset 4) (s.loadReg offset)
  | waited : TurnMove s .wait (s.loadReg 0x04#6)
  | waiting : TurnMove s .wait { s.loadReg 0x04#6 with agenda := .core :: .wait :: s.agenda }
  | attach (hb : s.busy = false) (first second : InStream) (shared : Bool) :
      TurnMove s (.attach first second shared) { s with
        input := {
          bits := bytesToBits first.bytes, after := first.after, ip := 0
          rewound := bytesToBits second.bytes, rewoundAfter := second.after, answers := true }
        output := { bits := [], closed := false, answers := true }
        shared := shared }
  | channels (i o : Bool) : TurnMove s (.channels i o) (setAnswers i o s)
  | rst (asserted : Bool) : TurnMove s (.rst asserted) (s.setRst asserted)

/-- What a store to CMD can do (R540). -/
theorem command_move {w : Word} (hr : s.rst = false) (h : exec (decodeCommand w) s = .next t) :
    TurnMove s (.store 0x00#6 4 w) t := by
  rcases hb : s.busy
  · unfold decodeCommand at h
    split_ifs at h with h0 h1 h2
    · rw [exec_nop hb] at h; cases h; exact h0 ▸ .nop hr hb
    · rcases hs : s.shared
      · rw [exec_compress hb hs] at h; cases h; exact h1 ▸ .compress hr hb hs
      · simp [exec, execCompress, issueOnChannels, issue, hb, hs] at h
    · rcases hs : s.shared
      · rw [exec_decompress hb hs] at h; cases h; exact h2 ▸ .decompress hr hb hs
      · simp [exec, execDecompress, issueOnChannels, issue, hb, hs] at h
    · rw [exec_illegalCommand w hb] at h; cases h; exact .illegal hr hb w h0
  · rw [exec_busy_command w hb] at h
    cases h
    exact .ignored _ w

/-- Everything a turn can do. -/
theorem takeTurn_move {turn : Turn} (h : takeTurn turn s = .next t) : TurnMove s turn t := by
  cases turn with
  | core =>
    rcases hr : s.rst
    · exact .core hr (coreStep_move h)
    · rw [takeTurn, coreStep_reset hr] at h
      cases h
      exact .held hr
  | store offset bytes data =>
    simp only [takeTurn, hostStore, onAccess] at h
    split at h
    · rename_i ha
      obtain ⟨rfl, -⟩ := ha
      split at h
      · rename_i ho
        obtain ⟨rfl, hr⟩ := ho
        exact command_move hr h
      · cases h; exact .ignored _ _
    · cases h
  | load offset bytes =>
    simp only [takeTurn, hostLoad, onAccess] at h
    split at h
    · rename_i ha
      obtain ⟨rfl, -⟩ := ha
      cases h; exact .load _
    · cases h
  | wait =>
    simp only [takeTurn, hostWait] at h
    split at h <;> cases h
    · rw [State.loadReg_agenda]; exact .waiting
    · exact .waited
  | attach first second shared =>
    simp only [takeTurn, hostAttach] at h
    split at h <;> cases h
    exact .attach (by simp_all) _ _ _
  | channels i o => cases h; exact .channels _ _
  | rst asserted => cases h; exact .rst _

/-- Registers at their reset values stand as R700 says. -/
theorem atReset_of (hq : s.seq = .idle) (ho : s.op = 0#2) (hc : s.errCode = 0#8) (hx : s.errCause = 0#8)
    (hi : s.errInfo = 0#32) : s.atReset := by
  have hp : s.phase = .idle := by simp [State.phase, hq, Seq.phase]
  refine ⟨hp, by simp [State.irq, State.doneFlag, State.errorFlag, hp], fun offset => ?_⟩
  simp only [State.readReg, State.shownPhase, State.busy, hp, Phase.busy, State.statusWordAs, State.errWord, ho, hc, hx,
    hi, State.doneFlag, State.errorFlag]
  split_ifs <;> first | rfl | simp_all

/-- The state that `rst` forces stands as R700 says. -/
theorem atReset_resetBlock (s : State) : s.resetBlock.atReset :=
  atReset_of (by simp) (by simp) (by simp) (by simp) (by simp)

/-- Everything a step can do: with an empty agenda a core's move, or the reset state while `rst` is asserted; else the
next turn of the agenda, in the reset state while `rst` is asserted. -/
theorem step_move (h : step s = .next t) :
    (s.agenda = [] ∧ s.rst = false ∧ CoreMove s t) ∨ (s.agenda = [] ∧ s.rst = true ∧ t = s.resetBlock) ∨
      ∃ turn rest, s.agenda = turn :: rest ∧ TurnMove { s with agenda := rest }.forced turn t := by
  rcases ha : s.agenda with _ | ⟨turn, rest⟩
  · rcases hr : s.rst
    · rw [step_core ha hr] at h
      exact .inl ⟨rfl, rfl, coreStep_move h⟩
    · rw [step_reset ha hr] at h
      cases h
      exact .inr (.inl ⟨rfl, rfl, rfl⟩)
  · simp only [step, ha] at h
    exact .inr (.inr ⟨turn, rest, rfl, takeTurn_move h⟩)

end Sys2Proof.Machine
end

