-- ==== Sys2Proof/Tests/Slice0.lean ====
section
/-! SUPPORT. The model's own tests, and a witness for the hypotheses of every statement that has some. Expected results come
from 95_test_vectors.md and from the encodings of 30_encoding.md, never from the model. -/

namespace Sys2Proof.Tests

open Sys2Proof.Machine

/-! ### Helpers -/

/-- A state at a position, with both channels answering, these bits in IN and an empty OUT. -/
def state (q : Seq) (bits : Bits) : State :=
  { State.reset with
    seq := q
    id := Config.defaultMagic
    input := { bits := bits, after := .eos, ip := 0, rewound := bits, rewoundAfter := .eos, answers := true }
    output := { bits := [], closed := false, answers := true } }

/-- A meaning answers a next state that `p` holds of. -/
def after (r : Result) (p : State → Bool) : Bool :=
  match r with
  | .next t => p t
  | .fault _ => false
  | .refused _ => false

/-- The stores of 95_test_vectors.md section 3.1 for the stream of "aaaa": `NODE[0] = Internal(1, 2)`, `NODE[1]` the leaf
of EOF, `NODE[2]` the leaf of 0x61; and the codes of section 2.3. -/
def aaaa : Stores :=
  { Stores.reset with
    node := (((Stores.reset.node).set 0 (.internal 5#32 0x61 1 2)).set 1 (.leaf 256 1#32 256)).set 2 (.leaf 0x61 4#32 0x61)
    code := ((Stores.reset.code).set 0x61 [true]).set 256 [false] }

/-- The tree those stores hold at entry 0. -/
def aaaaTree : CodeTree := .node (.leaf 256) (.leaf 0x61)

/-- The counts of "aaaa" (section 2.1). -/
def counts : Stores := { Stores.reset with freq := ((Vector.replicate 257 0#32).set 0x61 4#32).set 256 1#32 }

/-- A state at a position over the stores of "aaaa". -/
def atNode (q : Seq) (bits : Bits) : State := { state q bits with stores := aaaa }

/-- The same state with the core next: by an empty agenda, and by a listed turn before the line `wait`. -/
def coreTurns (s : State) : List (State × List Turn) :=
  [({ s with agenda := [] }, []), ({ s with agenda := [.core, .wait] }, [.wait])]

/-- The frame of a node. -/
def frame (i : NodeIdx) : Frame := ⟨i, none, []⟩

/-- The tree of "abb" (section 1.3). -/
def abbTree : CodeTree := .node (.node (.leaf 0x61) (.leaf 256)) (.leaf 0x62)

/-! ### Ill-formed terms are refused (R301, R304, R305) -/

theorem test_wf_nop_is_no_illegal_command : (Instr.illegalCommand 0#32).wf = false := by decide
theorem test_wf_compress_is_no_illegal_command : (Instr.illegalCommand 1#32).wf = false := by decide
theorem test_wf_decompress_is_no_illegal_command : (Instr.illegalCommand 2#32).wf = false := by decide
theorem test_wf_leaf_value : (Instr.hdrLeaf 257#9).wf = false ∧ (Instr.hdrLeaf 256#9).wf = true := by decide
theorem test_wf_empty_code : (Instr.bodyCode []).wf = false := by decide
theorem test_wf_long_code :
    (Instr.bodyCode (List.replicate 257 true)).wf = false ∧ (Instr.bodyCode (List.replicate 256 true)).wf = true := by
  decide +kernel

/-! ### Words written out from the spec's encodings decode (R301 to R305, R104) -/

theorem test_decode_nop : decodeTableWord 32 0x00000000 = some .nop := by decide
theorem test_decode_compress : decodeTableWord 32 0x00000001 = some .compress := by decide
theorem test_decode_decompress : decodeTableWord 32 0x00000002 = some .decompress := by decide
theorem test_decode_illegalCommand :
    decodeTableWord 32 0x00000003 = some (.illegalCommand 0x00000003#32) ∧
      decodeTableWord 32 0x80000001 = some (.illegalCommand 0x80000001#32) := by decide
theorem test_decode_hdrInternal : decodeTableWord 8 0b0 = some .hdrInternal := by decide
theorem test_decode_hdrLeaf :
    decodeTableWord 16 0b1001100001 = some (.hdrLeaf 0x061#9) ∧
      decodeTableWord 16 0b1111111111 = some (.hdrLeaf 0x1FF#9) := by decide
/-- `bits_32(0xFACE8201)` as section 2.4 writes it out. -/
theorem test_decode_magic :
    decode Config.defaultMagic .magicField
      [true, true, true, true, true, false, true, false, true, true, false, false, true, true, true, false,
        true, false, false, false, false, false, true, false, false, false, false, false, false, false, false, true] =
      .ok (.magic, []) := by rfl
/-- The body bits `00 1 1 01` of "abb" (section 1.3): first `00`, for a. -/
theorem test_decode_bodyCode :
    decode 0#32 (.body abbTree) [false, false, true, true, false, true] =
      .ok (.bodyCode [false, false], [true, true, false, true]) := by rfl
theorem test_decode_fcCount : decodeTableWord 8 0x1 = some .fcCount := by decide
theorem test_decode_tbBuild : decodeTableWord 8 0x2 = some .tbBuild := by decide
theorem test_decode_cgGen : decodeTableWord 8 0x3 = some .cgGen := by decide
theorem test_decode_hsWrite : decodeTableWord 8 0x4 = some .hsWrite := by decide
theorem test_decode_beEncode : decodeTableWord 8 0x5 = some .beEncode := by decide
theorem test_decode_hdRead : decodeTableWord 8 0x6 = some .hdRead := by decide
theorem test_decode_srDecode : decodeTableWord 8 0x7 = some .srDecode := by decide
theorem test_decode_closing : decodeTableWord 8 0x8 = some .closing := by decide
theorem test_decode_reserved_phases :
    decodeTableWord 8 0x9 = none ∧ decodeTableWord 8 0xD = none ∧ decodeTableWord 8 0xE = none ∧
      decodeTableWord 8 0xF = none := by decide

/-! ### The word placed by the host is the instruction that runs next -/

theorem test_fetch_command : after (step (State.reset.withFetchWord 32 0x00000003))
    (fun t => t.errWord == 0x00000007#32 && t.statusWord == 0x000003F4#32) = true := by decide
theorem test_fetch_token : after (step (State.reset.withFetchWord 16 0b1001100001))
    (fun t => t.seq == .hdrRead (.value 0)) = true := by decide
theorem test_fetch_phase : after (step (State.reset.withFetchWord 8 0x7)) (fun t => t.seq == .decode .bit) = true := by
  decide

/-! ### One step of each instruction -/

/-- Section 4.3: the acknowledgement keeps ERR. -/
theorem test_nop : after (exec .nop { state .error [] with op := 2#2, errCode := 2#8, errCause := 3#8 })
    (fun t => t.statusWord == 0x00000200#32 && t.errWord == 0x00000302#32) = true := by decide
/-- Section 4.2: COMPRESS in COUNT. -/
theorem test_compress : after (exec .compress { state .error [] with errCode := 7#8, errInfo := 3#32 })
    (fun t => t.statusWord == 0x00000111#32 && t.errWord == 0#32 && t.errInfo == 0#32) = true := by decide
/-- R103, R545: DECOMPRESS in HDR_READ. -/
theorem test_decompress : after (exec .decompress (state .idle [])) (fun t => t.statusWord == 0x00000261#32) = true := by
  decide
/-- Section 4.3: `wr CMD, 0x80000001`. -/
theorem test_illegalCommand : after (exec (.illegalCommand 0x80000001#32) (state .idle []))
    (fun t => t.op == 1#2 && t.errWord == 0x00000007#32 && t.errInfo == 0x80000001#32 && t.seq == .error &&
      t.events == []) = true := by decide
/-- Section 2.1: the byte 0x61 of "aaaa". -/
theorem test_fcCount : after (exec .fcCount (state (.count .loop) (bitsOf 8 0x61)))
    (fun t => t.stores.freq[0x61] == 1#32 && t.stores.total == 1#32 && t.input.ip == 8) = true := by decide
/-- Section 2.1: of the 12 bits `61 6` the last 4 are no byte. -/
theorem test_fcCount_eos : after (exec .fcCount (state (.count .loop) (bitsOf 4 6)))
    (fun t => t.stores.freq[256] == 1#32 && t.seq == .build) = true := by decide
/-- Section 2.2: "aaaa". -/
theorem test_tbBuild : after (exec .tbBuild { state .build [] with stores := counts })
    (fun t => t.stores.nodeCount == 3 && t.stores.root == 2 && t.stores.node[2] == .internal 5#32 0x61 1 0 &&
      t.stores.node[0] == .leaf 0x61 4#32 0x61) = true := by decide +kernel
/-- Section 2.3: "aaaa". -/
theorem test_cgGen : after (exec .cgGen { atNode .codegen [] with stores := { aaaa with code := Stores.reset.code } })
    (fun t => t.stores.code[0x61] == [true] && t.stores.code[256] == [false] && t.stores.code[0] == []) = true := by
  decide +kernel
/-- Section 2.4: the token of the leaf 0x61 is `1001100001`. -/
theorem test_hsWrite : after (exec .hsWrite { atNode (.hdrWrite .token) [] with stores := { aaaa with stack := [frame 2] } })
    (fun t => t.output.bits == [true, false, false, true, true, false, false, false, false, true] &&
      t.seq == .bodyEnc .start) = true := by decide
/-- Section 2.4: a root with two leaves is written as `0`, its left child next. -/
theorem test_hdrInternal : after
    (exec .hdrInternal { atNode (.hdrWrite .token) [] with stores := { aaaa with stack := [frame 0] } })
    (fun t => t.output.bits == [false] && t.stores.stack == [frame 1, frame 2]) = true := by decide
/-- R503: the first control bit of a header allocates entry 0. -/
theorem test_hdrInternal_read : after (exec .hdrInternal (state (.hdrRead .control) [false]))
    (fun t => t.stores.nodeCount == 1 && t.stores.stack == [frame 0] && t.seq == .hdrRead .control) = true := by decide
/-- Section 3.3: the value 257. -/
theorem test_hdrLeaf_bad : after (exec (.hdrLeaf 257#9) (state (.hdrRead (.value 0)) (bitsOf 9 257)))
    (fun t => t.errWord == 0x00000302#32 && t.errInfo == 0x00000101#32 && t.seq == .closing) = true := by decide
/-- R504, R463: the value 256 names EOF. -/
theorem test_hdrLeaf : after (exec (.hdrLeaf 256#9) (state (.hdrRead (.value 0)) (bitsOf 9 256)))
    (fun t => t.seq == .decode .start && t.errWord == 0#32) = true := by decide
/-- Section 2.4: the magic as HS_WRITE sends it. -/
theorem test_magic : after (exec .magic (atNode (.hdrWrite .magic) []))
    (fun t => t.output.bits ==
      [true, true, true, true, true, false, true, false, true, true, false, false, true, true, true, false,
        true, false, false, false, false, false, true, false, false, false, false, false, false, false, false, true]) =
      true := by decide
/-- Section 2.5: the code `1` of 0x61. -/
theorem test_bodyCode : after (exec (.bodyCode [true]) (atNode (.bodyEnc (.emit 0x61)) []))
    (fun t => t.output.bits == [true] && t.seq == .bodyEnc .read) = true := by decide
/-- Section 3.5: the code `1` read back writes 0x61. -/
theorem test_bodyCode_read : after (exec (.bodyCode [true]) (atNode (.decode .bit) [true]))
    (fun t => bitsToBytes t.output.bits == [0x61#8] && t.stores.litOut == 1#32 && t.seq == .decode .bit) = true := by
  decide
/-- Section 2.5: `"abc"` as the second pass of another input. -/
theorem test_beEncode : after (exec .beEncode (atNode (.bodyEnc .read) (bitsOf 8 0x63)))
    (fun t => t.errWord == 0x00000006#32 && t.errInfo == 0x00000063#32 && t.seq == .closing) = true := by decide
/-- Section 3.2: two bytes are no magic. -/
theorem test_hdRead : after (exec .hdRead (state (.hdrRead .magic) (bytesToBits [0xFA#8, 0xCE#8])))
    (fun t => t.errWord == 0x00000101#32 && t.errInfo == 0#32) = true := by decide
/-- Section 1.4: the corrupted magic. -/
theorem test_hdRead_mismatch : after
    (exec .hdRead (state (.hdrRead .magic) (bytesToBits [0x05#8, 0xCE#8, 0x82#8, 0x01#8])))
    (fun t => t.errWord == 0x00000001#32 && t.errInfo == 0x05CE8201#32) = true := by decide
/-- Section 3.5: the bit 0 of "aaaa" is the EOF code. -/
theorem test_srDecode : after (exec .srDecode (atNode (.decode .bit) [false]))
    (fun t => t.seq == .closing && t.errWord == 0#32 && t.input.ip == 1) = true := by decide
/-- R521: on a leaf root a bit stays there and writes its symbol. -/
theorem test_srDecode_leaf_root : after
    (exec .srDecode { atNode (.decode .bit) [true] with stores := { aaaa with root := 2, decCur := 2 } })
    (fun t => t.seq == .decode (.literal 0x61) && t.stores.decCur == 2) = true := by decide
/-- R205: 43 bits are padded to 48. -/
theorem test_closing : after
    (exec .closing { state .closing [] with op := 1#2, output := ⟨List.replicate 43 true, false, true⟩ })
    (fun t => t.output.bits == List.replicate 43 true ++ List.replicate 5 false && t.output.closed &&
      t.statusWord == 0x000001E2#32) = true := by decide

/-- R701: while `rst` is asserted a store to CMD starts nothing, even of a command that would be refused. -/
theorem test_reset_held : after
    (step { state .idle [] with rst := true, shared := true, agenda := [.store 0x00#6 4 1#32] })
    (fun t => t.seq == .idle && t.op == 0#2 && t.rst) = true := by decide
/-- R701, R702: asserted in the counting pass and deasserted, `rst` leaves the block in IDLE and OUT open. -/
theorem test_reset_released : after
    (step { state (.count .loop) [] with rst := true, agenda := [.rst false] })
    (fun t => t.statusWord == 0#32 && !t.rst && !t.output.closed && t.events == []) = true := by decide
/-- R718: in CLOSING a load can show only what comes no earlier than the phase shown before. -/
theorem test_showable :
    { state .closing [] with op := 1#2, shown := some .hdrWrite : State }.showable = [.hdrWrite, .bodyEnc, .closing] ∧
      { state .closing [] with op := 2#2 : State }.showable = [.hdrRead, .decode, .closing] := by decide
/-- R527: an endless IN with the period 0 1 goes on after `1`: the bit at position 1 is 1, at position 2 it is 0. -/
theorem test_endless_input : after
    (exec .srDecode { atNode (.decode .bit) [true] with
      input := ⟨[true], .repeats false [true], 1, [], .eos, true⟩ })
    (fun t => t.events == [.rd 1 (some 1)] && t.input.bits == [true, true] && t.errWord == 0#32) = true := by decide
/-- R527: with nothing known of the bits to come, a read still answers one. -/
theorem test_unknown_input : after
    (exec .fcCount { state (.count .loop) [] with input := ⟨[], .unknown 0, 0, [], .eos, true⟩ })
    (fun t => t.seq == .count .loop && t.input.ip == 8 && t.input.bits.length == 8) = true := by rfl
/-- Section 1.3: `build` of the counts of "abb". -/
theorem test_build : CodeTree.build (freqOf [0x61#8, 0x62#8, 0x62#8]) = some abbTree := by decide +kernel

/-! ### Witnesses: a state and operands that meet a statement's hypotheses, clause by clause -/

theorem witness_DecodeOfEncodeIsTheInstruction :
    ((Instr.hdrLeaf 256#9).wf = true ∧ (Instr.hdrLeaf 256#9).inSpace .headerToken = true) ∧
    ((Instr.illegalCommand 3#32).wf = true ∧ (Instr.illegalCommand 3#32).inSpace .command = true) ∧
    (Instr.magic.wf = true ∧ Instr.magic.inSpace .magicField = true) ∧
    (Instr.closing.wf = true ∧ Instr.closing.inSpace .phase = true) ∧
    ((Instr.bodyCode [false, true]).wf = true ∧ (Instr.bodyCode [false, true]).inSpace (.body abbTree) = true) ∧
    ((Instr.bodyCode [true]).wf = true ∧ (Instr.bodyCode [true]).inSpace (.body (.leaf 256)) = true) := by decide

theorem witness_EncodeOfDecodeIsTheBits :
    decode 0#32 .headerToken [true, true, false, false, false, false, false, false, false, false, true] =
      .ok (.hdrLeaf 256#9, [true]) := by rfl

/-- `rst` asserted in a running phase, and held with each of the turns named. -/
theorem witness_ResetForcesTheRegisters :
    ({ state (.count .loop) [] with agenda := [.rst true] } : State).agenda = .rst true :: [] ∧
    (let s : State := { state (.count .loop) [] with rst := true, agenda := [.rst false] };
      s.rst = true ∧ s.agenda = .rst false :: []) ∧
    after (step { state .idle [] with rst := true, agenda := [.wait] }) (fun t => t.loaded == 0#32) = true ∧
    ∀ a ∈ [[], [Turn.core], [.store 0x00#6 4 1#32], [.store 0x3C#6 4 1#32]],
      ({ state .idle [] with rst := true, agenda := a } : State).rst = true ∧
        ({ state .idle [] with rst := true, agenda := a } : State).busy = false := by decide

theorem witness_ResetCutsACommandShort :
    ({ state .closing [] with agenda := [.rst true] } : State).agenda = .rst true :: [] ∧
      ({ state .closing [] with agenda := [.rst true] } : State).busy = true := by decide

/-- Each register of the window, and the first and the last reserved slot. -/
theorem witness_LoadsReadTheRegisterWindow : ∀ offset ∈ [0x00#6, 0x04#6, 0x08#6, 0x0C#6, 0x10#6, 0x14#6, 0x3C#6],
    let s : State := { state .done [] with agenda := [.load offset 4] }
    s.rst = false ∧ s.agenda = .load offset 4 :: [] ∧ offset.toNat % 4 = 0 ∧ s.busy = false := by decide

/-- A STATUS load while BUSY, the first one of a command and a later one; and a step of a command that goes on. -/
theorem witness_LoadsReadTheRegisterWindow_busy :
    (∀ q ∈ [none, some Phase.count, some .closing],
      let s : State := { state .build [] with op := 1#2, shown := q, agenda := [.load 0x04#6 4] }
      s.rst = false ∧ s.agenda = .load 0x04#6 4 :: [] ∧ s.busy = true ∧ ∀ p ∈ q, p ∈ Phase.ofCommand s.op) ∧
    ({ atNode .codegen [] with op := 1#2, shown := some .hdrWrite } : State).Inv ∧
    after (step { atNode .codegen [] with op := 1#2, shown := some .hdrWrite }) (fun t => t.busy) = true := by
  refine ⟨by decide, ?_, by decide +kernel⟩
  constructor <;> decide

/-- The line `wait` in DONE, in ERROR, in IDLE and while BUSY. -/
theorem witness_LoadsReadTheRegisterWindow_wait :
    (∀ q ∈ [Seq.done, .error, .idle, .build], let s : State := { state q [] with agenda := [.wait] };
      s.rst = false ∧ s.agenda = .wait :: []) ∧
    (state .done []).phase = .done ∧ (state .error []).phase = .error ∧ (state .idle []).phase = .idle ∧
    (let s : State := { state .build [] with op := 1#2, agenda := [.wait] };
      s.agenda = .wait :: [] ∧ s.busy = true ∧ s.shown = none) := by decide

/-- For every word, so for 0, 1, 2, 3 and 0xFFFFFFFF: to CMD while BUSY and not, and to the other slots. -/
theorem witness_HostStoresIssueCommandsOnly (w : Word) :
    (∀ q ∈ [Seq.build, .error], ({ state q [] with agenda := [.store 0x00#6 4 w] } : State).rst = false) ∧
    (state .build []).busy = true ∧ (state .error []).busy = false ∧
    ∀ offset ∈ [0x00#6, 0x04#6, 0x10#6, 0x3C#6], offset.toNat % 4 = 0 := by
  exact ⟨fun _ _ => rfl, rfl, rfl, by decide⟩

theorem witness_OtherAccessesAreRefused :
    (({ state .done [] with agenda := [.load 0x04#6 2] } : State).agenda = .load 0x04#6 2 :: [] ∧ 2 ≠ 4) ∧
      (({ state .done [] with agenda := [.store 0x3F#6 4 1#32] } : State).agenda = .store 0x3F#6 4 1#32 :: [] ∧
        (0x3F#6).toNat % 4 ≠ 0) := by decide

theorem witness_AttachGivesFreshChannels :
    let a := Turn.attach (.of [0x61#8]) ⟨[0x61#8], .repeats true []⟩ false
    ({ state .closing [] with agenda := [a] } : State).busy = true ∧
      ({ state .done [] with agenda := [a] } : State).busy = false ∧ (state .done []).rst = false := by decide

/-- Every position that reads, with no bit left and with one, on a periodic IN and on one nothing is known of. -/
theorem witness_AnEndlessInputNeverReportsEos :
    ∀ q ∈ [Seq.count .loop, .bodyEnc .read, .hdrRead .magic, .hdrRead .control, .hdrRead (.value 0), .decode .bit],
      ∀ a ∈ [After.repeats true [false], .unknown 0], ∀ bits ∈ [[], [true]],
      let s : State := { atNode q bits with input := ⟨bits, a, 0, bits, a, true⟩ }
      s.input.after ≠ .eos ∧ s.input.answers = true ∧ s.phase.operation ≠ none ∧ s.seq.readWidth ≠ none ∧
        s.input.ip ≤ s.input.bits.length := by decide

theorem witness_NopAcknowledges : (state .done []).phase = .done ∧ (state .error []).phase = .error := by decide

theorem witness_CompressStartsTheCountingPass :
    ((state .error []).busy = false ∧ (state .error []).shared = false) ∧
      ({ state .idle [] with shared := true } : State).shared = true ∧ (state (.count .loop) []).busy = true := by decide

theorem witness_DecompressStartsTheHeaderRead :
    ((state .done []).busy = false ∧ (state .done []).shared = false) ∧
      ({ state .done [] with shared := true } : State).busy = false ∧ (state (.decode .bit) []).busy = true := by decide

theorem witness_IllegalCommandGoesToError : (state .idle []).busy = false ∧ (state .closing []).busy = true := by decide

/-- One below MAX_INPUT, and MAX_INPUT. -/
theorem witness_FcCountCountsAByte :
    (state (.count .start) []).seq = .count .start ∧
    let s := state (.count .loop) (bitsOf 8 0x61)
    s.seq = .count .loop ∧ s.input.answers = true ∧ s.unread = bitsOf 8 (0x61#8).toNat ++ [] ∧
      ({ s with stores := { s.stores with total := 0xFFFFFFFD#32 } } : State).stores.total ≠ 0xFFFFFFFE#32 ∧
      ({ s with stores := { s.stores with total := 0xFFFFFFFE#32 } } : State).stores.total = 0xFFFFFFFE#32 := by decide

theorem witness_FcCountEndsWithTheTerminatorsCount :
    let s := state (.count .loop) (bitsOf 7 0)
    s.seq = .count .loop ∧ s.input.answers = true ∧ s.input.after = .eos ∧ s.unread.length < 8 := by decide

theorem witness_FcCountCountsTheWholeInput :
    let s := state (.count .start) (bytesToBits [0x61#8, 0xFF#8])
    s.seq = .count .start ∧ s.agenda = [] ∧ s.rst = false ∧ s.input.answers = true ∧
      s.unread = bytesToBits [0x61#8, 0xFF#8] ∧ s.input.after = .eos ∧
      [0x61#8, 0xFF#8].length ≤ 2 ^ 32 - 2 := by decide

/-- A leaf of weight 1 comes out before a leaf of weight 4 (section 2.2). -/
theorem witness_QueueAnswersItsFirstNode :
    ({ aaaa with pq := [2, 1] } : Stores).pqExtractMin = some (1, { aaaa with pq := [2] }) := by rfl

/-- The leaf of a symbol with a count and of one without, and the two leaves of "aaaa" (section 2.2). -/
theorem witness_TheMergingRule :
    counts.nodeCount.val < 513 ∧ counts.freq[(0x61 : CodeSymbol)] ≠ 0#32 ∧ counts.freq[(0 : CodeSymbol)] = 0#32 ∧
    ({ aaaa with pq := [2, 1] } : Stores).pqExtractMin = some (1, { aaaa with pq := [2] }) ∧
    ({ aaaa with pq := [2] } : Stores).pqExtractMin = some (2, { aaaa with pq := [] }) := by
  refine ⟨by decide, by decide, by decide, rfl, rfl⟩

theorem witness_TbBuildAlwaysGoesOn : (state .build []).seq = .build := by rfl

theorem witness_TbBuildsTheTreeOfTheCounts :
    ({ state .build [] with stores := counts } : State).seq = .build ∧ counts.freq[eofSym] ≠ 0#32 := by decide

theorem witness_TheTreeDependsOnTheCountsOnly :
    let s : State := { state .build [] with stores := counts }
    let u : State := { state .build [true] with stores := { aaaa with freq := counts.freq } }
    s.seq = .build ∧ u.seq = .build ∧ s.stores.freq = u.stores.freq ∧ s.stores.freq[eofSym] ≠ 0#32 ∧
      s.stores.node ≠ u.stores.node := by
  refine ⟨rfl, rfl, rfl, by decide, fun h => ?_⟩
  have := congrArg (fun v : Vector Node 513 => v[0]) h
  exact absurd this (by decide)

theorem witness_RootWeighsTheSumOfTheCounts :
    counts.freq[eofSym] ≠ 0#32 ∧ (counts.freq.toList.map BitVec.toNat).sum < 2 ^ 32 := by decide +kernel

/-- A tree of one leaf, and one of three nodes. -/
theorem witness_CgGenAssignsThePaths :
    (state .codegen []).seq = .codegen ∧
    ((CodeTree.leaf 0).heldAt (state .codegen []).stores.node (state .codegen []).stores.root = true ∧
      (CodeTree.leaf 0).size ≤ 513) ∧
    (aaaaTree.heldAt (atNode .codegen []).stores.node (atNode .codegen []).stores.root = true ∧ aaaaTree.size ≤ 513) := by
  decide

theorem witness_CodesArePrefixFree :
    aaaaTree.heldAt (atNode .codegen []).stores.node (atNode .codegen []).stores.root = true ∧ aaaaTree.size ≤ 513 ∧
    after (exec .cgGen (atNode .codegen [])) (fun t => t.stores.code[0x61] != [] && t.stores.code[256] != []) = true := by
  decide +kernel

theorem witness_HsWriteSendsTheMagicAndTheTokens :
    (atNode (.hdrWrite .start) []).seq = .hdrWrite .start ∧
    ((atNode (.hdrWrite .magic) []).output.answers = true ∧ (atNode (.hdrWrite .magic) []).output.closed = false) ∧
    (let s : State := { atNode (.hdrWrite .token) [] with stores := { aaaa with stack := [frame 0] } };
      s.stores.stack = [frame 0] ∧ s.stores.node[(frame 0).node] = .internal 5#32 0x61 1 2) ∧
    (let s : State := { atNode (.hdrWrite .token) [] with stores := { aaaa with stack := [frame 1, frame 2] } };
      s.stores.stack = [frame 1, frame 2] ∧ s.stores.node[(frame 1).node] = .leaf 256 1#32 256) ∧
    (let s : State := { atNode (.hdrWrite .token) [] with stores := { aaaa with stack := [frame 2] } };
      s.stores.stack = [frame 2] ∧ s.stores.node[(frame 2).node] = .leaf 0x61 4#32 0x61) := by decide

theorem witness_HsWriteSerializesTheTree :
    let s := atNode (.hdrWrite .start) []
    s.seq = .hdrWrite .start ∧ s.agenda = [] ∧ s.rst = false ∧ s.output.answers = true ∧ s.output.closed = false ∧
      aaaaTree.heldAt s.stores.node s.stores.root = true := by decide

theorem witness_HeaderLengthFollowsTheLeaves :
    (CodeTree.leaf 256).leaves = 1 ∧ aaaaTree.leaves = 2 ∧ abbTree.leaves = 3 := by decide

/-- A tree of 257 leaves: each leaf once more under the root of the tree before. -/
theorem witness_HeaderLengthOfTheFullTree :
    (Nat.rec (CodeTree.leaf 256) (fun k t => CodeTree.node (CodeTree.leaf (symbolOf k)) t) 256 : CodeTree).leaves = 257 := by
  decide +kernel

/-- The rewind, a byte with a code, a byte without one, and EOS with 7 bits left. -/
theorem witness_BeEncodeRewindsAndReads :
    ((atNode (.bodyEnc .start) []).seq = .bodyEnc .start ∧ (atNode (.bodyEnc .start) []).input.answers = true) ∧
    (let s := atNode (.bodyEnc .read) (bitsOf 8 0x61);
      s.input.answers = true ∧ s.unread = bitsOf 8 (0x61#8).toNat ++ [] ∧
        s.stores.code[symbolOf (0x61#8).toNat] ≠ []) ∧
    (let s := atNode (.bodyEnc .read) (bitsOf 8 0xFF);
      s.unread = bitsOf 8 (0xFF#8).toNat ++ [] ∧ s.stores.code[symbolOf (0xFF#8).toNat] = []) ∧
    ((atNode (.bodyEnc .read) (bitsOf 7 0)).input.after = .eos ∧
      (atNode (.bodyEnc .read) (bitsOf 7 0)).unread.length < 8) := by decide

theorem witness_BodyCodeIsSent (x : CodeSymbol) :
    (atNode (.bodyEnc (.emit x)) []).seq = .bodyEnc (.emit x) ∧
      (atNode (.bodyEnc (.emit x)) []).output.answers = true ∧
      (atNode (.bodyEnc (.emit x)) []).output.closed = false := ⟨rfl, rfl, rfl⟩

theorem witness_BeEncodeWritesTheBody :
    let s := atNode (.bodyEnc .start) (bytesToBits [0x61#8])
    s.seq = .bodyEnc .start ∧ s.agenda = [] ∧ s.rst = false ∧ s.input.rewoundAfter = .eos ∧ s.input.answers = true ∧ s.output.answers = true ∧
      s.output.closed = false ∧ s.input.rewound = bytesToBits [0x61#8] ∧
      ∀ b ∈ [0x61#8], s.stores.code[symbolOf b.toNat] ≠ [] := by decide

/-- The start, the magic, a word that differs from it in its last bit, and 31 bits. -/
theorem witness_HdReadChecksTheMagic :
    (state (.hdrRead .start) []).seq = .hdrRead .start ∧
    (let s := state (.hdrRead .magic) (bitsOf 32 0xFACE8201);
      s.input.answers = true ∧ s.unread = bitsOf 32 (0xFACE8201#32).toNat ++ [] ∧ 0xFACE8201#32 = s.id) ∧
    (let s := state (.hdrRead .magic) (bitsOf 32 0xFACE8200);
      s.unread = bitsOf 32 (0xFACE8200#32).toNat ++ [] ∧ 0xFACE8200#32 ≠ s.id) ∧
    ((state (.hdrRead .magic) (bitsOf 31 0)).input.after = .eos ∧
      (state (.hdrRead .magic) (bitsOf 31 0)).unread.length < 32) := by decide

/-- The last free entry, and none; a control bit 0, and a control bit 1 with 7 bits after it (R510). -/
theorem witness_HeaderTokensAllocateANode :
    let s := state (.hdrRead .control) [false]
    s.seq = .hdrRead .control ∧ s.input.answers = true ∧ s.unread = false :: [] ∧
      (state (.hdrRead .control) (true :: bitsOf 7 0)).unread = true :: bitsOf 7 0 ∧
      ({ s.stores with nodeCount := 512 } : Stores).nodeCount.val < 513 ∧
      ({ s.stores with nodeCount := 513 } : Stores).nodeCount.val = 513 := by decide

theorem witness_LeafValuesAreChecked :
    let s := state (.hdrRead (.value 2)) (bitsOf 9 256)
    s.seq = .hdrRead (.value 2) ∧ s.input.answers = true ∧ s.unread = bitsOf 9 (256#9).toNat ++ [] ∧
      (state (.hdrRead (.value 2)) (bitsOf 9 257 ++ [true])).unread = bitsOf 9 (257#9).toNat ++ [true] ∧
      256 < (257#9).toNat ∧ (256#9).toNat ≤ 256 ∧
      s.stores.stack = [] ∧ ({ s.stores with stack := [⟨0, none, []⟩] } : Stores).stack = ⟨0, none, []⟩ :: [] ∧
      ∀ f ∈ [(⟨1, some 0, []⟩ : Frame), ⟨0, none, []⟩], f.node ≠ 2 := by decide

/-- Two entries that wait with their left subtree read, over one that waits for it. -/
theorem witness_LeafValuesAreChecked_waiting :
    let waiting : List Frame := [⟨1, some 3, []⟩, ⟨0, some 4, []⟩]
    let s : State := { state (.hdrRead (.value 2)) (bitsOf 9 256) with
      stores := { Stores.reset with stack := waiting ++ [⟨5, none, []⟩] } }
    s.stores.stack = waiting ++ [⟨5, none, []⟩] ∧ (∀ f ∈ waiting, f.left ≠ none) ∧
      (∀ f ∈ [(⟨5, none, []⟩ : Frame)].head?, f.left = none) ∧ ((2 : NodeIdx) :: waiting.map Frame.node).Nodup := by decide

/-- No control bit, and 8 bits of a value. -/
theorem witness_HeaderCutShortIsMalformed :
    (state (.hdrRead .control) []).input.answers = true ∧ (state (.hdrRead .control) []).input.after = .eos ∧ (state (.hdrRead .control) []).unread.length < 1 ∧
      (state (.hdrRead (.value 0)) (bitsOf 8 0)).seq = .hdrRead (.value 0) ∧
      (state (.hdrRead (.value 0)) (bitsOf 8 0)).unread.length < 9 := by decide

theorem witness_HdReadRebuildsTheTree :
    let s := state (.hdrRead .start) (bitsOf 32 0xFACE8201 ++ abbTree.serialize ++ [true])
    s.seq = .hdrRead .start ∧ s.agenda = [] ∧ s.rst = false ∧ s.input.answers = true ∧
      s.unread = bitsOf 32 s.id.toNat ++ abbTree.serialize ++ [true] ∧ abbTree.size ≤ 513 := by decide

/-- The start, an internal node, and a root that is a leaf. -/
theorem witness_SrDecodeMovesOnABit :
    (atNode (.decode .start) []).seq = .decode .start ∧
    (let s := atNode (.decode .bit) [true];
      s.seq = .decode .bit ∧ s.input.answers = true ∧ s.unread = [true] ∧
        s.stores.node[s.stores.decCur] = .internal 5#32 0x61 1 2) ∧
    (let s : State := { atNode (.decode .bit) [true] with stores := { aaaa with decCur := 2 } };
      s.stores.node[s.stores.decCur] = .leaf 0x61 4#32 0x61) := by decide

theorem witness_SrDecodeWritesALiteral :
    let s := atNode (.decode (.literal 0xFF)) []
    s.seq = .decode (.literal 0xFF) ∧ s.output.answers = true ∧ s.output.closed = false := by decide

theorem witness_SrDecodeReportsATruncatedBody :
    (atNode (.decode .bit) []).seq = .decode .bit ∧ (atNode (.decode .bit) []).input.answers = true ∧
      (atNode (.decode .bit) []).input.after = .eos ∧ (atNode (.decode .bit) []).unread = [] := by decide

/-- A finite body, and an endless one on the tree that is the leaf of 0x61. -/
theorem witness_SrDecodeEndsExceptOnAnEndlessInput :
    (let s := atNode (.decode .start) [true];
      s.seq = .decode .start ∧ s.agenda = [] ∧ s.rst = false ∧ s.input.answers = true ∧ s.output.answers = true ∧
        s.output.closed = false ∧ s.input.after = .eos) ∧
    (let s : State := { atNode (.decode .start) [true] with
        stores := { aaaa with root := 2 }, input := ⟨[true], .repeats true [false], 0, [], .eos, true⟩ };
      s.seq = .decode .start ∧ s.input.after ≠ .eos ∧
        (CodeTree.leaf 0x61).heldAt s.stores.node s.stores.root = true ∧ (CodeTree.leaf 0x61).occurrences eofSym = 0) := by
  decide

theorem witness_BodyCodeIsTheWalkOfItsBits :
    let s := atNode (.decode .bit) [true, false]
    s.seq = .decode .bit ∧ s.agenda = [] ∧ s.rst = false ∧ s.input.answers = true ∧ s.output.answers = true ∧
      s.output.closed = false ∧ aaaaTree.heldAt s.stores.node s.stores.root = true ∧
      s.stores.decCur = s.stores.root ∧ aaaaTree.pathTo 0x61 = some [true] ∧ (0x61 : CodeSymbol) ≠ eofSym ∧
      s.unread = [true] ++ [false] := by decide

theorem witness_SrDecodeRecoversTheBody :
    let s := atNode (.decode .start) (aaaaTree.body [0x61, 0x61] ++ [true])
    s.seq = .decode .start ∧ s.agenda = [] ∧ s.rst = false ∧ s.input.answers = true ∧ s.output.answers = true ∧
      s.output.closed = false ∧ aaaaTree.heldAt s.stores.node s.stores.root = true ∧
      aaaaTree.occurrences eofSym ≠ 0 ∧
      (∀ x ∈ [(0x61 : CodeSymbol), 0x61], x ≠ eofSym ∧ aaaaTree.occurrences x ≠ 0) ∧
      s.unread = aaaaTree.body [0x61, 0x61] ++ [true] := by decide +kernel

theorem witness_ClosingEndsTheCommand :
    (state .closing []).seq = .closing ∧ (state .closing []).output.answers = true ∧
      (state .closing []).output.closed = false := by decide

theorem witness_WaitingStatesKeepEverything :
    ∀ q ∈ [Seq.idle, .done, .error],
      ((state q []).phase = .idle ∨ (state q []).phase = .done ∨ (state q []).phase = .error) ∧
        ∀ x ∈ coreTurns (state q []), x.1.coreNext x.2 := by
  unfold State.coreNext
  decide

theorem witness_OperationsRunInTheirPhaseOnly :
    (Phase.count.operation = some .fcCount ∧ (state .build []).phase ≠ .count) ∧
    ((state .idle []).seq ≠ .hdrWrite .magic ∧ (state .idle []).seq ≠ .hdrRead .magic) ∧
    ((state (.hdrRead .start) []).seq ≠ .hdrWrite .token ∧ (state (.hdrRead .start) []).seq ≠ .hdrRead .control ∧
      (state (.hdrRead .start) []).seq ≠ .hdrRead (.value 0)) ∧
    ((state (.bodyEnc .read) []).seq ≠ .bodyEnc (.emit 0) ∧ (state (.bodyEnc .read) []).seq ≠ .decode .bit) := by decide

/-- A released OUT at each kind of position. -/
theorem witness_TheStopsOfTheCore_released :
    ∀ q ∈ [Seq.hdrWrite .magic, .bodyEnc (.emit 0), .decode (.literal 0), .closing],
      let s : State := { atNode q [] with output := ⟨[], true, true⟩ }
      s.seq = q ∧ s.output.answers = true ∧ s.output.closed = true ∧ ∀ x ∈ coreTurns s, x.1.coreNext x.2 := by
  unfold State.coreNext
  decide

theorem witness_TheStopsOfTheCore_token :
    let s : State := { atNode (.hdrWrite .token) [] with
      output := ⟨[], true, true⟩, stores := { aaaa with stack := [frame 0] } }
    s.output.answers = true ∧ s.output.closed = true ∧ s.seq = .hdrWrite .token ∧ s.stores.stack ≠ [] ∧
      ∀ x ∈ coreTurns s, x.1.coreNext x.2 := by
  unfold State.coreNext
  decide

/-- An entry that is its own child holds no tree. -/
theorem witness_TheStopsOfTheCore_noTree :
    ∀ T : CodeTree, T.heldAt (Stores.reset.node.set 0 (.internal 0#32 0 0 0)) 0 = true → 513 < T.size := by
  intro T h
  suffices hf : T.heldAt (Stores.reset.node.set 0 (.internal 0#32 0 0 0)) 0 = false by rw [hf] at h; cases h
  clear h
  induction T with
  | leaf x => rfl
  | node l r ihl ihr =>
    have hn : (Stores.reset.node.set 0 (.internal 0#32 0 0 0))[(0 : NodeIdx)] = .internal 0#32 0 0 0 := by decide
    simp only [CodeTree.heldAt, hn, ihl, Bool.false_and]

/-- A store to CMD, and the core's turn at the start of a phase and at each field. -/
theorem witness_StepRunsTheDecodedInstruction :
    ({ state .idle [] with agenda := [.store 0x00#6 4 0#32] } : State).agenda = .store 0x00#6 4 0#32 :: [] ∧
    ((atNode .codegen []).seq = .begin .codegen ∧ Phase.codegen.operation = some .cgGen) ∧
    (∀ q ∈ [Seq.codegen, .hdrRead .magic, .hdrRead .control, .hdrRead (.value 0), .hdrWrite .magic, .hdrWrite .token,
      .bodyEnc (.emit 0x61)], (atNode q []).seq = q ∧ ∀ x ∈ coreTurns (atNode q []), x.1.coreNext x.2) := by
  unfold State.coreNext
  decide

/-- A whole token at a control bit, and a whole value, a legal one and the least illegal one (R505). -/
theorem witness_StepRunsTheDecodedInstruction_token :
    decode 0#32 .headerToken (state (.hdrRead .control) [false]).unread = .ok (.hdrInternal, []) ∧
    decode 0#32 .headerToken (true :: (state (.hdrRead (.value 0)) (bitsOf 9 256)).unread) =
      .ok (.hdrLeaf 256#9, []) ∧
    decode 0#32 .headerToken (true :: (state (.hdrRead (.value 0)) (bitsOf 9 257)).unread) =
      .ok (.hdrLeaf 257#9, []) := ⟨rfl, rfl, rfl⟩

theorem witness_StepRunsTheDecodedInstruction_magic :
    decode (state (.hdrRead .magic) (bitsOf 32 0xFACE8201)).id .magicField
      (state (.hdrRead .magic) (bitsOf 32 0xFACE8201)).unread = .ok (.magic, []) := by rfl

/-- A node on top of STACK: the internal node at entry 0 and the leaf of EOF at entry 1. -/
theorem witness_StepRunsTheDecodedInstruction_node (i : NodeIdx) :
    ({ atNode (.hdrWrite .token) [] with stores := { aaaa with stack := [frame i] } } : State).stores.stack =
      frame i :: [] ∧ tokenOf aaaa.node[(0 : NodeIdx)] = .hdrInternal ∧
      tokenOf aaaa.node[(1 : NodeIdx)] = .hdrLeaf 256#9 := ⟨rfl, by decide, by decide⟩

/-- R505 on a step of the listed turn: the value 257 ends the header with BAD_SYMBOL and INFO = 257. -/
theorem test_step_bad_symbol :
    after (step { state (.hdrRead (.value 0)) (bitsOf 9 257) with agenda := [.core, .wait] })
      (fun t => t.errWord == 0x00000302#32 && t.errInfo == 0x00000101#32 && t.agenda == [.wait]) = true := by
  decide +kernel

theorem witness_EveryCoreStepIsAStepOfThePhasesOperation :
    (atNode (.hdrWrite .token) []).phase.operation = some .hsWrite ∧
      ∀ x ∈ coreTurns (atNode (.hdrWrite .token) []), x.1.coreNext x.2 := by
  unfold State.coreNext
  decide

theorem witness_UnansweredTransactionsWait :
    (let s : State := { atNode (.decode .bit) [true] with input := ⟨[true], .eos, 0, [true], .eos, false⟩ };
      s.input.answers = false ∧ s.seq = .decode .bit ∧ ∀ x ∈ coreTurns s, x.1.coreNext x.2) ∧
    (let s : State := { atNode .closing [] with output := ⟨[], false, false⟩ };
      s.output.answers = false ∧ s.seq = .closing ∧ ∀ x ∈ coreTurns s, x.1.coreNext x.2) ∧
    (let s : State := { atNode .closing [] with agenda := [.channels true false] };
      s.rst = false ∧ s.agenda = .channels true false :: []) := by
  unfold State.coreNext
  decide

/-- A phase that ends, one that stays, and an error, on each kind of the core's turn. -/
theorem witness_PhasesFollowInOrder :
    (∀ q ∈ [Seq.codegen, .bodyEnc .start, .bodyEnc .read], ∀ x ∈ coreTurns (atNode q (bitsOf 8 0xFF)),
      x.1.coreNext x.2) ∧
    (∀ x ∈ coreTurns (atNode .codegen []), after (step x.1) (fun t => t.phase == .hdrWrite) = true) ∧
    (∀ x ∈ coreTurns (atNode (.bodyEnc .start) []), after (step x.1) (fun t => t.phase == .bodyEnc) = true) ∧
    ∀ x ∈ coreTurns (atNode (.bodyEnc .read) (bitsOf 8 0xFF)), after (step x.1) (fun t => t.phase == .closing) = true := by
  unfold State.coreNext
  decide +kernel

/-- A rewind, a read, a write, the close, and no transaction. -/
theorem witness_AStepMakesAtMostOneTransaction :
    after (step (atNode (.bodyEnc .start) [])) (fun t => t.events == [.rst]) = true ∧
    after (step (atNode (.decode .bit) [true])) (fun t => t.events == [.rd 1 (some 1)]) = true ∧
    after (step (atNode (.decode (.literal 0)) [])) (fun t => t.events == [.wr (List.replicate 8 false)]) = true ∧
    after (step (atNode .closing [])) (fun t => t.events == [.close]) = true ∧
    after (step (atNode .idle [])) (fun t => t.events == []) = true := by decide

/-- An error of an operation, an accepted command, a reset, and a load. -/
theorem witness_ErrorRecordsAreKept :
    after (step (atNode (.bodyEnc .read) (bitsOf 8 0xFF))) (fun t => t.errCode == 6#8) = true ∧
    after (step { state .idle [] with agenda := [.store 0x00#6 4 3#32] }) (fun t => t.errCode == 7#8) = true ∧
    after (step { state .idle [] with errCode := 1#8, agenda := [.rst true] }) (fun t => t.errCode == 0#8) = true ∧
    after (step { state .idle [] with errCode := 1#8, agenda := [.load 0x08#6 4] }) (fun t => t.errCode == 1#8) = true := by
  decide

theorem witness_IdNeverChanges :
    after (step { state .idle [] with agenda := [.rst true] }) (fun t => t.id == 0xFACE8201#32) = true := by decide

/-- A command that runs meets the invariant, and so does one that has raised an error. -/
theorem witness_EveryStepKeepsTheInvariant :
    ({ atNode (.bodyEnc .read) (bitsOf 8 0xFF) with op := 1#2 } : State).Inv ∧
    ({ state .closing [] with op := 2#2, errCode := 2#8, errCause := 3#8, errInfo := 257#32 } : State).Inv ∧
    after (step { atNode (.bodyEnc .read) (bitsOf 8 0xFF) with op := 1#2 }) (fun t => t.phase == .closing) = true := by
  refine ⟨?_, ?_, by decide⟩ <;> constructor <;> decide

theorem witness_HeaderReadingKeepsWithinTheStack :
    ({ state (.hdrRead .control) [false] with
        stores := { Stores.reset with nodeCount := 1, stack := [frame 0] } } : State).stackInv ∧
    after (step { state (.hdrRead .control) [false] with
        stores := { Stores.reset with nodeCount := 1, stack := [frame 0] } })
      (fun t => t.stores.stack == [frame 1, frame 0] && t.stores.nodeCount == 2) = true := by
  refine ⟨fun _ _ => by decide, by decide⟩

theorem witness_CompressWritesTheStream :
    let s : State := { state .done [] with agenda := [.attach (.of [0x61#8]) (.of [0x61#8]) false, .compress] }
    s.busy = false ∧ s.rst = false ∧ s.agenda = [.attach (.of [0x61#8]) (.of [0x61#8]) false, .compress] ∧
       [0x61#8].length ≤ 2 ^ 32 - 2 := by decide

/-- The two blocks of the round trip, the second reading the 6 bytes of the empty input's stream (section 1.1). -/
theorem witness_DecompressUndoesCompress :
    let s : State := { state .idle [] with agenda := [.attach (.of []) (.of []) false, .compress] }
    let b : List Byte := [0xFA#8, 0xCE#8, 0x82#8, 0x01#8, 0xC0#8, 0x00#8]
    let u : State := { state .done [] with agenda := [.attach (.of b) (.of b) false, .decompress] }
    s.busy = false ∧ s.rst = false ∧ s.agenda = [.attach (.of []) (.of []) false, .compress] ∧ ([] : List Byte).length ≤ 2 ^ 32 - 2 ∧
      u.busy = false ∧ u.rst = false ∧ u.id = s.id ∧ u.agenda = [.attach (.of b) (.of b) false, .decompress] := by decide

end Sys2Proof.Tests
end

section
/-! PROOFS. The event history of one step (00_scope.md rule R7; 20_memory.md rules R203, R211, R216): each move of the core
makes at most one transaction, of a kind its phase has, and the other turns make none. -/

namespace Sys2Proof.Machine

/-- The transaction is of a kind that the core makes at the position of `s`: the rewind at the start of BE_ENCODE, a read
in the phases that read IN, a write in those that write OUT, and the close in CLOSING. -/
def Event.MadeAt (s : State) : Event → Prop
  | .rst => s.seq = .bodyEnc .start
  | .rd _ _ => s.phase = .count ∨ s.phase = .bodyEnc ∨ s.phase = .hdrRead ∨ s.phase = .decode
  | .wr _ => s.phase = .hdrWrite ∨ s.phase = .bodyEnc ∨ s.phase = .decode
  | .close => s.phase = .closing

/-- From `s` to `t` the history stays, or gains one transaction made at the position of `s`. -/
def AtMostOneEvent (s t : State) : Prop :=
  t.events = s.events ∨ ∃ e : Event, e.MadeAt s ∧ t.events = s.events ++ [e]

variable {s t : State}

/-- The phases that make a transaction are phases of a running command (R103). -/
theorem busy_of_madeAt {e : Event} (h : e.MadeAt s) : s.busy = true := by
  unfold State.busy
  cases e with
  | rst => rw [show s.phase = .bodyEnc from congrArg Seq.phase h]; rfl
  | rd => obtain h | h | h | h := h <;> rw [h] <;> rfl
  | wr => obtain h | h | h := h <;> rw [h] <;> rfl
  | close => rw [show s.phase = .closing from h]; rfl

theorem AtMostOneEvent.read {n : Nat} {r : Option Nat}
    (hp : s.phase = .count ∨ s.phase = .bodyEnc ∨ s.phase = .hdrRead ∨ s.phase = .decode)
    (ht : t.events = s.events ++ [.rd n r]) : AtMostOneEvent s t := .inr ⟨.rd n r, hp, ht⟩

theorem AtMostOneEvent.write {bits : Bits}
    (hp : s.phase = .hdrWrite ∨ s.phase = .bodyEnc ∨ s.phase = .decode)
    (ht : t.events = s.events ++ [.wr bits]) : AtMostOneEvent s t := .inr ⟨.wr bits, hp, ht⟩

/-- A move of the core makes at most one transaction, of a kind its phase has (R7): what an engine does before or after
its transaction leaves the history alone (`SameChannels`). -/
theorem coreMove_events (h : CoreMove s t) : AtMostOneEvent s t := by
  cases h with
  | wait | fcClear | tbFull | cgGen | hsBegin | hsDone | hdBegin | srBegin => exact .inl rfl
  | tbBuild _ st => exact .inl (tbRoot_same { s with stores := st }).events
  | fcByte h v => exact .read (.inl (congrArg Seq.phase h)) (fcByte_same v _).events
  | fcEnd h => exact .read (.inl (congrArg Seq.phase h)) (fcEnd_same _).events
  | beByte h v => exact .read (.inr (.inl (congrArg Seq.phase h))) (beByte_same v _).events
  | beEos h => exact .read (.inr (.inl (congrArg Seq.phase h))) rfl
  | hdMagic h v => exact .read (.inr (.inr (.inl (congrArg Seq.phase h)))) (hdMagic_same (some v) _).events
  | hdMagicEos h => exact .read (.inr (.inr (.inl (congrArg Seq.phase h)))) (hdMagic_same none _).events
  | hdControl h b => exact .read (.inr (.inr (.inl (congrArg Seq.phase h)))) (hdControl_same b _).events
  | hdControlEos h => exact .read (.inr (.inr (.inl (congrArg Seq.phase h)))) rfl
  | hdValue i h v => exact .read (.inr (.inr (.inl (congrArg Seq.phase h)))) (hdValue_same i v _).events
  | hdValueEos i h => exact .read (.inr (.inr (.inl (congrArg Seq.phase h)))) rfl
  | srMove h b => exact .read (.inr (.inr (.inr (congrArg Seq.phase h)))) (srMove_same b _).events
  | srEos h => exact .read (.inr (.inr (.inr (congrArg Seq.phase h)))) rfl
  | hsMagic h => exact .write (.inl (congrArg Seq.phase h)) rfl
  | hsToken h bits => exact .write (.inl (congrArg Seq.phase h)) (hsAdvance_same (s.writeBits bits)).events
  | beEmit x h bits => exact .write (.inr (.inl (congrArg Seq.phase h))) (beEmitted_same x (s.writeBits bits)).events
  | srLiteral x h => exact .write (.inr (.inr (congrArg Seq.phase h))) (srWritten_same _).events
  | beReset h => exact .inr ⟨.rst, h, rfl⟩
  | close h => exact .inr ⟨.close, congrArg Seq.phase h, rfl⟩

/-- The turns of the host, of the channels and of `rst` make no transaction, nor does the core's while `rst` is asserted
(R212, R701, R702). -/
theorem turnMove_events {turn : Turn} (h : TurnMove s turn t) :
    t.events = s.events ∨ (turn = .core ∧ s.rst = false ∧ CoreMove s t) := by
  cases h with
  | core hr h => exact .inr ⟨rfl, hr, h⟩
  | held | ignored | compress | decompress | illegal | attach | channels => exact .inl rfl
  | nop => exact .inl s.acknowledge_events
  | load offset => exact .inl (s.loadReg_events offset)
  | waited | waiting => exact .inl (s.loadReg_events 0x04#6)
  | rst asserted => exact .inl (s.setRst_events asserted)

/-- A step makes no transaction, or it is the core's own turn and makes one that its position has (R7). -/
theorem step_events (h : step s = .next t) :
    t.events = s.events ∨
      ((s.agenda = [] ∨ ∃ rest, s.agenda = .core :: rest) ∧ AtMostOneEvent s t) := by
  obtain ⟨ha, -, hm⟩ | ⟨-, -, rfl⟩ | ⟨turn, rest, ha, hm⟩ := step_move h
  · exact .inr ⟨.inl ha, coreMove_events hm⟩
  · exact .inl s.resetBlock_events
  · obtain he | ⟨rfl, hr, hm⟩ := turnMove_events hm
    · exact .inl (he.trans (State.forced_events _))
    · rw [State.forced_rst] at hr
      rw [State.forced_of_rst _ hr] at hm
      have hone : AtMostOneEvent { s with agenda := rest } t := coreMove_events hm
      exact .inr ⟨.inr ⟨rest, ha⟩, hone⟩

/-- Settles O53, by cases on what a step can do and, on the core's own turn, on its moves. -/
theorem aStepMakesAtMostOneTransaction : Obligations.AStepMakesAtMostOneTransaction := by
  unfold Obligations.AStepMakesAtMostOneTransaction
  intro s t h
  obtain he | ⟨hcore, he | ⟨e, hm, he⟩⟩ := step_events h
  · exact .inl he
  · exact .inl he
  · refine .inr ⟨busy_of_madeAt hm, hcore, e, he, ?_⟩
    cases e <;> exact hm

end Sys2Proof.Machine
end

section
/-! PROOFS. The core's turn does what the operation PHASE selects does, and an operation or a token of the stream is
refused outside its phase (10_state.md rule R104; 43_header_serializer.md rule R460; 44_body_encoder.md rule R480;
45_header_deserializer.md rule R500). -/

namespace Sys2Proof.Machine

variable {s : State} {i : Instr}

/-- What a field taken from a stream is, and that its bits are there. -/
theorem takeField_eq_ok {n v : Nat} {bits rest : Bits} (h : takeField n bits = .ok (v, rest)) :
    n ≤ bits.length ∧ v = valOf (bits.take n) := by
  unfold takeField at h
  split at h <;> cases h
  exact ⟨by omega, rfl⟩

/-- A magic field that decodes is the 32 bits of the magic (R302). -/
theorem decodeMagic_eq_ok {magic : Word} {bits rest : Bits} (h : decodeMagic magic bits = .ok (i, rest)) :
    i = .magic ∧ 32 ≤ bits.length ∧ valOf (bits.take 32) = magic.toNat := by
  unfold decodeMagic at h
  split at h
  · cases h
  · rename_i hf
    obtain ⟨hl, rfl⟩ := takeField_eq_ok hf
    split at h <;> cases h
    exact ⟨rfl, hl, ‹_›⟩

/-- A token with the control bit 1 that decodes is the leaf token of the 9 bits after it (R303, R304). -/
theorem decodeToken_true_eq_ok {bits rest : Bits} (h : decodeToken (true :: bits) = .ok (i, rest)) :
    9 ≤ bits.length ∧ i = .hdrLeaf (BitVec.ofNat 9 (valOf (bits.take 9))) := by
  simp only [decodeToken] at h
  split at h
  · cases h
  · rename_i hf
    obtain ⟨hl, rfl⟩ := takeField_eq_ok hf
    cases h
    exact ⟨hl, rfl⟩

/-- A read of a field that is written out answers its value and takes it (R202). -/
theorem readBits_of_le_unread {n : Nat} (h0 : 0 < n) (h : n ≤ s.unread.length) :
    s.readBits n = (some (valOf (s.unread.take n)), s.takeBits n (valOf (s.unread.take n))) :=
  State.readBits_of_unread (List.take_append_drop n s.unread).symm (List.length_take_of_le h) h0

/-- Transactions on IN agree when what follows them does. -/
theorem onInput_congr {k k' : State → Result} (h : k s = k' s) : onInput s k = onInput s k' := by
  simp only [onInput, h]

/-- MAGIC, fetched where its bits stand at the cursor, is HD_READ's step (R506). -/
theorem exec_decodedMagic {rest : Bits} (hq : s.seq = .hdrRead .magic)
    (hd : decodeMagic s.id s.unread = .ok (i, rest)) : exec i s = exec .hdRead s := by
  obtain ⟨rfl, hl, hv⟩ := decodeMagic_eq_ok hd
  simp only [exec, execMagic, execHdRead, hq, withRead]
  exact onInput_congr (by rw [readBits_of_le_unread (by decide) hl, hv])

/-- A token, fetched where its bits stand at a control bit, is HD_READ's step (R500). -/
theorem exec_decodedToken {rest : Bits} (hq : s.seq = .hdrRead .control)
    (hd : decodeToken s.unread = .ok (i, rest)) : exec i s = exec .hdRead s := by
  obtain ⟨rfl, r, hu⟩ | ⟨v, r, rfl, hu, -⟩ := cases_of_decodeToken hd
  · simp only [exec, execHdrInternal, execHdRead, hq, withRead]
    exact onInput_congr (by rw [State.readBits_one hu]; rfl)
  · simp only [exec, execHdrLeaf, execHdRead, hq, withRead]
    exact onInput_congr (by rw [State.readBits_one hu]; rfl)

/-- A leaf token, fetched where its value stands at the cursor, is HD_READ's step (R504, R505). -/
theorem exec_decodedValue {j : NodeIdx} {rest : Bits} (hq : s.seq = .hdrRead (.value j))
    (hd : decodeToken (true :: s.unread) = .ok (i, rest)) : exec i s = exec .hdRead s := by
  obtain ⟨hl, rfl⟩ := decodeToken_true_eq_ok hd
  have hv : (BitVec.ofNat 9 (valOf (s.unread.take 9))).toNat = valOf (s.unread.take 9) := by
    have hlt := valOf_lt (s.unread.take 9)
    rw [List.length_take_of_le hl] at hlt
    exact Nat.mod_eq_of_lt hlt
  simp only [exec, execHdrLeaf, execHdRead, hq, withRead, hv]
  exact onInput_congr (by rw [readBits_of_le_unread (by decide) hl])

/-- What a field of the stream or, with no whole field at the cursor, the operation does is what the operation does. -/
theorem exec_decodedOr {operation : Instr} {d : Except DecodeError (Instr × Bits)}
    (h : ∀ i rest, d = .ok (i, rest) → exec i s = exec operation s) :
    exec (decodedOr operation d) s = exec operation s := by
  rcases d with e | ⟨i, rest⟩
  · rfl
  · exact h i rest rfl

/-- The instruction the core runs next does what the operation PHASE selects does (R104). -/
theorem exec_fetch (h : s.phase.operation = some i) : ∃ j, s.fetch = some j ∧ exec j s = exec i s := by
  unfold State.phase at h
  unfold State.fetch
  rcases hq : s.seq with _ | p | _ | _ | p | p | p | p | _ | _ | _ <;> rw [hq] at h <;> cases h
  case hdrWrite =>
    cases p with
    | start => exact ⟨_, rfl, rfl⟩
    | magic => exact ⟨_, rfl, (exec_hsWrite_magic hq).symm⟩
    | token =>
      rcases hs : s.stores.stack with _ | ⟨f, fs⟩
      · exact ⟨_, rfl, rfl⟩
      · exact ⟨_, rfl, (exec_hsWrite_token hq hs).symm⟩
  case bodyEnc =>
    cases p with
    | start | read => exact ⟨_, rfl, rfl⟩
    | emit x => exact ⟨_, rfl, (exec_beEncode_emit hq).symm⟩
  case hdrRead =>
    cases p with
    | start => exact ⟨_, rfl, rfl⟩
    | magic => exact ⟨_, rfl, exec_decodedOr fun _ _ => exec_decodedMagic hq⟩
    | control => exact ⟨_, rfl, exec_decodedOr fun _ _ => exec_decodedToken hq⟩
    | value j => exact ⟨_, rfl, exec_decodedOr fun _ _ => exec_decodedValue hq⟩
  all_goals exact ⟨_, rfl, rfl⟩

/-- Settles O50: the step runs the instruction that is fetched, which does what the phase's operation does. -/
theorem everyCoreStepIsAStepOfThePhasesOperation : Obligations.EveryCoreStepIsAStepOfThePhasesOperation := by
  unfold Obligations.EveryCoreStepIsAStepOfThePhasesOperation
  intro s rest i hcore hi
  obtain ⟨j, hf, he⟩ := exec_fetch (s := { s with agenda := rest }) hi
  exact (step_coreNext_fetch hcore hf).trans he

/-- An operation is refused in every phase but its own (R104): each position it runs at is one of that phase. -/
theorem exec_operation_refused {p : Phase} (hi : p.operation = some i) (h : s.phase ≠ p) :
    exec i s = .refused .notSelected := by
  unfold State.phase at h
  cases p <;> cases hi
  case count => simp only [exec, execFcCount]; split <;> simp_all [Seq.phase]
  case build => simp only [exec, execTbBuild]; split <;> simp_all [Seq.phase]
  case codegen => simp only [exec, execCgGen]; split <;> simp_all [Seq.phase]
  case hdrWrite => simp only [exec, execHsWrite]; split <;> simp_all [Seq.phase]
  case bodyEnc => simp only [exec, execBeEncode]; split <;> simp_all [Seq.phase]
  case hdrRead => simp only [exec, execHdRead]; split <;> simp_all [Seq.phase]
  case decode => simp only [exec, execSrDecode]; split <;> simp_all [Seq.phase]
  case closing => simp only [exec, execClosing]; split <;> simp_all [Seq.phase]

theorem exec_magic_refused (hw : s.seq ≠ .hdrWrite .magic) (hr : s.seq ≠ .hdrRead .magic) :
    exec .magic s = .refused .notSelected := by
  show execMagic s = _
  unfold execMagic
  split
  · exact absurd ‹_› hw
  · exact absurd ‹_› hr
  · rfl

theorem exec_hdrInternal_refused (hw : s.seq ≠ .hdrWrite .token) (hr : s.seq ≠ .hdrRead .control) :
    exec .hdrInternal s = .refused .notSelected := by
  show execHdrInternal s = _
  unfold execHdrInternal
  split
  · exact absurd ‹_› hw
  · exact absurd ‹_› hr
  · rfl

theorem exec_hdrLeaf_refused (v : BitVec 9) (hw : s.seq ≠ .hdrWrite .token) (hr : s.seq ≠ .hdrRead .control)
    (hv : ∀ j, s.seq ≠ .hdrRead (.value j)) : exec (.hdrLeaf v) s = .refused .notSelected := by
  show execHdrLeaf v s = _
  unfold execHdrLeaf
  split
  · exact absurd ‹_› hw
  · exact absurd ‹_› hr
  · exact absurd ‹_› (hv _)
  · rfl

theorem exec_bodyCode_refused (path : Bits) (hw : ∀ x, s.seq ≠ .bodyEnc (.emit x)) (hr : s.seq ≠ .decode .bit) :
    exec (.bodyCode path) s = .refused .notSelected := by
  show execBodyCode path s = _
  unfold execBodyCode
  rcases hq : s.seq with _ | _ | _ | _ | _ | p | _ | p | _ | _ | _
  case bodyEnc =>
    cases p with
    | start | read => rfl
    | emit x => exact absurd hq (hw x)
  case decode =>
    cases p with
    | start | literal => rfl
    | bit => exact absurd hq hr
  all_goals rfl

/-- Settles O47: each operation and each token is refused at every position it does not run at. -/
theorem operationsRunInTheirPhaseOnly : Obligations.OperationsRunInTheirPhaseOnly := by
  unfold Obligations.OperationsRunInTheirPhaseOnly
  refine ⟨fun _ _ _ => exec_operation_refused, fun s => ⟨exec_magic_refused, fun hw hr => ?_, fun hw hr path => ?_⟩⟩
  · exact ⟨exec_hdrInternal_refused hw hr, fun v => exec_hdrLeaf_refused v hw hr⟩
  · exact exec_bodyCode_refused path hw hr

end Sys2Proof.Machine
end

section
/-! PROOFS. STATUS, ERR and the host's loads of the register window (10_state.md rules R101 to R108; 20_memory.md rule
R212; 70_reset_and_hazards.md rule R718). -/

namespace Sys2Proof.Machine

variable {s t : State}

/-- The fields of STATUS (R103), whatever phase it shows. -/
theorem statusWordAs_fields (s : State) (p : Phase) :
    (s.statusWordAs p).getLsbD 0 = s.busy ∧ (s.statusWordAs p).getLsbD 1 = s.doneFlag ∧
      (s.statusWordAs p).getLsbD 2 = s.errorFlag ∧ (s.statusWordAs p).getLsbD 3 = false ∧
      (s.statusWordAs p).extractLsb' 4 4 = p.code ∧ (s.statusWordAs p).extractLsb' 8 2 = s.op ∧
      (s.statusWordAs p).extractLsb' 10 22 = 0#22 := by
  simp only [State.statusWordAs]
  generalize s.op = op, p.code = code, s.errorFlag = e, s.doneFlag = d, s.busy = b
  revert op code e d b
  decide

/-- The fields of ERR (R105). -/
theorem errWord_fields (s : State) :
    s.errWord.extractLsb' 0 8 = s.errCode ∧ s.errWord.extractLsb' 8 8 = s.errCause ∧
      s.errWord.extractLsb' 16 16 = 0#16 :=
  ⟨BitVec.extractLsb'_append_eq_right,
    (BitVec.extractLsb'_append_eq_of_le (by decide)).trans BitVec.extractLsb'_append_eq_right,
    (BitVec.extractLsb'_append_eq_of_le (by decide)).trans BitVec.extractLsb'_append_eq_left⟩

/-- What BUSY, DONE and ERROR say of PHASE's encoding (R103, R104). -/
theorem flags_iff_code (s : State) :
    (s.busy = true ↔ 0x1 ≤ s.phase.code.toNat ∧ s.phase.code.toNat ≤ 0x8) ∧
      (s.doneFlag = true ↔ s.phase.code = 0xE#4) ∧ (s.errorFlag = true ↔ s.phase.code = 0xF#4) := by
  simp only [State.busy, State.doneFlag, State.errorFlag]
  cases s.phase <;> decide

/-- No two of BUSY, DONE and ERROR are 1 at once (R103). -/
theorem flags_exclude (s : State) :
    ¬(s.busy = true ∧ s.doneFlag = true) ∧ ¬(s.busy = true ∧ s.errorFlag = true) ∧
      ¬(s.doneFlag = true ∧ s.errorFlag = true) := by
  simp only [State.busy, State.doneFlag, State.errorFlag]
  cases s.phase <;> decide

/-- Settles O10: each field of STATUS and ERR is the register it is made of, and the flags are read off PHASE. -/
theorem theFieldsOfStatusErrAndIrq : Obligations.TheFieldsOfStatusErrAndIrq := by
  unfold Obligations.TheFieldsOfStatusErrAndIrq State.statusWord
  intro s
  obtain ⟨h0, h1, h2, h3, hphase, hop, htop⟩ := statusWordAs_fields s s.phase
  obtain ⟨hbd, hbe, hde⟩ := flags_exclude s
  rw [h0, h1, h2]
  exact ⟨flags_iff_code s, h3, hphase, hop, htop, hbd, hbe, hde, errWord_fields s, Bool.or_eq_true _ _ ▸ Iff.rfl⟩

/-! ### The phases that loads may show (R718) -/

theorem nodup_ofCommand (op : BitVec 2) : (Phase.ofCommand op).Nodup := by
  unfold Phase.ofCommand; split <;> decide

/-- In a list without repetitions, what is left from `p` on is a part of every end of the list that holds `p`. -/
theorem dropWhile_ne_suffix {l m : List Phase} {p : Phase} (hl : l.Nodup) (hm : m <:+ l) (hp : p ∈ m) :
    l.dropWhile (· ≠ p) <:+ m := by
  obtain ⟨before, rfl⟩ := hm
  have hb : ∀ q ∈ before, decide (q ≠ p) = true := fun q hq =>
    decide_eq_true ((List.nodup_append.mp hl).2.2 q hq p hp)
  rw [List.dropWhile_append_of_pos hb]
  exact List.dropWhile_suffix _

theorem showable_suffix (s : State) : s.showable <:+ Phase.ofCommand s.op := by
  unfold State.showable
  split
  · exact List.suffix_rfl
  · exact List.dropWhile_suffix _

/-- While BUSY a load shows one of the phases that loads may show. -/
theorem shownPhase_mem (hb : s.busy = true) (h : ∀ q, s.shown = some q → q ∈ Phase.ofCommand s.op) :
    s.shownPhase ∈ s.showable := by
  have hne : s.showable ≠ [] := by
    unfold State.showable
    split
    · unfold Phase.ofCommand; split <;> simp
    · rename_i q hq
      exact fun h0 => by simpa using List.dropWhile_eq_nil_iff.mp h0 q (h q hq)
  rw [State.shownPhase, if_pos hb, List.getD_eq_getElem _ _ (Nat.mod_lt _ (List.length_pos_iff.mpr hne))]
  exact List.getElem_mem _

/-- A phase that loads may show has none after it that an earlier load showed. -/
theorem shown_not_mem_later {p q : Phase} {before later : List Phase} (hp : p ∈ s.showable)
    (hl : Phase.ofCommand s.op = before ++ p :: later) (hq : s.shown = some q) : q ∉ later := by
  intro hm
  have hn := nodup_ofCommand s.op
  have hs : s.showable <:+ later := by
    simp only [State.showable, hq]
    exact dropWhile_ne_suffix hn (hl ▸ (List.suffix_cons p later).trans (List.suffix_append ..)) hm
  rw [hl] at hn
  exact (List.nodup_cons.mp (List.nodup_append.mp hn).2.1).1 (hs.subset hp)

/-- A load that shows one of the phases loads may show leaves no more of them. -/
theorem showable_after_load (hm : s.shownPhase ∈ s.showable) (ho : t.op = s.op) (hs : t.shown = some s.shownPhase) :
    t.showable <:+ s.showable := by
  have h : t.showable = (Phase.ofCommand s.op).dropWhile (· ≠ s.shownPhase) := by simp only [State.showable, hs, ho]
  rw [h]
  exact dropWhile_ne_suffix (nodup_ofCommand s.op) (showable_suffix s) hm

theorem showable_congr (ho : t.op = s.op) (hs : t.shown = s.shown) : t.showable = s.showable := by
  simp only [State.showable, ho, hs]

/-- A load leaves OP and no more phases to show (R212, R718). -/
theorem showable_loadReg (hm : s.shownPhase ∈ s.showable) (offset : BitVec 6) :
    (s.loadReg offset).showable <:+ s.showable := by
  by_cases h : offset = 0x04#6 ∧ s.busy = true
  · exact showable_after_load hm (s.loadReg_op offset) (by simp only [State.loadReg, if_pos h])
  · rw [showable_congr (s.loadReg_op offset) (by simp only [State.loadReg, if_neg h])]

/-- While a command runs a turn leaves OP and no more phases to show (R541, R718). -/
theorem turnMove_showable {turn : Turn} (h : TurnMove s turn t) (hb : s.busy = true)
    (hm : s.shownPhase ∈ s.showable) (ht : t.busy = true) : t.op = s.op ∧ t.showable <:+ s.showable := by
  cases h with
  | core _ h =>
    obtain ⟨-, ho, -, -, hs⟩ := coreMove_keeps h
    exact ⟨ho, showable_congr ho hs ▸ List.suffix_rfl⟩
  | held | ignored | channels => exact ⟨rfl, List.suffix_rfl⟩
  | nop _ hb' | compress _ hb' | decompress _ hb' | illegal _ hb' | attach hb' => simp [hb] at hb'
  | load offset => exact ⟨s.loadReg_op offset, showable_loadReg hm offset⟩
  | waited | waiting => exact ⟨s.loadReg_op _, showable_loadReg hm _⟩
  | rst asserted =>
    cases asserted with
    | false => exact ⟨rfl, List.suffix_rfl⟩
    | true => simp [State.setRst, State.busy, State.phase, Seq.phase, Phase.busy] at ht

/-- While a command runs a step leaves OP and no more phases to show (R541, R718). -/
theorem step_showable (hi : s.Inv) (h : step s = .next t) (hb : s.busy = true) (ht : t.busy = true) :
    t.op = s.op ∧ t.showable <:+ s.showable := by
  have hr : s.rst = false := by
    by_contra hr
    obtain ⟨hp, -⟩ := hi.reset (by simpa using hr)
    simp [State.busy, hp, Phase.busy] at hb
  have hm := shownPhase_mem hb (hi.shown hb)
  obtain ⟨-, -, h⟩ | ⟨-, hr', -⟩ | ⟨turn, rest, -, h⟩ := step_move h
  · exact turnMove_showable (.core hr h) hb hm ht
  · simp [hr] at hr'
  · rw [State.forced_of_rst { s with agenda := rest } hr] at h
    exact turnMove_showable (s := { s with agenda := rest }) h hb hm ht

/-! ### Loads and the line `wait` (R101, R311) -/

/-- A word load of the window (R101, R210). -/
theorem step_load {rest : List Turn} {offset : BitVec 6} (hr : s.rst = false) (ha : s.agenda = .load offset 4 :: rest)
    (ho : offset.toNat % 4 = 0) : step s = .next (State.loadReg offset { s with agenda := rest }) := by
  rw [step_turn ha hr]
  simp only [takeTurn, hostLoad, onAccess, ho, and_self, if_true]

/-- A load that is not of STATUS while BUSY changes nothing but the host's result (R212). -/
theorem loadReg_plain {offset : BitVec 6} (h : offset ≠ 0x04#6 ∨ s.busy = false) :
    s.loadReg offset = { s with loaded := s.readReg offset } := by
  rw [State.loadReg, if_neg]
  rintro ⟨ho, hb⟩
  simp [ho, hb] at h

/-- The register at an offset, when it is not STATUS while BUSY (R101). -/
theorem readReg_eq {offset : BitVec 6} (h : offset ≠ 0x04#6 ∨ s.busy = false) :
    s.readReg offset =
      match offset.toNat with
      | 0x04 => s.statusWord
      | 0x08 => s.errWord
      | 0x0C => s.errInfo
      | 0x10 => s.id
      | _ => 0x00000000#32 := by
  have hs : offset = 0x04#6 → s.statusWordAs s.shownPhase = s.statusWord := fun ho => by
    rw [State.shownPhase, if_neg (by simp_all)]; rfl
  unfold State.readReg
  split_ifs with h4 h8 hC h10
  · rw [hs h4, h4]; rfl
  · rw [h8]; rfl
  · rw [hC]; rfl
  · rw [h10]; rfl
  · simp only [← BitVec.toNat_inj] at h4 h8 hC h10
    split
    · exact absurd ‹_› h4
    · exact absurd ‹_› h8
    · exact absurd ‹_› hC
    · exact absurd ‹_› h10
    · rfl

/-- Any load of STATUS shows neither DONE nor ERROR exactly in the phases other than those two (R103). -/
theorem readReg_status_and_six :
    s.readReg 0x04#6 &&& 0x6#32 = 0#32 ↔ s.phase ≠ .done ∧ s.phase ≠ .error := by
  rw [State.readReg, if_pos rfl]
  simp only [State.statusWordAs, State.busy, State.doneFlag, State.errorFlag]
  generalize s.op = op, s.shownPhase.code = code
  revert op code
  cases s.phase <;> decide

/-- In DONE and ERROR the line `wait` is over with its load of STATUS (R311). -/
theorem hostWait_over (h : s.phase = .done ∨ s.phase = .error) : hostWait s = .next (s.loadReg 0x04#6) := by
  simp only [hostWait, State.loadReg_loaded, readReg_status_and_six]
  rw [if_neg (by tauto)]

/-- In any other phase the line `wait` stands again, after a turn of the core (R311). -/
theorem hostWait_again (h : s.phase ≠ .done ∧ s.phase ≠ .error) :
    hostWait s = .next { s.loadReg 0x04#6 with agenda := .core :: .wait :: s.agenda } := by
  simp only [hostWait, State.loadReg_loaded, readReg_status_and_six, if_pos h, State.loadReg_agenda]

/-- A load of STATUS while BUSY, alone or as the line `wait`, is a load in the state that the agenda leaves (R311). -/
theorem step_status_busy {rest left : List Turn} (hr : s.rst = false)
    (ha : s.agenda = .load 0x04#6 4 :: rest ∧ left = rest ∨ s.agenda = .wait :: rest ∧ left = .core :: .wait :: rest)
    (hb : s.busy = true) : step s = .next { s with
      agenda := left
      loaded := 0#22 ++ s.op ++ s.shownPhase.code ++ 0b0001#4
      shown := some s.shownPhase
      freeCount := s.freeCount + 1 } := by
  have hl := loadReg_status_busy (s := { s with agenda := rest }) hb
  obtain ⟨ha, rfl⟩ | ⟨ha, rfl⟩ := ha
  · rw [step_load hr ha rfl, hl]
    rfl
  · have hp : s.phase ≠ .done ∧ s.phase ≠ .error := by
      constructor <;> intro hp <;> simp [State.busy, hp, Phase.busy] at hb
    rw [step_turn ha hr, takeTurn, hostWait_again (s := { s with agenda := rest }) hp, hl]
    rfl

/-- Settles O7: the registers offset by offset, `wait` by the phase, and the phases that loads may show by what
every step leaves of them. -/
theorem loadsReadTheRegisterWindow : Obligations.LoadsReadTheRegisterWindow := by
  unfold Obligations.LoadsReadTheRegisterWindow
  refine ⟨fun s rest offset hr ha ho h => ?_, fun s rest hr ha => ⟨fun hp => ?_, fun hp => ?_⟩,
    fun s rest left hr ha hb hs => ?_, fun s t => step_showable⟩
  · rw [step_load hr ha ho, loadReg_plain (s := { s with agenda := rest }) h]
    exact congrArg (fun w => Host.Outcome.next { s with agenda := rest, loaded := w }) (readReg_eq h)
  · have hb : s.busy = false := by obtain hp | hp := hp <;> rw [State.busy, hp] <;> rfl
    rw [step_turn ha hr, takeTurn, hostWait_over (s := { s with agenda := rest }) hp,
      loadReg_status (s := { s with agenda := rest }) hb]
    rfl
  · have hb : s.busy = false := by rw [State.busy, hp]; rfl
    have hne : s.phase ≠ .done ∧ s.phase ≠ .error := by simp [hp]
    rw [step_turn ha hr, takeTurn, hostWait_again (s := { s with agenda := rest }) hne,
      loadReg_status (s := { s with agenda := rest }) hb]
    rfl
  · have hm := shownPhase_mem hb hs
    obtain ⟨before, later, hl⟩ := List.append_of_mem ((showable_suffix s).subset hm)
    exact ⟨before, later, s.shownPhase, s.freeCount + 1, hl, fun _ hq => shown_not_mem_later hm hl hq,
      step_status_busy hr ha hb⟩

end Sys2Proof.Machine
end

section
/-! PROOFS. What a step changes of PHASE, ERR, ERR_INFO and ID, and how far STACK grows while a header is read (10_state.md
rules R104 to R107, R116; 45_header_deserializer.md rule R501; 60_exceptions.md rule R612). -/

namespace Sys2Proof.Machine

variable {s t : State} {p : Phase}

/-! ### The core's moves: PHASE and the error record (R546, R549, R551) -/

/-- ERR and ERR_INFO stay. -/
def SameError (s t : State) : Prop :=
  t.errCode = s.errCode ∧ t.errCause = s.errCause ∧ t.errInfo = s.errInfo

/-- ERR and ERR_INFO stay, and PHASE stays or moves on in its command's order. -/
def Advances (s t : State) : Prop :=
  SameError s t ∧ (t.phase = s.phase ∨ Phase.follows s.phase t.phase)

/-- A running operation has raised an error (R16, R551). -/
def Raises (s t : State) : Prop :=
  s.busy = true ∧ s.phase ≠ .closing ∧ t.phase = .closing ∧ t.errCode ≠ 0#8

theorem SameError.refl (s : State) : SameError s s := ⟨rfl, rfl, rfl⟩

theorem Advances.refl (s : State) : Advances s s := ⟨.refl s, .inl rfl⟩

/-- A move inside the phase `p`. -/
theorem Advances.stay (hs : s.phase = p) (ht : t.phase = p) (he : SameError s t) : Advances s t :=
  ⟨he, .inl (ht.trans hs.symm)⟩

/-- A move from the phase `p` to the one that follows. -/
theorem Advances.next (q : Phase) (hs : s.phase = p) (ht : t.phase = q) (he : SameError s t)
    (h : Phase.follows p q := by unfold Phase.follows; decide) : Advances s t :=
  ⟨he, .inr (hs ▸ ht ▸ h)⟩

/-- No error has the code 0 (R600). -/
theorem ErrorName.code_ne_zero (e : ErrorName) : e.code ≠ 0#8 := by cases e <;> decide

/-- Taking an error in an operation that runs (R16). -/
theorem raises_raise (hs : s.phase = p) (hp : p.busy = true ∧ p ≠ .closing) (e : ErrorName) (cause : BitVec 8)
    (info : Word) (u : State) : Raises s (u.raise e cause info) := by
  subst hs
  exact ⟨hp.1, hp.2, rfl, e.code_ne_zero⟩

theorem fcByte_progress (v : Nat) (h : s.phase = .count) : Advances s (fcByte v s) ∨ Raises s (fcByte v s) := by
  unfold fcByte
  split
  · exact .inr (raises_raise h (by decide) ..)
  · exact .inl (.stay h h ⟨rfl, rfl, rfl⟩)

theorem tbRoot_sameError (s : State) : SameError s (tbRoot s) := by unfold tbRoot; split <;> exact .refl s

theorem hsAdvance_advances (h : s.phase = .hdrWrite) : Advances s (hsAdvance s) := by
  unfold hsAdvance
  split
  · exact .next .bodyEnc h rfl (.refl s)
  · simp only
    split
    · exact .next .bodyEnc h rfl (.refl s)
    · exact .stay h rfl (.refl s)

theorem beByte_progress (v : Nat) (h : s.phase = .bodyEnc) : Advances s (beByte v s) ∨ Raises s (beByte v s) := by
  unfold beByte
  split
  · exact .inr (raises_raise h (by decide) ..)
  · exact .inl (.stay h rfl (.refl s))

theorem beEmitted_advances (x : CodeSymbol) (h : s.phase = .bodyEnc) : Advances s (beEmitted x s) := by
  unfold beEmitted
  split
  · exact .next .closing h rfl (.refl s)
  · exact .stay h rfl (.refl s)

theorem hdMagic_progress (m : Option Nat) (h : s.phase = .hdrRead) :
    Advances s (hdMagic m s) ∨ Raises s (hdMagic m s) := by
  unfold hdMagic
  split
  · exact .inr (raises_raise h (by decide) ..)
  · split
    · exact .inl (.stay h rfl (.refl s))
    · exact .inr (raises_raise h (by decide) ..)

theorem hdControl_progress (b : Bool) (h : s.phase = .hdrRead) :
    Advances s (hdControl b s) ∨ Raises s (hdControl b s) := by
  unfold hdControl
  split
  · exact .inr (raises_raise h (by decide) ..)
  · split <;> exact .inl (.stay h rfl (.refl s))

theorem hdComplete_advances (i : NodeIdx) (h : s.phase = .hdrRead) : Advances s (hdComplete i s) := by
  unfold hdComplete
  simp only
  split
  · exact .next .decode h rfl (.refl s)
  · exact .stay h rfl (.refl s)

theorem hdValue_progress (i : NodeIdx) (v : Nat) (h : s.phase = .hdrRead) :
    Advances s (hdValue i v s) ∨ Raises s (hdValue i v s) := by
  unfold hdValue
  split
  · exact .inr (raises_raise h (by decide) ..)
  · exact .inl (hdComplete_advances i h)

theorem srMove_advances (b : Bool) (h : s.phase = .decode) : Advances s (srMove b s) := by
  unfold srMove
  simp only
  split
  · exact .stay h rfl (.refl s)
  · split
    · exact .next .closing h rfl (.refl s)
    · exact .stay h rfl (.refl s)

theorem finish_advances (h : s.phase = .closing) : Advances s (finish s) := by
  unfold finish
  split
  · exact .next .done h rfl (.refl s)
  · exact .next .error h rfl (.refl s)

/-- A move of the core keeps ERR and ERR_INFO and moves on in order, or it is an error of a running operation. -/
theorem coreMove_progress (h : CoreMove s t) : Advances s t ∨ Raises s t := by
  cases h with
  | wait => exact .inl (.refl s)
  | fcClear h => exact .inl (.stay (congrArg Seq.phase h) rfl (.refl s))
  | fcByte h v => exact fcByte_progress v (s := (s.supply 8).takeBits 8 v) (congrArg Seq.phase h)
  | fcEnd h => exact .inl (.next .build (congrArg Seq.phase h) rfl (.refl s))
  | tbBuild h st => exact .inl (.next .codegen (congrArg Seq.phase h) rfl (tbRoot_sameError { s with stores := st }))
  | tbFull h => exact .inr (raises_raise (congrArg Seq.phase h) (by decide) ..)
  | cgGen h => exact .inl (.next .hdrWrite (congrArg Seq.phase h) rfl (.refl s))
  | hsBegin h | hsMagic h => exact .inl (.stay (congrArg Seq.phase h) rfl (.refl s))
  | hsToken h bits => exact .inl (hsAdvance_advances (s := s.writeBits bits) (congrArg Seq.phase h))
  | hsDone h => exact .inl (.next .bodyEnc (congrArg Seq.phase h) rfl (.refl s))
  | beReset h | beEos h => exact .inl (.stay (congrArg Seq.phase h) rfl (.refl s))
  | beByte h v => exact beByte_progress v (s := (s.supply 8).takeBits 8 v) (congrArg Seq.phase h)
  | beEmit x h bits => exact .inl (beEmitted_advances x (s := s.writeBits bits) (congrArg Seq.phase h))
  | hdBegin h => exact .inl (.stay (congrArg Seq.phase h) rfl (.refl s))
  | hdMagic h v => exact hdMagic_progress (some v) (s := (s.supply 32).takeBits 32 v) (congrArg Seq.phase h)
  | hdMagicEos h => exact hdMagic_progress none (s := s.takeEos 32) (congrArg Seq.phase h)
  | hdControl h b => exact hdControl_progress b (s := (s.supply 1).takeBits 1 b.toNat) (congrArg Seq.phase h)
  | hdValue i h v => exact hdValue_progress i v (s := (s.supply 9).takeBits 9 v) (congrArg Seq.phase h)
  | hdControlEos h | srEos h => exact .inr (raises_raise (congrArg Seq.phase h) (by decide) ..)
  | hdValueEos i h => exact .inr (raises_raise (congrArg Seq.phase h) ⟨rfl, nofun⟩ ..)
  | srBegin h => exact .inl (.stay (congrArg Seq.phase h) rfl (.refl s))
  | srMove h b => exact .inl (srMove_advances b (s := (s.supply 1).takeBits 1 b.toNat) (congrArg Seq.phase h))
  | srLiteral x h => exact .inl (.stay (congrArg Seq.phase h) rfl (.refl s))
  | close h => exact .inl (finish_advances (s := s.closeOut) (congrArg Seq.phase h))

/-! ### ERR and ERR_INFO (R105, R106, R612) -/

theorem loadReg_sameError (s : State) (offset : BitVec 6) : SameError s (s.loadReg offset) :=
  ⟨s.loadReg_errCode offset, s.loadReg_errCause offset, s.loadReg_errInfo offset⟩

/-- A turn keeps ERR and ERR_INFO, or it is an error of a running operation, a store of a command other than NOP while no
command runs, or the assertion of `rst`. -/
theorem turnMove_error {turn : Turn} (h : TurnMove s turn t) :
    SameError s t ∨ Raises s t ∨ (s.busy = false ∧ ∃ w, turn = .store 0x00#6 4 w ∧ w ≠ 0#32) ∨ turn = .rst true := by
  cases h with
  | core _ h => exact (coreMove_progress h).imp And.left .inl
  | held | ignored | attach | channels => exact .inl (.refl s)
  | nop => exact .inl ⟨s.acknowledge_errCode, s.acknowledge_errCause, s.acknowledge_errInfo⟩
  | compress _ hb => exact .inr (.inr (.inl ⟨hb, _, rfl, by decide⟩))
  | decompress _ hb => exact .inr (.inr (.inl ⟨hb, _, rfl, by decide⟩))
  | illegal _ hb w hw => exact .inr (.inr (.inl ⟨hb, w, rfl, hw⟩))
  | load offset => exact .inl (loadReg_sameError s offset)
  | waited | waiting => exact .inl (loadReg_sameError s 0x04#6)
  | rst asserted =>
    cases asserted with
    | false => exact .inl (.refl s)
    | true => exact .inr (.inr (.inr rfl))

/-- Settles O54, by cases on what a step can do. -/
theorem errorRecordsAreKept : Obligations.ErrorRecordsAreKept := by
  unfold Obligations.ErrorRecordsAreKept
  intro s t h
  rcases hr : s.rst
  · obtain ⟨-, -, hm⟩ | ⟨-, hr', -⟩ | ⟨turn, rest, ha, hm⟩ := step_move h
    · exact (coreMove_progress hm).imp And.left .inl
    · simp [hr] at hr'
    · rw [State.forced_of_rst { s with agenda := rest } hr] at hm
      obtain he | he | ⟨hb, w, rfl, hw⟩ | rfl := turnMove_error hm
      · exact .inl he
      · exact .inr (.inl he)
      · exact .inr (.inr (.inl ⟨hb, w, rest, ha, hw⟩))
      · exact .inr (.inr (.inr (.inr ⟨rest, ha⟩)))
  · exact .inr (.inr (.inr (.inl rfl)))

/-! ### ID (R107) -/

theorem turnMove_id {turn : Turn} (h : TurnMove s turn t) : t.id = s.id := by
  cases h with
  | core _ h => exact (coreMove_keeps h).1
  | held | ignored | compress | decompress | illegal | attach | channels => rfl
  | nop => exact s.acknowledge_id
  | load offset => exact s.loadReg_id offset
  | waited | waiting => exact s.loadReg_id 0x04#6
  | rst asserted => exact s.setRst_id asserted

theorem step_id (h : step s = .next t) : t.id = s.id := by
  obtain ⟨-, -, hm⟩ | ⟨-, -, rfl⟩ | ⟨turn, rest, -, hm⟩ := step_move h
  · exact (coreMove_keeps hm).1
  · exact s.resetBlock_id
  · exact (turnMove_id hm).trans (State.forced_id _)

theorem readReg_id (s : State) : s.readReg 0x10#6 = s.id := rfl

/-- A load of ID's slot, also while `rst` is asserted. -/
theorem step_load_id {rest : List Turn} (ha : s.agenda = .load 0x10#6 4 :: rest) :
    ∃ t, step s = .next t ∧ t.loaded = s.id :=
  ⟨State.loadReg 0x10#6 { s with agenda := rest }.forced, by simp only [step, ha]; rfl,
    (State.loadReg_loaded _ _).trans ((readReg_id _).trans (State.forced_id _))⟩

/-- Settles O55, by cases on what a step can do. -/
theorem idNeverChanges : Obligations.IdNeverChanges :=
  ⟨rfl, fun _ _ => step_id, fun _ _ => step_load_id⟩

/-! ### STACK while a header is read (R116, R501) -/

/-- In every other phase nothing is claimed. -/
theorem stackInv_of_phase (h : s.phase ≠ .hdrRead) : s.stackInv := fun hp => absurd hp h

theorem stackInv_of_length (h : s.stores.stack.length ≤ s.stores.nodeCount.val) : s.stackInv := fun _ _ => h

/-- The invariant speaks of the sequencer and the stores only. -/
theorem stackInv_congr (hi : s.stackInv) (hq : t.seq = s.seq) (hs : t.stores = s.stores) : t.stackInv := by
  unfold State.stackInv State.phase at *
  rwa [hq, hs]

/-- The return to the waiting calls takes entries off STACK. -/
theorem length_hdReturn_stack_le (ms : NodeIdx → CodeSymbol) (fs : List Frame) (i : NodeIdx) (st : Stores) :
    (hdReturn ms fs i st).1.stack.length ≤ fs.length := by
  induction fs generalizing i st with
  | nil => exact Nat.le_refl 0
  | cons f fs ih =>
    simp only [hdReturn]
    split
    · exact Nat.le_refl _
    · exact Nat.le_succ_of_le (ih _ _)

/-- The return to the waiting calls allocates nothing. -/
theorem hdReturn_nodeCount (ms : NodeIdx → CodeSymbol) (fs : List Frame) (i : NodeIdx) (st : Stores) :
    (hdReturn ms fs i st).1.nodeCount = st.nodeCount := by rw [hdReturn_frame]

theorem hdComplete_stackInv (i : NodeIdx) (h : s.stores.stack.length ≤ s.stores.nodeCount.val) :
    (hdComplete i s).stackInv := by
  apply stackInv_of_length
  simp only [hdComplete, State.goto_stores, hdReturn_nodeCount]
  exact (length_hdReturn_stack_le ..).trans h

theorem hdControl_stackInv (b : Bool) (h : s.stores.stack.length ≤ s.stores.nodeCount.val) :
    (hdControl b s).stackInv := by
  unfold hdControl
  split
  · exact stackInv_of_phase nofun
  · rename_i i st ha
    obtain ⟨-, hc, hst⟩ := Stores.alloc_eq_some ha
    have hl : st.stack.length < st.nodeCount.val := by rw [hc, hst]; exact Nat.lt_succ_of_le h
    split
    · exact stackInv_of_length hl.le
    · exact stackInv_of_length hl

theorem hdValue_stackInv (i : NodeIdx) (v : Nat) (h : s.stores.stack.length ≤ s.stores.nodeCount.val) :
    (hdValue i v s).stackInv := by
  unfold hdValue
  split
  · exact stackInv_of_phase nofun
  · exact hdComplete_stackInv i h

theorem hdMagic_stackInv (m : Option Nat) (h : s.stores.stack.length ≤ s.stores.nodeCount.val) :
    (hdMagic m s).stackInv := by
  unfold hdMagic
  split
  · exact stackInv_of_phase nofun
  · split
    · exact stackInv_of_length h
    · exact stackInv_of_phase nofun

/-- No move of the core leads to HD_READ from another phase: no phase is followed by it (R549). -/
theorem coreMove_hdrRead (h : CoreMove s t) (ht : t.phase = .hdrRead) : s.phase = .hdrRead := by
  obtain ⟨-, hp | hf⟩ | ⟨-, -, hc, -⟩ := coreMove_progress h
  · exact hp ▸ ht
  · rw [ht] at hf
    simp [Phase.follows] at hf
  · rw [hc] at ht
    cases ht

/-- STACK while a header is read, at every position but the start. -/
theorem length_stack_le (hi : s.stackInv) {pos : HdrReadAt} (hq : s.seq = .hdrRead pos) (hp : pos ≠ .start) :
    s.stores.stack.length ≤ s.stores.nodeCount.val :=
  hi (congrArg Seq.phase hq) (by rw [hq]; simpa using hp)

/-- The core's moves keep the invariant: an entry goes on STACK with the node that is allocated for it (R500). The moves
not named here start in another phase. -/
theorem coreMove_stackInv (hi : s.stackInv) (h : CoreMove s t) : t.stackInv := by
  by_cases hs : s.phase = .hdrRead
  case neg => exact stackInv_of_phase fun ht => hs (coreMove_hdrRead h ht)
  cases h with
  | wait => exact hi
  | hdBegin => exact stackInv_of_length (Nat.le_refl 0)
  | hdMagic h v => exact hdMagic_stackInv (some v) (s := (s.supply 32).takeBits 32 v) (length_stack_le hi h nofun)
  | hdMagicEos | hdControlEos | hdValueEos => exact stackInv_of_phase nofun
  | hdControl h b => exact hdControl_stackInv b (s := (s.supply 1).takeBits 1 b.toNat) (length_stack_le hi h nofun)
  | hdValue i h v => exact hdValue_stackInv i v (s := (s.supply 9).takeBits 9 v) (length_stack_le hi h nofun)
  | _ => simp_all [State.phase, Seq.phase]

theorem acknowledge_stackInv (hi : s.stackInv) : s.acknowledge.stackInv := by
  unfold State.acknowledge
  split
  · exact stackInv_of_phase nofun
  · exact hi

theorem resetBlock_stackInv (s : State) : s.resetBlock.stackInv :=
  stackInv_of_phase (by rw [State.phase, s.resetBlock_seq]; nofun)

theorem turnMove_stackInv {turn : Turn} (hi : s.stackInv) (h : TurnMove s turn t) : t.stackInv := by
  cases h with
  | core _ h => exact coreMove_stackInv hi h
  | held | ignored | attach | channels => exact hi
  | nop => exact acknowledge_stackInv hi
  | compress | illegal => exact stackInv_of_phase nofun
  | decompress => exact fun _ h => absurd rfl h
  | load offset => exact stackInv_congr hi (s.loadReg_seq offset) (s.loadReg_stores offset)
  | waited | waiting => exact stackInv_congr hi (s.loadReg_seq 0x04#6) (s.loadReg_stores 0x04#6)
  | rst asserted =>
    cases asserted with
    | false => exact hi
    | true => exact resetBlock_stackInv { s with rst := true }

/-- Settles O58, by cases on what a step can do. -/
theorem headerReadingKeepsWithinTheStack : Obligations.HeaderReadingKeepsWithinTheStack := by
  unfold Obligations.HeaderReadingKeepsWithinTheStack
  intro s t hi h
  obtain ⟨-, -, hm⟩ | ⟨-, -, rfl⟩ | ⟨turn, rest, -, hm⟩ := step_move h
  · exact coreMove_stackInv hi hm
  · exact resetBlock_stackInv s
  · refine turnMove_stackInv ?_ hm
    unfold State.forced
    split
    · exact resetBlock_stackInv _
    · exact hi

end Sys2Proof.Machine
end

section
/-! PROOFS. The channels and the host's accesses (20_memory.md rules R202, R205, R210, R213; 46_symbol_recovery.md rule R527):
which transaction each position of the core makes, said once, and from it where the core waits, where it stops and what an
endless IN answers. -/

namespace Sys2Proof.Machine

variable {s : State}

/-! ### Which transaction a position makes (R7, R211) -/

theorem goto_same (q : Seq) (s : State) : SameChannels s (s.goto q) := by constructor <;> rfl
theorem raise_same (e : ErrorName) (cause : BitVec 8) (info : Word) (s : State) :
    SameChannels s (s.raise e cause info) := by constructor <;> rfl

/-- At a reading position the phase's operation is one read, and what it does with the answer leaves the channels and the
history alone. -/
theorem exec_reading {n : Nat} (hn : s.seq.readWidth = some n) :
    ∃ (i : Instr) (k : Option Nat → State → Result), s.phase.operation = some i ∧ exec i s = withRead n s k ∧
      ∀ v u, ∃ t, k v u = .next t ∧ SameChannels u t := by
  unfold State.phase
  cases hq : s.seq with
  | idle | build | codegen | hdrWrite | closing | done | error => rw [hq] at hn; cases hn
  | count p =>
    rw [hq] at hn
    cases p <;> cases hn
    refine ⟨_, _, rfl, (by simp only [exec, execFcCount, hq]; rfl), fun v u => ?_⟩
    cases v with
    | none => exact ⟨_, rfl, fcEnd_same u⟩
    | some v => exact ⟨_, rfl, fcByte_same v u⟩
  | bodyEnc p =>
    rw [hq] at hn
    cases p <;> cases hn
    refine ⟨_, _, rfl, (by simp only [exec, execBeEncode, hq]; rfl), fun v u => ?_⟩
    cases v with
    | none => exact ⟨_, rfl, goto_same _ u⟩
    | some v => exact ⟨_, rfl, beByte_same v u⟩
  | hdrRead p =>
    rw [hq] at hn
    cases p with
    | start => cases hn
    | magic =>
      cases hn
      exact ⟨_, _, rfl, (by simp only [exec, execHdRead, hq]), fun v u => ⟨_, rfl, hdMagic_same v u⟩⟩
    | control =>
      cases hn
      refine ⟨_, _, rfl, (by simp only [exec, execHdRead, hq]; rfl), fun v u => ?_⟩
      cases v with
      | none => exact ⟨_, rfl, raise_same _ _ _ u⟩
      | some v => exact ⟨_, rfl, hdControl_same _ u⟩
    | value i =>
      cases hn
      refine ⟨_, _, rfl, (by simp only [exec, execHdRead, hq]; rfl), fun v u => ?_⟩
      cases v with
      | none => exact ⟨_, rfl, raise_same _ _ _ u⟩
      | some v => exact ⟨_, rfl, hdValue_same i v u⟩
  | decode p =>
    rw [hq] at hn
    cases p <;> cases hn
    refine ⟨_, _, rfl, (by simp only [exec, execSrDecode, hq]; rfl), fun v u => ?_⟩
    cases v with
    | none => exact ⟨_, rfl, raise_same _ _ _ u⟩
    | some v => exact ⟨_, rfl, srMove_same _ u⟩

/-- The core is about to rewind IN or to read it. -/
def State.AboutToUseIn (s : State) : Prop := s.seq = .bodyEnc .start ∨ s.seq.readWidth ≠ none

/-- The core is about to write OUT or to close it. -/
def State.AboutToUseOut (s : State) : Prop :=
  s.seq = .hdrWrite .magic ∨ (s.seq = .hdrWrite .token ∧ s.stores.stack ≠ []) ∨ (∃ x, s.seq = .bodyEnc (.emit x)) ∨
    (∃ x, s.seq = .decode (.literal x)) ∨ s.seq = .closing

/-- Where the core is about to rewind or to read, the phase's operation is a transaction on IN. -/
theorem exec_onInput (h : s.AboutToUseIn) :
    ∃ (i : Instr) (k : State → Result), s.phase.operation = some i ∧ exec i s = onInput s k := by
  obtain hq | hn := h
  · rw [State.phase, hq]
    exact ⟨_, _, rfl, by simp only [exec, execBeEncode, hq]; rfl⟩
  · obtain ⟨n, hn⟩ := Option.ne_none_iff_exists'.mp hn
    obtain ⟨i, k, hi, he, -⟩ := exec_reading hn
    exact ⟨i, _, hi, he⟩

/-- Where the core is about to write or to close, the phase's operation is a transaction on OUT. -/
theorem exec_onOutput (h : s.AboutToUseOut) :
    ∃ (i : Instr) (k : State → Result), s.phase.operation = some i ∧ exec i s = onOutput s k := by
  unfold State.phase
  obtain hq | ⟨hq, hs⟩ | ⟨x, hq⟩ | ⟨x, hq⟩ | hq := h <;> rw [hq]
  · exact ⟨_, _, rfl, by simp only [exec, execHsWrite, hq]; rfl⟩
  · obtain ⟨f, fs, hs⟩ := List.exists_cons_of_ne_nil hs
    exact ⟨_, _, rfl, by simp only [exec, execHsWrite, hq, hs]; rfl⟩
  · exact ⟨_, _, rfl, by simp only [exec, execBeEncode, hq]; rfl⟩
  · exact ⟨_, _, rfl, by simp only [exec, execSrDecode, hq]; rfl⟩
  · exact ⟨_, _, rfl, by simp only [exec, execClosing, hq]; rfl⟩

/-- Where the core is about to rewind or to read, its step is a transaction on IN. -/
theorem step_onInput {rest : List Turn} (hcore : s.coreNext rest) (h : s.AboutToUseIn) :
    ∃ k, step s = onInput { s with agenda := rest } k := by
  obtain ⟨i, k, hi, he⟩ := exec_onInput (s := { s with agenda := rest }) h
  exact ⟨k, (everyCoreStepIsAStepOfThePhasesOperation s rest i hcore hi).trans he⟩

/-- Where the core is about to write or to close, its step is a transaction on OUT. -/
theorem step_onOutput {rest : List Turn} (hcore : s.coreNext rest) (h : s.AboutToUseOut) :
    ∃ k, step s = onOutput { s with agenda := rest } k := by
  obtain ⟨i, k, hi, he⟩ := exec_onOutput (s := { s with agenda := rest }) h
  exact ⟨k, (everyCoreStepIsAStepOfThePhasesOperation s rest i hcore hi).trans he⟩

/-- Settles O51: a transaction on a channel that does not answer changes nothing. -/
theorem unansweredTransactionsWait : Obligations.UnansweredTransactionsWait := by
  unfold Obligations.UnansweredTransactionsWait
  refine ⟨fun s rest hcore => ⟨fun ha h => ?_, fun ha h => ?_⟩, fun s rest i o hr ha => step_turn ha hr⟩
  · obtain ⟨k, hk⟩ := step_onInput hcore <| by
      obtain h | h | h | h | h | ⟨i, h⟩ | h := h <;> simp [State.AboutToUseIn, h, Seq.readWidth]
    exact hk.trans (onInput_waits (s := { s with agenda := rest }) ha k)
  · obtain ⟨k, hk⟩ := step_onOutput hcore h
    exact hk.trans (onOutput_waits (s := { s with agenda := rest }) ha k)

/-! ### Where the core stops (R112, R205, R441, R716) -/

/-- A code table comes from a tree at ROOT with at most NODE_CAP nodes (R441). -/
theorem held_of_cgTable {st : Stores} {code : Vector Bits 257} (h : cgTable st = some code) :
    ∃ T : CodeTree, T.heldAt st.node st.root = true ∧ T.size ≤ 513 := by
  simp only [cgTable] at h
  split at h
  · rename_i x w m hx
    exact ⟨.leaf x, CodeTree.heldAt_leaf.mpr ⟨w, m, hx⟩, by simp only [CodeTree.size]; omega⟩
  · obtain ⟨Ts, hheld, hsize⟩ := CodeTree.held_of_cgWalk h
    cases hheld with
    | @cons T _ Us _ hT _ =>
      rw [List.map_cons, List.sum_cons, Config.nodeCap] at hsize
      exact ⟨T, hT, by omega⟩

/-- CG_GEN on a node store with no tree of at most NODE_CAP nodes at ROOT stops. -/
theorem exec_cgGen_noTree (h : s.seq = .codegen)
    (hT : ∀ T : CodeTree, T.heldAt s.stores.node s.stores.root = true → 513 < T.size) :
    exec .cgGen s = .fault .walkDoesNotEnd := by
  simp only [exec, execCgGen, h]
  split
  · rfl
  · rename_i code hc
    obtain ⟨T, hheld, hsize⟩ := held_of_cgTable hc
    exact absurd (hT T hheld) (by omega)

/-- Settles O48: the two faults of the core's turn. -/
theorem theStopsOfTheCore : Obligations.TheStopsOfTheCore := by
  unfold Obligations.TheStopsOfTheCore
  refine fun s rest hcore => ⟨fun ha hc h => ?_, fun hq hT => ?_⟩
  · obtain ⟨k, hk⟩ := step_onOutput hcore h
    exact hk.trans (onOutput_released (s := { s with agenda := rest }) ha hc k)
  · have hi : s.phase.operation = some .cgGen := by rw [State.phase, hq]; rfl
    rw [everyCoreStepIsAStepOfThePhasesOperation s rest .cgGen hcore hi]
    exact exec_cgGen_noTree (s := { s with agenda := rest }) hq hT

/-! ### An endless IN (R202, R527) -/

/-- The bits after those of an endless IN are as many as are asked for. -/
theorem length_bitsAfter {a : After} (p n : Nat) (h : a ≠ .eos) : (bitsAfter p n a).length = n := by
  rcases a with _ | _ | _
  · exact absurd rfl h
  · simp [bitsAfter]
  · simp [bitsAfter]

/-- The bits after those of a periodic IN are the period's, position for position. -/
theorem getElem?_bitsAfter_repeats {n k : Nat} (p : Nat) (b : Bool) (bs : Bits) (hk : k < n) :
    (bitsAfter p n (.repeats b bs))[k]? = (b :: bs)[(p + k) % (b :: bs).length]? := by
  have hlt : (p + k) % (b :: bs).length < (b :: bs).length := Nat.mod_lt _ (Nat.succ_pos _)
  rw [bitsAfter, List.getElem?_map, List.getElem?_range hk, List.getElem?_eq_getElem hlt]
  exact congrArg some (List.getD_eq_getElem _ _ hlt)

/-- Supplying bits leaves those there are and puts the new ones after them. -/
theorem unread_supply (n : Nat) (hc : s.input.ip ≤ s.input.bits.length) :
    (s.supply n).unread =
      s.unread ++ bitsAfter s.input.bits.length (s.input.ip + n - s.input.bits.length) s.input.after :=
  List.drop_append_of_le_length hc

/-- Settles O12: the read is answered from the bits supplied, and what the operation does next leaves IN and the history
alone. -/
theorem anEndlessInputNeverReportsEos : Obligations.AnEndlessInputNeverReportsEos := by
  unfold Obligations.AnEndlessInputNeverReportsEos
  intro s i n hne ha hi hn hc
  obtain ⟨j, k, hj, he, hk⟩ := exec_reading hn
  obtain rfl : j = i := Option.some.inj (hj.symm.trans hi)
  obtain ⟨t, ht, hsame⟩ := hk (some (valOf ((s.supply n).unread.take n)))
    ((s.supply n).takeBits n (valOf ((s.supply n).unread.take n)))
  have hlen := length_bitsAfter s.input.bits.length (s.input.ip + n - s.input.bits.length) hne
  refine ⟨t, _, ?_, ?_, ?_, hsame.input, fun b bs k' hr hk' => ?_⟩
  · rw [he, withRead, onInput_answers ha, State.readBits_endless n hne]
    exact ht
  · rw [hlen, State.length_unread]
    omega
  · rw [hsame.events, unread_supply n hc]
    rfl
  · rw [hlen] at hk'
    rw [hr]
    exact getElem?_bitsAfter_repeats _ b bs hk'

/-! ### Accesses the interface does not have (R210) -/

theorem issue_ne_badAccess {k : State → Result} (hk : k s ≠ .refused .badAccess) :
    issue s k ≠ .refused .badAccess := by
  unfold issue
  split
  · nofun
  · exact hk

theorem issueOnChannels_ne_badAccess {k : State → Result} (hk : k s ≠ .refused .badAccess) :
    issueOnChannels s k ≠ .refused .badAccess := by
  refine issue_ne_badAccess ?_
  split
  · nofun
  · exact hk

/-- A command may be refused, but not as a bad access. -/
theorem exec_command_ne_badAccess (w : Word) : exec (decodeCommand w) s ≠ .refused .badAccess := by
  unfold decodeCommand
  split_ifs <;> simp only [exec, execNop, execCompress, execDecompress, execIllegalCommand]
  · exact issue_ne_badAccess nofun
  · exact issueOnChannels_ne_badAccess nofun
  · exact issueOnChannels_ne_badAccess nofun
  · exact issue_ne_badAccess nofun

/-- An access whose own effect is no bad access is one exactly when it is not an aligned word (R210). -/
theorem onAccess_badAccess_iff {offset : BitVec 6} {bytes : Nat} {k : Result} (hk : k ≠ .refused .badAccess) :
    onAccess offset bytes k = .refused .badAccess ↔ bytes ≠ 4 ∨ offset.toNat % 4 ≠ 0 := by
  unfold onAccess
  split
  · exact ⟨fun h => absurd h hk, fun h => by omega⟩
  · exact ⟨fun _ => by omega, fun _ => rfl⟩

/-- Settles O9: neither a load nor what a store leads to is a bad access of its own. -/
theorem otherAccessesAreRefused : Obligations.OtherAccessesAreRefused := by
  unfold Obligations.OtherAccessesAreRefused
  rintro s rest offset bytes data (ha | ha) <;> simp only [step, ha, takeTurn]
  · exact onAccess_badAccess_iff nofun
  · refine onAccess_badAccess_iff ?_
    split
    · exact exec_command_ne_badAccess data
    · nofun

end Sys2Proof.Machine
end

section
/-! PROOFS. Every step keeps the invariant of Safety.lean (20_memory.md rule R201; 47_sequencer.md rules R541, R542, R551,
R552; 60_exceptions.md rules R600, R608; 70_reset_and_hazards.md rules R701, R718): first the cursor and the records that
operations raise, then the core's moves by what they do to PHASE, then the other turns. -/

namespace Sys2Proof.Machine

variable {s t : State} {p q : Phase} {op : BitVec 2}

/-! ### IN's cursor (R201) -/

/-- IN's cursor is inside the sequence. -/
def State.CursorInside (s : State) : Prop := s.input.ip ≤ s.input.bits.length

theorem SameChannels.cursorInside (h : SameChannels s t) (hc : s.CursorInside) : t.CursorInside := by
  rwa [State.CursorInside, h.input]

/-- Supplying bits keeps the cursor inside: the sequence only grows. -/
theorem cursorInside_supply (n : Nat) (hc : s.CursorInside) : (s.supply n).CursorInside := by
  have hl : s.input.bits.length ≤ (s.supply n).input.bits.length :=
    (List.prefix_append s.input.bits _).length_le
  exact hc.trans hl

/-- A read that is answered keeps the cursor inside: the bits it passes are there. -/
theorem cursorInside_read {n : Nat} (v : Nat) (hu : n ≤ (s.supply n).unread.length) (hc : s.CursorInside) :
    ((s.supply n).takeBits n v).CursorInside :=
  State.cursor_takeBits v hu (cursorInside_supply n hc)

/-- The place a reset puts the cursor at, though open, is inside (R702). -/
theorem cursorInside_resetBlock (hc : s.CursorInside) : s.resetBlock.CursorInside := by
  unfold State.resetBlock
  simp only
  split
  · exact Nat.lt_succ_iff.mp (Nat.mod_lt _ (Nat.succ_pos _))
  · exact hc

/-- The core's moves keep the cursor inside: what an engine does around its transaction leaves IN alone. -/
theorem coreMove_cursorInside (h : CoreMove s t) (hc : s.CursorInside) : t.CursorInside := by
  cases h with
  | wait | fcClear | tbFull | cgGen | hsBegin | hsMagic | hsDone | hdBegin | srBegin | srLiteral | close => exact hc
  | tbBuild _ st => exact (tbRoot_same { s with stores := st }).cursorInside hc
  | hsToken _ bits => exact (hsAdvance_same (s.writeBits bits)).cursorInside hc
  | beEmit x _ bits => exact (beEmitted_same x (s.writeBits bits)).cursorInside hc
  | beReset => exact Nat.zero_le _
  | fcByte _ v _ hu => exact (fcByte_same v _).cursorInside (cursorInside_read v hu hc)
  | beByte _ v _ hu => exact (beByte_same v _).cursorInside (cursorInside_read v hu hc)
  | hdMagic _ v _ hu => exact (hdMagic_same (some v) _).cursorInside (cursorInside_read v hu hc)
  | hdControl _ b hu => exact (hdControl_same b _).cursorInside (cursorInside_read b.toNat hu hc)
  | hdValue i _ v _ hu => exact (hdValue_same i v _).cursorInside (cursorInside_read v hu hc)
  | srMove _ b hu => exact (srMove_same b _).cursorInside (cursorInside_read b.toNat hu hc)
  | fcEnd | beEos => exact s.cursor_takeEos 8
  | hdMagicEos => exact s.cursor_takeEos 32
  | hdControlEos | srEos => exact s.cursor_takeEos 1
  | hdValueEos => exact s.cursor_takeEos 9

/-! ### The records that operations raise (R600) -/

/-- ERR holds a record of the error table that is not ILLEGAL_COMMAND's, which no operation raises (R600, R608). -/
def OperationError (s : State) : Prop := legalError s.errCode s.errCause = true ∧ s.errCode ≠ 7#8

/-- Taking an error of the table other than ILLEGAL_COMMAND. -/
theorem operationError_raise {e : ErrorName} {cause : BitVec 8} (h : legalError e.code cause = true ∧ e.code ≠ 7#8)
    (info : Word) (u : State) : OperationError (u.raise e cause info) := h

theorem fcByte_record (v : Nat) (s : State) : SameError s (fcByte v s) ∨ OperationError (fcByte v s) := by
  unfold fcByte
  split
  · exact .inr (operationError_raise (by decide) ..)
  · exact .inl (.refl s)

theorem beByte_record (v : Nat) (s : State) : SameError s (beByte v s) ∨ OperationError (beByte v s) := by
  unfold beByte
  split
  · exact .inr (operationError_raise (by decide) ..)
  · exact .inl (.refl s)

theorem hdMagic_record (m : Option Nat) (s : State) : SameError s (hdMagic m s) ∨ OperationError (hdMagic m s) := by
  unfold hdMagic
  split
  · exact .inr (operationError_raise (by decide) ..)
  · split
    · exact .inl (.refl s)
    · exact .inr (operationError_raise (by decide) ..)

theorem hdControl_record (b : Bool) (s : State) : SameError s (hdControl b s) ∨ OperationError (hdControl b s) := by
  unfold hdControl
  split
  · exact .inr (operationError_raise (by decide) ..)
  · split <;> exact .inl (.refl s)

theorem hdValue_record (i : NodeIdx) (v : Nat) (s : State) :
    SameError s (hdValue i v s) ∨ OperationError (hdValue i v s) := by
  unfold hdValue
  split
  · exact .inr (operationError_raise (by decide) ..)
  · exact .inl (.refl s)

/-- A move of the core that changes ERR records an error that an operation may raise. -/
theorem coreMove_record (h : CoreMove s t) : SameError s t ∨ OperationError t := by
  cases h with
  | wait | fcClear | fcEnd | cgGen | hsBegin | hsMagic | hsDone | beReset | beEos | hdBegin | srBegin | srLiteral | close =>
    exact .inl (.refl s)
  | tbBuild _ st => exact .inl (tbRoot_sameError { s with stores := st })
  | hsToken h bits => exact .inl (hsAdvance_advances (s := s.writeBits bits) (congrArg Seq.phase h)).1
  | beEmit x h bits => exact .inl (beEmitted_advances x (s := s.writeBits bits) (congrArg Seq.phase h)).1
  | srMove h b => exact .inl (srMove_advances b (s := (s.supply 1).takeBits 1 b.toNat) (congrArg Seq.phase h)).1
  | fcByte _ v => exact fcByte_record v ((s.supply 8).takeBits 8 v)
  | beByte _ v => exact beByte_record v ((s.supply 8).takeBits 8 v)
  | hdMagic _ v => exact hdMagic_record (some v) ((s.supply 32).takeBits 32 v)
  | hdMagicEos => exact hdMagic_record none (s.takeEos 32)
  | hdControl _ b => exact hdControl_record b ((s.supply 1).takeBits 1 b.toNat)
  | hdValue i _ v => exact hdValue_record i v ((s.supply 9).takeBits 9 v)
  | tbFull | hdControlEos | hdValueEos | srEos => exact .inr (operationError_raise (by decide) ..)

/-! ### Which command a phase belongs to (R541, R546, R549) -/

/-- OP names the command whose phase it is, as the invariant says it. -/
def OpNames (op : BitVec 2) (p : Phase) : Prop :=
  (p = .count ∨ p = .build ∨ p = .codegen ∨ p = .hdrWrite ∨ p = .bodyEnc → op = 1#2) ∧
    (p = .hdrRead ∨ p = .decode → op = 2#2) ∧ (p = .closing ∨ p = .done → op = 1#2 ∨ op = 2#2)

/-- PHASE moves on while a command runs, to another of its phases unless the command is in CLOSING, and stays with the same
command (R546, R549, R552). -/
theorem follows_command (hf : Phase.follows p q) :
    p.busy = true ∧ (q.busy = true ↔ p ≠ .closing) ∧ ∀ op, OpNames op p → OpNames op q := by
  simp only [Phase.follows, List.mem_cons, Prod.mk.injEq, List.not_mem_nil, or_false] at hf
  obtain ⟨rfl, rfl⟩ | ⟨rfl, rfl⟩ | ⟨rfl, rfl⟩ | ⟨rfl, rfl⟩ | ⟨rfl, rfl⟩ | ⟨rfl, rfl⟩ | ⟨rfl, rfl⟩ | ⟨rfl, rfl⟩ |
    ⟨rfl, rfl⟩ := hf <;> simp +contextual [Phase.busy, OpNames]

/-- CLOSING belongs to the command that runs (R551). -/
theorem opNames_closing (hb : p.busy = true) (h : OpNames op p) : OpNames op .closing := by
  unfold OpNames at *
  cases p <;> simp_all [Phase.busy]

/-! ### States that differ in what the invariant does not speak of -/

/-- The invariant holds where PHASE, OP and the error record are the same. -/
theorem State.Inv.of_same (hi : s.Inv) (hp : t.phase = s.phase) (ho : t.op = s.op) (he : SameError s t)
    (hr : t.rst = true → s.rst = true) (hc : t.CursorInside)
    (hs : t.busy = true → ∀ p, t.shown = some p → p ∈ Phase.ofCommand t.op) : t.Inv := by
  obtain ⟨hcode, hcause, hinfo⟩ := he
  refine ⟨hc, ?_, ?_, ?_, ?_, ?_, fun h => ?_, hs⟩
  · rw [hcode, hcause]; exact hi.legal
  · rw [State.busy, hp, hcode, hinfo]; exact hi.running
  · rw [hp, hcode]; exact hi.closing
  · rw [hp, hcode]; exact hi.ended
  · rw [hp, ho]; exact hi.command
  · rw [hp, ho, hcode, hcause, hinfo]; exact hi.reset (hr h)

/-- In IDLE the invariant speaks of the cursor, the record and the level of `rst` only. -/
theorem inv_of_idle (hp : s.phase = .idle) (hc : s.CursorInside) (hl : legalError s.errCode s.errCause = true)
    (hr : s.rst = true → s.op = 0#2 ∧ s.errCode = 0#8 ∧ s.errCause = 0#8 ∧ s.errInfo = 0#32) : s.Inv := by
  have hb : ¬s.busy = true := by rw [State.busy, hp]; decide
  refine ⟨hc, hl, fun h => absurd h hb, ?_, ?_, ?_, fun h => ⟨hp, hr h⟩, fun h => absurd h hb⟩ <;> rw [hp] <;> simp

/-! ### The core's moves -/

/-- A move of the core changes something only while a command runs. -/
theorem coreMove_busy (h : CoreMove s t) (hb : t.busy = true) : s.busy = true := by
  obtain ⟨-, hp | hf⟩ | ⟨hs, -⟩ := coreMove_progress h
  · rwa [State.busy, ← hp]
  · exact (follows_command hf).1
  · exact hs

/-- CLOSING ends in DONE without an error and in ERROR with one (R552). -/
theorem coreMove_ended (h : CoreMove s t) (hf : Phase.follows s.phase t.phase) :
    (t.phase = .done → t.errCode = 0#8) ∧ (t.phase = .error → t.errCode ≠ 0#8) := by
  by_cases hs : s.phase = .closing
  case neg =>
    have hb : t.busy = true := (follows_command hf).2.1.mpr hs
    unfold State.busy at hb
    constructor <;> intro hp <;> rw [hp] at hb <;> cases hb
  cases h with
  | wait => simp [Phase.follows, hs] at hf
  | close =>
    unfold finish
    split
    · exact ⟨fun _ => ‹_›, nofun⟩
    · exact ⟨nofun, fun _ => ‹_›⟩
  | _ => simp_all [State.phase, Seq.phase]

/-- PHASE moves on: a phase that still runs follows an operation that ended with no error recorded, and the command is the
same. -/
theorem inv_of_follows (hi : s.Inv) (hr : s.rst = false) (h : CoreMove s t) (hf : Phase.follows s.phase t.phase)
    (he : SameError s t)
    (hs : t.busy = true → ∀ p, t.shown = some p → p ∈ Phase.ofCommand t.op) : t.Inv := by
  obtain ⟨-, ho, hr', -, -⟩ := coreMove_keeps h
  obtain ⟨hb, hcl, hop⟩ := follows_command hf
  obtain ⟨hcode, hcause, hinfo⟩ := he
  have hrun (ht : t.busy = true) : t.errCode = 0#8 ∧ t.errInfo = 0#32 := by
    rw [hcode, hinfo]
    exact hi.running hb (hcl.mp ht)
  refine ⟨coreMove_cursorInside h hi.cursor, ?_, fun ht _ => hrun ht, fun hp => ?_, coreMove_ended h hf, ?_, ?_, hs⟩
  · rw [hcode, hcause]; exact hi.legal
  · rw [(hrun (by rw [State.busy, hp]; rfl)).1]; decide
  · rw [ho]; exact hop _ hi.command
  · rw [hr', hr]; nofun

/-- An operation raises an error: it ends in CLOSING, with a record of the table. -/
theorem inv_of_raises (hi : s.Inv) (hr : s.rst = false) (h : CoreMove s t) (hraise : Raises s t)
    (hs : t.busy = true → ∀ p, t.shown = some p → p ∈ Phase.ofCommand t.op) : t.Inv := by
  obtain ⟨-, ho, hr', -, -⟩ := coreMove_keeps h
  obtain ⟨hb, hp, hp', hne⟩ := hraise
  obtain ⟨hl, h7⟩ : OperationError t := (coreMove_record h).resolve_left fun he =>
    hne (he.1.trans (hi.running hb hp).1)
  refine ⟨coreMove_cursorInside h hi.cursor, hl, fun _ hn => absurd hp' hn, fun _ => h7, ?_, ?_, ?_, hs⟩
  · rw [hp']; exact ⟨nofun, nofun⟩
  · rw [ho, hp']; exact opNames_closing hb hi.command
  · rw [hr', hr]; nofun

theorem coreMove_inv (hi : s.Inv) (hr : s.rst = false) (h : CoreMove s t) : t.Inv := by
  obtain ⟨-, ho, hr', -, hshown⟩ := coreMove_keeps h
  have hs (hb : t.busy = true) : ∀ p, t.shown = some p → p ∈ Phase.ofCommand t.op := by
    rw [ho, hshown]
    exact hi.shown (coreMove_busy h hb)
  obtain ⟨he, hp | hf⟩ | hraise := coreMove_progress h
  · exact hi.of_same hp ho he (fun h => hr' ▸ h) (coreMove_cursorInside h hi.cursor) hs
  · exact inv_of_follows hi hr h hf he hs
  · exact inv_of_raises hi hr h hraise hs

/-! ### The other turns -/

/-- A command that is accepted starts with no error recorded and no phase shown (R541, R542). -/
theorem inv_startCommand (hc : s.CursorInside) (hr : s.rst = false) {q : Seq} (hq : OpNames op q.phase)
    (hp : q.phase ≠ .done ∧ q.phase ≠ .error) : ((s.startCommand op).goto q).Inv where
  cursor := hc
  legal := rfl
  running _ _ := ⟨rfl, rfl⟩
  closing _ := by rw [State.goto_errCode, State.startCommand_errCode]; decide
  ended := ⟨fun h => absurd h hp.1, fun h => absurd h hp.2⟩
  command := hq
  reset h := absurd (hr.symm.trans h) nofun
  shown _ _ := nofun

/-- An illegal command is recorded in ERROR, whatever its OP (R608). -/
theorem inv_illegalCommand (hc : s.CursorInside) (hr : s.rst = false) (w : Word) :
    (((s.startCommand op).setError .illegalCommand 0#8 w).goto .error).Inv where
  cursor := hc
  legal := rfl
  running := nofun
  closing := nofun
  ended := ⟨nofun, fun _ => ErrorName.code_ne_zero .illegalCommand⟩
  command := by simp [Seq.phase]
  reset h := absurd (hr.symm.trans h) nofun
  shown := nofun

theorem acknowledge_inv (hi : s.Inv) (hr : s.rst = false) : s.acknowledge.Inv := by
  unfold State.acknowledge
  split
  · exact inv_of_idle rfl hi.cursor hi.legal fun h => absurd (hr.symm.trans h) nofun
  · exact hi

/-- Reset makes the invariant hold in any state with the cursor inside (R700). -/
theorem resetBlock_inv (hc : s.CursorInside) : s.resetBlock.Inv :=
  inv_of_idle (congrArg Seq.phase s.resetBlock_seq) (cursorInside_resetBlock hc)
    (by rw [s.resetBlock_errCode, s.resetBlock_errCause]; rfl)
    fun _ => ⟨s.resetBlock_op, s.resetBlock_errCode, s.resetBlock_errCause, s.resetBlock_errInfo⟩

/-- A load keeps the invariant: a load of STATUS shows a phase of the running command (R718). -/
theorem loadReg_inv (hi : s.Inv) (offset : BitVec 6) : (s.loadReg offset).Inv := by
  have hp : (s.loadReg offset).phase = s.phase := congrArg Seq.phase (s.loadReg_seq offset)
  refine hi.of_same hp (s.loadReg_op offset) (loadReg_sameError s offset) (fun h => by rwa [s.loadReg_rst] at h)
    (by rw [State.CursorInside, s.loadReg_input]; exact hi.cursor) fun hb p hs => ?_
  rw [State.busy, hp] at hb
  rw [s.loadReg_op]
  by_cases h : offset = 0x04#6 ∧ s.busy = true
  · simp only [State.loadReg, if_pos h, Option.some.injEq] at hs
    exact hs ▸ (showable_suffix s).subset (shownPhase_mem hb (hi.shown hb))
  · simp only [State.loadReg, if_neg h] at hs
    exact hi.shown hb p hs

/-- The invariant does not speak of the agenda. -/
theorem State.Inv.with_agenda (hi : s.Inv) (agenda : List Turn) : { s with agenda := agenda }.Inv :=
  hi.of_same rfl rfl (.refl s) (fun h => h) hi.cursor hi.shown

theorem turnMove_inv {turn : Turn} (hi : s.Inv) (h : TurnMove s turn t) : t.Inv := by
  cases h with
  | core hr h => exact coreMove_inv hi hr h
  | held | ignored => exact hi
  | nop hr => exact acknowledge_inv hi hr
  | compress hr => exact inv_startCommand hi.cursor hr (by simp [OpNames, Seq.phase]) ⟨nofun, nofun⟩
  | decompress hr => exact inv_startCommand hi.cursor hr (by simp [OpNames, Seq.phase]) ⟨nofun, nofun⟩
  | illegal hr _ w => exact inv_illegalCommand hi.cursor hr w
  | load offset => exact loadReg_inv hi offset
  | waited => exact loadReg_inv hi 0x04#6
  | waiting => exact (loadReg_inv hi 0x04#6).with_agenda _
  | attach => exact hi.of_same rfl rfl (.refl s) (fun h => h) (Nat.zero_le _) hi.shown
  | channels => exact hi.of_same rfl rfl (.refl s) (fun h => h) hi.cursor hi.shown
  | rst asserted =>
    cases asserted with
    | false => exact hi.of_same rfl rfl (.refl s) nofun hi.cursor hi.shown
    | true => exact resetBlock_inv (s := { s with rst := true }) hi.cursor

/-- The state that `rst` forces keeps the invariant (R701). -/
theorem forced_inv (hi : s.Inv) : s.forced.Inv := by
  unfold State.forced
  split
  · exact resetBlock_inv hi.cursor
  · exact hi

/-- Settles O56, by cases on what a step can do. -/
theorem everyStepKeepsTheInvariant : Obligations.EveryStepKeepsTheInvariant := by
  unfold Obligations.EveryStepKeepsTheInvariant
  intro s t hi h
  obtain ⟨-, hr, hm⟩ | ⟨-, -, rfl⟩ | ⟨turn, rest, -, hm⟩ := step_move h
  · exact coreMove_inv hi hr hm
  · exact resetBlock_inv hi.cursor
  · exact turnMove_inv (forced_inv (hi.with_agenda rest)) hm

end Sys2Proof.Machine
end

section
/-! PROOFS. The decoder and the encoder undo each other (30_encoding.md rules R301 to R305; 10_state.md rule R104):
first each kind of field on its own, then every instruction in its space. -/

namespace Sys2Proof

variable {magic : Word} {i : Instr} {bits rest : Bits}

/-! ### Fields -/

/-- A field of `n` bits is the big-endian form of the value it is taken for, and that alone (R13). -/
theorem takeField_eq_ok_iff {n v : Nat} :
    takeField n bits = .ok (v, rest) ↔ v < 2 ^ n ∧ bits = bitsOf n v ++ rest := by
  constructor
  · intro h
    unfold takeField at h
    split at h <;> cases h
    have hl : (bits.take n).length = n := List.length_take_of_le (by omega)
    have hb := bitsOf_valOf (bits.take n)
    have hv := valOf_lt (bits.take n)
    rw [hl] at hb hv
    exact ⟨hv, by rw [hb, List.take_append_drop]⟩
  · rintro ⟨hv, rfl⟩
    have hl : ¬(bitsOf n v ++ rest).length < n := by simp
    simp only [takeField, hl, if_false, List.take_left' (length_bitsOf n v), List.drop_left' (length_bitsOf n v),
      valOf_bitsOf_of_lt hv]

theorem takeField_bitsOf {n v : Nat} (hv : v < 2 ^ n) (rest : Bits) :
    takeField n (bitsOf n v ++ rest) = .ok (v, rest) := takeField_eq_ok_iff.mpr ⟨hv, rfl⟩

/-! ### Command words (R301) -/

/-- A command word is the encoding of the instruction it decodes to: the words 0, 1 and 2 have one each, and any other
is the word of its illegal command. -/
theorem encode_decodeCommand (magic w : Word) : encode magic (decodeCommand w) = bitsOf 32 w.toNat := by
  unfold decodeCommand
  split_ifs with h0 h1 h2
  · rw [h0]; rfl
  · rw [h1]; rfl
  · rw [h2]; rfl
  · rfl

theorem inSpace_decodeCommand (w : Word) : (decodeCommand w).inSpace .command = true := by
  unfold decodeCommand
  split_ifs <;> rfl

theorem decodeCommand_of_ne {w : Word} (h0 : w ≠ 0#32) (h1 : w ≠ 1#32) (h2 : w ≠ 2#32) :
    decodeCommand w = .illegalCommand w := by
  simp [decodeCommand, h0, h1, h2]

theorem decode_command (magic w : Word) (rest : Bits) :
    decode magic .command (bitsOf 32 w.toNat ++ rest) = .ok (decodeCommand w, rest) := by
  simp only [decode, takeField_bitsOf w.isLt, BitVec.ofNat_toNat, BitVec.setWidth_eq]

theorem encode_of_decode_command (h : decode magic .command bits = .ok (i, rest)) :
    encode magic i ++ rest = bits ∧ i.inSpace .command = true := by
  simp only [decode] at h
  split at h <;> cases h
  obtain ⟨hv, rfl⟩ := takeField_eq_ok_iff.mp ‹_›
  rw [encode_decodeCommand, BitVec.toNat_ofNat, Nat.mod_eq_of_lt hv]
  exact ⟨rfl, inSpace_decodeCommand _⟩

/-- Settles O4: the four branches of the exact match. -/
theorem commandWordsDecodeByExactMatch : Obligations.CommandWordsDecodeByExactMatch := by
  unfold Obligations.CommandWordsDecodeByExactMatch
  intro w
  unfold decodeCommand
  split_ifs with h0 h1 h2 <;> simp_all

/-! ### Phases (R104) -/

theorem ofCode_code (p : Phase) : Phase.ofCode p.code.toNat = some p := by cases p <;> rfl

theorem ofCode_eq_some {v : Nat} {p : Phase} (h : Phase.ofCode v = some p) : v = p.code.toNat := by
  unfold Phase.ofCode at h
  split at h <;> cases h <;> rfl

/-- The operation of a phase is encoded as the phase, and stands in that space only. -/
theorem encode_operation {p : Phase} (h : p.operation = some i) :
    encode magic i = bitsOf 4 p.code.toNat ∧ ∀ sp, i.inSpace sp = decide (sp = .phase) := by
  cases p <;> cases h <;> exact ⟨rfl, fun _ => rfl⟩

theorem decodePhase_eq_ok_iff {v : Nat} :
    decodePhase v = .ok i ↔ ∃ p : Phase, v = p.code.toNat ∧ p.operation = some i := by
  unfold decodePhase
  constructor
  · intro h
    split at h
    · cases h
    · rename_i p hp
      split at h <;> cases h
      exact ⟨p, ofCode_eq_some hp, ‹_›⟩
  · rintro ⟨p, rfl, hi⟩
    simp [ofCode_code, hi]

theorem decode_operation {p : Phase} (h : p.operation = some i) {sp : Space} (hsp : i.inSpace sp = true) (rest : Bits) :
    decode magic sp (encode magic i ++ rest) = .ok (i, rest) := by
  obtain ⟨he, hs⟩ := encode_operation (magic := magic) h
  obtain rfl : sp = .phase := by simpa [hs] using hsp
  rw [he]
  simp only [decode, takeField_bitsOf p.code.isLt, decodePhase_eq_ok_iff.mpr ⟨p, rfl, h⟩]

theorem encode_of_decode_phase (h : decode magic .phase bits = .ok (i, rest)) :
    encode magic i ++ rest = bits ∧ i.inSpace .phase = true := by
  simp only [decode] at h
  split at h
  · cases h
  · split at h <;> cases h
    obtain ⟨-, rfl⟩ := takeField_eq_ok_iff.mp ‹_›
    obtain ⟨p, rfl, hi⟩ := decodePhase_eq_ok_iff.mp ‹_›
    obtain ⟨he, hs⟩ := encode_operation (magic := magic) hi
    exact ⟨by rw [he], by simp [hs]⟩

/-! ### The fields of a stream (R302, R303, R305) -/

theorem decodeToken_internal (rest : Bits) : decodeToken (false :: rest) = .ok (.hdrInternal, rest) := rfl

theorem decodeToken_leaf (v : BitVec 9) (rest : Bits) :
    decodeToken (true :: (bitsOf 9 v.toNat ++ rest)) = .ok (.hdrLeaf v, rest) := by
  simp only [decodeToken, takeField_bitsOf v.isLt, BitVec.ofNat_toNat, BitVec.setWidth_eq]

theorem encode_of_decodeToken (h : decodeToken bits = .ok (i, rest)) :
    encode magic i ++ rest = bits ∧ i.inSpace .headerToken = true := by
  unfold decodeToken at h
  split at h
  · cases h
  · cases h
    exact ⟨rfl, rfl⟩
  · split at h <;> cases h
    obtain ⟨hv, rfl⟩ := takeField_eq_ok_iff.mp ‹_›
    refine ⟨?_, rfl⟩
    simp only [encode, BitVec.toNat_ofNat, Nat.mod_eq_of_lt hv, List.cons_append]

theorem decodeMagic_encode (magic : Word) (rest : Bits) :
    decodeMagic magic (bitsOf 32 magic.toNat ++ rest) = .ok (.magic, rest) := by
  simp only [decodeMagic, takeField_bitsOf magic.isLt, if_true]

theorem encode_of_decodeMagic (h : decodeMagic magic bits = .ok (i, rest)) :
    encode magic i ++ rest = bits ∧ i.inSpace .magicField = true := by
  unfold decodeMagic at h
  split at h
  · cases h
  · split at h <;> cases h
    obtain ⟨-, rfl⟩ := takeField_eq_ok_iff.mp ‹_›
    subst_vars
    exact ⟨rfl, rfl⟩

/-- A whole code of a tree with more than one leaf is what a walk takes when it is given just that code (R305). -/
theorem isCode_node_iff {l r : CodeTree} {p : Bits} :
    (CodeTree.node l r).isCode p = true ↔ ∃ x, (CodeTree.node l r).walk p = .ok (p, x, []) := by
  simp only [CodeTree.isCode]
  constructor
  · intro h
    split at h
    · cases h
    · rename_i q x rest hw
      obtain rfl : rest = [] := List.isEmpty_iff.mp h
      obtain ⟨rfl, -⟩ := CodeTree.walk_append hw
      exact ⟨x, by simpa using hw⟩
  · rintro ⟨x, hw⟩
    simp only [hw]
    rfl

theorem decodeBody_code {t : CodeTree} {p : Bits} (h : t.isCode p = true) (rest : Bits) :
    decodeBody t (p ++ rest) = .ok (.bodyCode p, rest) := by
  cases t with
  | leaf x =>
    obtain ⟨b, rfl⟩ := List.length_eq_one_iff.mp (beq_iff_eq.mp h)
    rfl
  | node l r =>
    obtain ⟨x, hw⟩ := isCode_node_iff.mp h
    simp only [decodeBody, (CodeTree.walk_append hw).2 rest]

theorem encode_of_decodeBody {t : CodeTree} (h : decodeBody t bits = .ok (i, rest)) :
    encode magic i ++ rest = bits ∧ i.inSpace (.body t) = true := by
  cases t with
  | leaf x =>
    cases bits <;> cases h
    exact ⟨rfl, rfl⟩
  | node l r =>
    simp only [decodeBody] at h
    split at h <;> cases h
    obtain ⟨hb, hw⟩ := CodeTree.walk_append ‹_›
    exact ⟨hb, isCode_node_iff.mpr ⟨_, by simpa using hw []⟩⟩

/-! ### Every instruction -/

/-- Settles O1, by cases on the instruction: the space it stands in decodes its bits. -/
theorem decodeOfEncodeIsTheInstruction : Obligations.DecodeOfEncodeIsTheInstruction := by
  unfold Obligations.DecodeOfEncodeIsTheInstruction
  intro magic i sp rest hwf hsp
  cases i
  case nop => obtain rfl : sp = .command := of_decide_eq_true hsp; exact decode_command magic 0#32 rest
  case compress => obtain rfl : sp = .command := of_decide_eq_true hsp; exact decode_command magic 1#32 rest
  case decompress => obtain rfl : sp = .command := of_decide_eq_true hsp; exact decode_command magic 2#32 rest
  case illegalCommand w =>
    obtain rfl : sp = .command := of_decide_eq_true hsp
    obtain ⟨⟨h0, h1⟩, h2⟩ : (w ≠ 0#32 ∧ w ≠ 1#32) ∧ w ≠ 2#32 := by simpa [Instr.wf] using hwf
    rw [← decodeCommand_of_ne h0 h1 h2, encode_decodeCommand]
    exact decode_command magic w rest
  case hdrInternal => obtain rfl : sp = .headerToken := of_decide_eq_true hsp; exact decodeToken_internal rest
  case hdrLeaf v => obtain rfl : sp = .headerToken := of_decide_eq_true hsp; exact decodeToken_leaf v rest
  case magic => obtain rfl : sp = .magicField := of_decide_eq_true hsp; exact decodeMagic_encode magic rest
  case bodyCode p =>
    cases sp with
    | body t => exact decodeBody_code hsp rest
    | command | phase | magicField | headerToken => cases hsp
  case fcCount => exact decode_operation (p := .count) rfl hsp rest
  case tbBuild => exact decode_operation (p := .build) rfl hsp rest
  case cgGen => exact decode_operation (p := .codegen) rfl hsp rest
  case hsWrite => exact decode_operation (p := .hdrWrite) rfl hsp rest
  case beEncode => exact decode_operation (p := .bodyEnc) rfl hsp rest
  case hdRead => exact decode_operation (p := .hdrRead) rfl hsp rest
  case srDecode => exact decode_operation (p := .decode) rfl hsp rest
  case closing => exact decode_operation (p := .closing) rfl hsp rest

/-- Settles O2, by cases on the space. -/
theorem encodeOfDecodeIsTheBits : Obligations.EncodeOfDecodeIsTheBits := by
  unfold Obligations.EncodeOfDecodeIsTheBits
  intro magic sp bits rest i h
  cases sp with
  | command => exact encode_of_decode_command h
  | phase => exact encode_of_decode_phase h
  | magicField => exact encode_of_decodeMagic h
  | headerToken => exact encode_of_decodeToken h
  | body t => exact encode_of_decodeBody h

/-! ### Words of the table -/

/-- Settles O3: each of the words, evaluated. -/
theorem writtenOutWordsDecode : Obligations.WrittenOutWordsDecode := by
  unfold Obligations.WrittenOutWordsDecode
  exact ⟨rfl, rfl, rfl, rfl, rfl, rfl, rfl, rfl, rfl⟩

end Sys2Proof
end

section
/-! PROOFS. Fresh channels (70_reset_and_hazards.md rules R712, R716), and the walk of SR_DECODE down a tree
(46_symbol_recovery.md rules R521 to R523): single steps along a path, and BODY_CODE along the same path. -/

namespace Sys2Proof.Machine

variable {s : State}

/-- Settles O11, by cases on BUSY. -/
theorem attachGivesFreshChannels : Obligations.AttachGivesFreshChannels := by
  unfold Obligations.AttachGivesFreshChannels
  intro s rest first second shared hr ha
  rw [step_turn ha hr]
  exact ⟨fun hb => if_pos hb, fun hb => if_neg (Bool.eq_false_iff.mp hb)⟩

/-- With an empty agenda and `rst` deasserted a step is the operation that PHASE selects (R104). -/
theorem step_operation {i : Instr} (hag : s.agenda = []) (hrst : s.rst = false) (hi : s.phase.operation = some i) :
    step s = exec i s := by
  obtain ⟨j, hf, he⟩ := exec_fetch hi
  exact (step_fetch hag hrst hf).trans he

/-! ### SR_DECODE along a path -/

/-- A bit at the cursor: the step of SR_DECODE (R521). -/
theorem step_bit {b : Bool} {rest : Bits} (hq : s.seq = .decode .bit) (hag : s.agenda = []) (hrst : s.rst = false)
    (ha : s.input.answers = true) (hu : s.unread = b :: rest) : step s = .next (srMove b (s.takeBits 1 b.toNat)) := by
  have hi : s.phase.operation = some .srDecode := by simp only [State.phase, hq]; rfl
  exact (step_operation hag hrst hi).trans (exec_srDecode_bit hq ha hu)

/-- A bit that leads to an internal node moves DEC_CUR there (R521). -/
theorem srMove_internal {b : Bool} {n : NodeIdx} (hc : s.stores.child s.stores.decCur b = n) {w : Word} {m : CodeSymbol}
    {l r : NodeIdx} (hn : s.stores.node[n] = .internal w m l r) :
    srMove b s = { s with seq := .decode .bit, stores := { s.stores with decCur := n } } := by
  subst hc
  simp only [srMove, hn]
  rfl

/-- A bit that leads to a leaf ends the body at the EOF leaf (R522), and has the symbol of any other written next
(R523). -/
theorem srMove_leaf {b : Bool} {n : NodeIdx} (hc : s.stores.child s.stores.decCur b = n) {x m : CodeSymbol} {w : Word}
    (hn : s.stores.node[n] = .leaf x w m) :
    srMove b s = { s with
      seq := if x = eofSym then .closing else .decode (.literal x), stores := { s.stores with decCur := n } } := by
  subst hc
  simp only [srMove, hn]
  split <;> rfl

/-- The state in which SR_DECODE has read the bits of `path` down to the leaf of `x` at entry `n`. -/
def atLeaf (x : CodeSymbol) (n : NodeIdx) (path : Bits) (s : State) : State :=
  { s with
    seq := if x = eofSym then .closing else .decode (.literal x)
    stores := { s.stores with decCur := n }
    input := { s.input with ip := s.input.ip + path.length }
    events := s.events ++ path.map fun b => .rd 1 (some b.toNat) }

/-- A path of one bit. -/
theorem srMove_atLeaf {b : Bool} {n : NodeIdx} (hc : s.stores.child s.stores.decCur b = n) {x m : CodeSymbol} {w : Word}
    (hn : s.stores.node[n] = .leaf x w m) : srMove b (s.takeBits 1 b.toNat) = atLeaf x n [b] s :=
  srMove_leaf (s := s.takeBits 1 b.toNat) hc hn

/-- The state in which SR_DECODE has read one bit, to the internal node at entry `n`. -/
def atInner (n : NodeIdx) (b : Bool) (s : State) : State :=
  { s.takeBits 1 b.toNat with seq := .decode .bit, stores := { s.stores with decCur := n } }

theorem srMove_atInner {b : Bool} {n : NodeIdx} (hc : s.stores.child s.stores.decCur b = n) {w : Word} {m : CodeSymbol}
    {l r : NodeIdx} (hn : s.stores.node[n] = .internal w m l r) : srMove b (s.takeBits 1 b.toNat) = atInner n b s :=
  srMove_internal (s := s.takeBits 1 b.toNat) hc hn

theorem atLeaf_atInner (x : CodeSymbol) (n k : NodeIdx) (b : Bool) (path : Bits) (s : State) :
    atLeaf x n path (atInner k b s) = atLeaf x n (b :: path) s := by
  simp only [atLeaf, atInner, State.takeBits, State.record, List.length_cons, List.map_cons, List.append_assoc,
    List.cons_append, List.nil_append, Nat.add_assoc, Nat.add_comm 1]

/-- An empty path is the path of a tree that is one leaf. -/
theorem leaf_of_pathTo_nil {T : CodeTree} {x : CodeSymbol} (h : T.pathTo x = some []) : T = .leaf x := by
  cases T with
  | leaf y =>
    simp only [CodeTree.pathTo] at h
    split at h <;> cases h
    subst_vars
    rfl
  | node l r =>
    simp only [CodeTree.pathTo] at h
    split at h
    · cases h
    · split at h <;> cases h

/-- A path that is not empty takes its first bit to a child of the root, and goes on in the subtree held there. -/
theorem exists_child_of_pathTo {T : CodeTree} {n : NodeIdx} {x : CodeSymbol} {b : Bool} {path : Bits}
    (hp : T.pathTo x = some (b :: path)) {st : Stores} (h : T.heldAt st.node n = true) :
    (∃ w m a c, st.node[n] = .internal w m a c) ∧
      ∃ U : CodeTree, U.pathTo x = some path ∧ U.heldAt st.node (st.child n b) = true := by
  cases T with
  | leaf y =>
    simp only [CodeTree.pathTo] at hp
    split at hp <;> cases hp
  | node l r =>
    obtain ⟨w, m, a, c, hn, hl, hr⟩ := CodeTree.heldAt_node.mp h
    refine ⟨⟨w, m, a, c, hn⟩, ?_⟩
    simp only [Stores.child, hn]
    simp only [CodeTree.pathTo] at hp
    split at hp
    · cases hp
      exact ⟨r, ‹_›, hr⟩
    · split at hp <;> cases hp
      exact ⟨l, ‹_›, hl⟩

/-- SR_DECODE down the path of a symbol, in a subtree held at DEC_CUR that is more than a leaf: one step for each bit
leads to the symbol's leaf (R521), and the walk of BODY_CODE along the path leads there too, and writes a literal. -/
theorem decode_path {T : CodeTree} {x : CodeSymbol} {b : Bool} {path : Bits} (hq : s.seq = .decode .bit)
    (h : T.heldAt s.stores.node s.stores.decCur = true) (hp : T.pathTo x = some (b :: path)) :
    ∃ n : NodeIdx,
      (srWalk (b :: path) s =
        if x = eofSym then .next (atLeaf x n (b :: path) s) else srLiteral x (atLeaf x n (b :: path) s)) ∧
      ∀ rest : Bits, s.agenda = [] → s.rst = false → s.input.answers = true → s.unread = b :: path ++ rest →
        Sys2Proof.core.run (path.length + 1) s = .next (atLeaf x n (b :: path) s) := by
  induction path generalizing s T b with
  | nil =>
    obtain ⟨-, U, hU, hheld⟩ := exists_child_of_pathTo hp h
    obtain rfl := leaf_of_pathTo_nil hU
    obtain ⟨w, m, hn⟩ := CodeTree.heldAt_leaf.mp hheld
    have hmove := srMove_atLeaf (s := s) rfl hn
    refine ⟨s.stores.child s.stores.decCur b, ?_, fun rest hag hrst ha hu => ?_⟩
    · simp only [srWalk, hq, hmove]
      by_cases hx : x = eofSym
      · simp only [atLeaf, hx, if_true]
      · simp only [atLeaf, hx, if_false]
        rcases srLiteral x _ <;> rfl
    · rw [← hmove]
      exact run_one (step_bit hq hag hrst ha hu)
  | cons c path ih =>
    obtain ⟨-, U, hU, hheld⟩ := exists_child_of_pathTo hp h
    obtain ⟨⟨w, m, l, r, hn⟩, -⟩ := exists_child_of_pathTo hU hheld
    have hmove := srMove_atInner (s := s) rfl hn
    obtain ⟨n, hwalk, hrun⟩ := ih (s := atInner (s.stores.child s.stores.decCur b) b s) rfl hheld hU
    rw [atLeaf_atInner] at hwalk hrun
    refine ⟨n, ?_, fun rest hag hrst ha hu => ?_⟩
    · rw [← hwalk]
      conv_lhs => rw [srWalk]
      simp only [hq, hmove]
      rfl
    · rw [List.length_cons, run_succ _ (step_bit hq hag hrst ha hu), hmove]
      refine hrun rest hag hrst ha ?_
      rw [show (atInner _ b s).unread = s.unread.drop 1 from State.unread_takeBits s 1 b.toNat, hu]
      rfl

/-- Settles O43: the walk and the single steps lead to the same leaf, and the symbol's write follows. -/
theorem bodyCodeIsTheWalkOfItsBits : Obligations.BodyCodeIsTheWalkOfItsBits := by
  unfold Obligations.BodyCodeIsTheWalkOfItsBits
  intro s l r x path rest hq hag hrst hin hout hopen hheld hcur hp hx hu
  rcases path with _ | ⟨b, path⟩
  · cases leaf_of_pathTo_nil hp
  rw [← hcur] at hheld
  obtain ⟨n, hwalk, hrun⟩ := decode_path hq hheld hp
  have hwrite := srLiteral_open (s := atLeaf x n (b :: path) s) x hout hopen
  have hexec : exec (.bodyCode (b :: path)) s = srLiteral x (atLeaf x n (b :: path) s) := by
    rw [exec_bodyCode_read _ hq hin, hwalk, if_neg hx]
  have hseq : (atLeaf x n (b :: path) s).seq = .decode (.literal x) := if_neg hx
  constructor
  · rw [hexec, hwrite]
    simp only [srWritten, atLeaf, State.writeBits, State.record, State.goto, hcur, hq]
  · rw [List.length_cons, run_add (hrun rest hag hrst hin hu), hexec, hwrite]
    refine run_one ?_
    have hi : (atLeaf x n (b :: path) s).phase.operation = some .srDecode := by simp only [State.phase, hseq]; rfl
    rw [step_operation (s := atLeaf x n (b :: path) s) hag hrst hi, exec_srDecode_literal hseq, hwrite]

end Sys2Proof.Machine
end

section
/-! PROOFS. TB_BUILD builds the tree `build(FREQ)` (41_tree_builder.md rules R420 to R425): the merging of a list of
weighted subtrees, and the node store and the queue that follow it entry by entry. -/

namespace Sys2Proof

namespace Weighted

variable {q : List Weighted}

/-- The subtree that comes first and the others are the list (R422). -/
theorem first_perm {m : Weighted} {rest : List Weighted} (h : first q = some (m, rest)) : q.Perm (m :: rest) := by
  induction q generalizing m rest with
  | nil => cases h
  | cons x xs ih =>
    simp only [first] at h
    split at h
    · rename_i hn
      cases h
      cases xs with
      | nil => exact .refl _
      | cons y ys =>
        simp only [first] at hn
        split at hn
        · cases hn
        · split at hn <;> cases hn
    · rename_i m' r' hm
      split at h <;> cases h
      · exact (ih hm).cons x
      · exact ((ih hm).cons x).trans (.swap m x r')

theorem first_eq_none (h : first q = none) : q = [] := by
  cases q with
  | nil => rfl
  | cons x xs =>
    simp only [first] at h
    split at h
    · cases h
    · split at h <;> cases h

/-- One turn of the merging, if it has one: two subtrees of the list become one (R420). -/
theorem merge_succ_cases (n : Nat) (q : List Weighted) :
    (q.length ≤ 1 ∧ merge (n + 1) q = q) ∨
      ∃ a b q1 q2, first q = some (a, q1) ∧ first q1 = some (b, q2) ∧ q.Perm (a :: b :: q2) ∧
        merge (n + 1) q = merge n (a.join b :: q2) := by
  simp only [merge]
  split
  · rename_i h
    exact .inl ⟨by simp [first_eq_none h], rfl⟩
  · rename_i a q1 ha
    have hp := first_perm ha
    split
    · rename_i h
      exact .inl ⟨by simp [hp.length_eq, first_eq_none h], rfl⟩
    · rename_i b q2 hb
      exact .inr ⟨a, b, q1, q2, ha, hb, hp.trans ((first_perm hb).cons a), rfl⟩

/-- Merging keeps every sum over the subtrees to which a parent adds what its two children add: the leaves, the
occurrences of a symbol, the weights (R424, R425). -/
theorem sum_merge {M : Type} [AddCommMonoid M] {f : Weighted → M} (hf : ∀ a b, f (a.join b) = f a + f b) (n : Nat)
    (q : List Weighted) : ((merge n q).map f).sum = (q.map f).sum := by
  induction n generalizing q with
  | zero => rfl
  | succ n ih =>
    obtain ⟨-, h⟩ | ⟨a, b, q1, q2, -, -, hp, h⟩ := merge_succ_cases n q
    · rw [h]
    · rw [h, ih, (hp.map f).sum_eq]
      simp [hf, add_assoc]

/-- Merging as often as the list has subtrees leaves one of them (R420). -/
theorem length_merge {n : Nat} (hq : q ≠ []) (hn : q.length ≤ n + 1) : (merge n q).length = 1 := by
  induction n generalizing q with
  | zero =>
    have := List.length_pos_iff.mpr hq
    show q.length = 1
    omega
  | succ n ih =>
    obtain ⟨hl, h⟩ | ⟨a, b, q1, q2, -, -, hp, h⟩ := merge_succ_cases n q
    · have := List.length_pos_iff.mpr hq
      rw [h]
      omega
    · have hl := hp.length_eq
      simp only [List.length_cons] at hl
      rw [h]
      exact ih (by simp) (by simp only [List.length_cons]; omega)

/-- A leaf for each of the symbols that has a count (R420). -/
def leavesOf (freq : CodeSymbol → Word) (symbols : List CodeSymbol) : List Weighted :=
  symbols.filterMap fun s => if freq s = 0#32 then none else some ⟨freq s, s, .leaf s⟩

/-- What is left of the queue when the merging of R420 is over. -/
def merged (freq : CodeSymbol → Word) : List Weighted :=
  merge (leavesOf freq (List.finRange 257)).length (leavesOf freq (List.finRange 257)).reverse

variable {freq : CodeSymbol → Word}

theorem build_eq_merged (freq : CodeSymbol → Word) : CodeTree.build freq = (merged freq).head?.map tree := rfl

theorem leavesOf_cons_zero {x : CodeSymbol} {xs : List CodeSymbol} (h : freq x = 0#32) :
    leavesOf freq (x :: xs) = leavesOf freq xs := by simp [leavesOf, h]

theorem leavesOf_cons {x : CodeSymbol} {xs : List CodeSymbol} (h : freq x ≠ 0#32) :
    leavesOf freq (x :: xs) = ⟨freq x, x, .leaf x⟩ :: leavesOf freq xs := by simp [leavesOf, h]

theorem length_leavesOf_le (freq : CodeSymbol → Word) (xs : List CodeSymbol) : (leavesOf freq xs).length ≤ xs.length :=
  List.length_filterMap_le _ _

/-- A symbol stands in as many of the leaves as it is listed, if it has a count. -/
theorem sum_occurrences_leavesOf (x : CodeSymbol) (xs : List CodeSymbol) :
    ((leavesOf freq xs).map fun w => w.tree.occurrences x).sum = if freq x = 0#32 then 0 else xs.count x := by
  induction xs with
  | nil => simp [leavesOf]
  | cons y ys ih =>
    by_cases hy : freq y = 0#32
    · rw [leavesOf_cons_zero hy, ih]
      split
      · rfl
      · rw [List.count_cons_of_ne]
        rintro rfl
        contradiction
    · rw [leavesOf_cons hy, List.map_cons, List.sum_cons, ih]
      by_cases hxy : x = y
      · subst hxy
        simp [hy, CodeTree.occurrences, Nat.add_comm]
      · simp [CodeTree.occurrences, hxy, List.count_cons_of_ne (Ne.symm hxy)]

theorem sum_leaves_leavesOf (freq : CodeSymbol → Word) (xs : List CodeSymbol) :
    ((leavesOf freq xs).map fun w => w.tree.leaves).sum = (leavesOf freq xs).length := by
  induction xs with
  | nil => rfl
  | cons y ys ih =>
    by_cases hy : freq y = 0#32
    · rw [leavesOf_cons_zero hy, ih]
    · rw [leavesOf_cons hy, List.map_cons, List.sum_cons, ih, List.length_cons, Nat.add_comm]
      rfl

/-- With a count for EOF_SYM one subtree is left (R405, R420). -/
theorem merged_eq_singleton (h : freq eofSym ≠ 0#32) : ∃ w, merged freq = [w] := by
  refine List.length_eq_one_iff.mp (length_merge ?_ (by simp))
  intro hnil
  have hs := sum_occurrences_leavesOf (freq := freq) eofSym (List.finRange 257)
  rw [List.reverse_eq_nil_iff.mp hnil, if_neg h] at hs
  exact absurd (List.mem_finRange eofSym) (List.count_eq_zero.mp hs.symm)

/-- The merged tree holds each symbol with a count in one leaf, and no other symbol (R424). -/
theorem occurrences_of_merged {w : Weighted} (h : merged freq = [w]) (x : CodeSymbol) :
    w.tree.occurrences x = if freq x = 0#32 then 0 else 1 := by
  have hs := sum_merge (f := fun w => w.tree.occurrences x) (fun _ _ => rfl)
    (leavesOf freq (List.finRange 257)).length (leavesOf freq (List.finRange 257)).reverse
  rw [← merged, h, ((List.reverse_perm _).map _).sum_eq, sum_occurrences_leavesOf,
    List.count_eq_one_of_mem (List.nodup_finRange 257) (List.mem_finRange x)] at hs
  simpa using hs

end Weighted

namespace Machine.Stores

open Weighted

variable {st : Stores} {q : List Weighted}

/-- The entry `i` of NODE, already allocated, holds the weighted subtree `w` (R112). -/
structure HoldsAt (st : Stores) (i : NodeIdx) (w : Weighted) : Prop where
  lt : i.val < st.nodeCount.val
  weight : st.node[i].weight = w.weight
  minsym : st.node[i].minsym = w.minsym
  held : w.tree.heldAt st.node i = true

/-- NODE and PQ hold the subtrees of a list, each entry of PQ the one at its place, and NODE has no other entries. -/
structure Forest (st : Stores) (q : List Weighted) : Prop where
  entries : List.Forall₂ st.HoldsAt st.pq q
  closed : ClosedUnder st.node 0 st.nodeCount.val
  count : st.nodeCount.val = (q.map fun w => w.tree.size).sum

/-- Only NODE, NODE_COUNT and PQ differ. -/
def SameButTree (st st' : Stores) : Prop := st' = { st with node := st'.node, nodeCount := st'.nodeCount, pq := st'.pq }

theorem sameButTree_with (st : Stores) (node : Vector Node 513) (count : Fin 514) (pq : List NodeIdx) :
    st.SameButTree { st with node := node, nodeCount := count, pq := pq } := rfl

theorem SameButTree.trans {st st' st'' : Stores} (h : st.SameButTree st') (h' : st'.SameButTree st'') :
    st.SameButTree st'' := by
  unfold SameButTree at *
  rw [h', h]

/-- A node in the next free entry of NODE, and that entry in PQ (R113, R420). -/
def push (st : Stores) (h : st.nodeCount.val < 513) (n : Node) : Stores :=
  { st with
    node := st.node.set st.nodeCount.val n
    nodeCount := ⟨st.nodeCount.val + 1, by omega⟩
    pq := ⟨st.nodeCount.val, h⟩ :: st.pq }

theorem node_push_self (h : st.nodeCount.val < 513) (n : Node) :
    (st.push h n).node[(⟨st.nodeCount.val, h⟩ : NodeIdx)] = n := by simp [push]

theorem node_push_of_lt (h : st.nodeCount.val < 513) (n : Node) {i : NodeIdx} (hi : i.val < st.nodeCount.val) :
    (st.push h n).node[i] = st.node[i] := by
  have : st.nodeCount.val ≠ i.val := by omega
  simp [push, this]

/-- What an entry holds does not depend on PQ. -/
theorem holdsAt_pq {is : List NodeIdx} {i : NodeIdx} {w : Weighted} :
    ({ st with pq := is } : Stores).HoldsAt i w ↔ st.HoldsAt i w :=
  ⟨fun h => ⟨h.lt, h.weight, h.minsym, h.held⟩, fun h => ⟨h.lt, h.weight, h.minsym, h.held⟩⟩

/-- What an allocated entry holds is not touched by the next allocation. -/
theorem HoldsAt.push {i : NodeIdx} {w : Weighted} (hw : st.HoldsAt i w) (hc : ClosedUnder st.node 0 st.nodeCount.val)
    (h : st.nodeCount.val < 513) (n : Node) : (st.push h n).HoldsAt i w where
  lt := Nat.lt_succ_of_lt hw.lt
  weight := by rw [node_push_of_lt h n hw.lt, hw.weight]
  minsym := by rw [node_push_of_lt h n hw.lt, hw.minsym]
  held := CodeTree.heldAt_congr hc (fun _ hj => node_push_of_lt h n hj.2) ⟨Nat.zero_le _, hw.lt⟩ hw.held

theorem closed_push (hc : ClosedUnder st.node 0 st.nodeCount.val) (h : st.nodeCount.val < 513) {n : Node}
    (hn : ∀ w m a b, n = .internal w m a b → a.val < st.nodeCount.val ∧ b.val < st.nodeCount.val) :
    ClosedUnder (st.push h n).node 0 (st.push h n).nodeCount.val := by
  intro j w m a b hj he
  have hlt : j.val < st.nodeCount.val + 1 := hj.2
  show (0 ≤ a.val ∧ a.val < st.nodeCount.val + 1) ∧ 0 ≤ b.val ∧ b.val < st.nodeCount.val + 1
  rcases Nat.lt_or_ge j.val st.nodeCount.val with hjc | hjc
  · rw [node_push_of_lt h n hjc] at he
    have := hc j w m a b ⟨Nat.zero_le _, hjc⟩ he
    omega
  · obtain rfl : j = ⟨st.nodeCount.val, h⟩ := Fin.ext (by simp; omega)
    rw [node_push_self] at he
    have := hn w m a b he
    omega

/-- In a forest of strict binary trees NODE_COUNT is twice the leaves without the number of trees (R424). -/
theorem Forest.count_add_length (hf : st.Forest q) :
    st.nodeCount.val + q.length = 2 * (q.map fun w => w.tree.leaves).sum := by
  rw [hf.count]
  clear hf
  induction q with
  | nil => rfl
  | cons w q ih =>
    have := w.tree.size_add_one
    simp only [List.map_cons, List.sum_cons, List.length_cons]
    omega

/-! ### The queue (R422) -/

theorem before_eq {i j : NodeIdx} {v w : Weighted} (hv : st.HoldsAt i v) (hw : st.HoldsAt j w) :
    st.before i j = v.before w := by
  simp only [before, hv.weight, hv.minsym, hw.weight, hw.minsym]
  rfl

/-- PQ answers the entry of the subtree that comes first in the list. -/
theorem takeMin_first {is : List NodeIdx} (h : List.Forall₂ st.HoldsAt is q) :
    Option.Rel (fun p p' => st.HoldsAt p.1 p'.1 ∧ List.Forall₂ st.HoldsAt p.2 p'.2) (st.takeMin is) (first q) := by
  induction h with
  | nil => exact .none
  | cons hx hxs ih =>
    simp only [takeMin, first]
    generalize st.takeMin _ = o at ih
    generalize first _ = o' at ih
    cases ih with
    | none => exact .some ⟨hx, .nil⟩
    | some hm =>
      obtain ⟨hm, hrest⟩ := hm
      simp only [before_eq hx hm]
      split
      · exact .some ⟨hx, .cons hm hrest⟩
      · exact .some ⟨hm, .cons hx hrest⟩

theorem pqExtractMin_first (h : List.Forall₂ st.HoldsAt st.pq q) {w : Weighted} {rest : List Weighted}
    (hq : first q = some (w, rest)) :
    ∃ (i : NodeIdx) (is : List NodeIdx), st.pqExtractMin = some (i, { st with pq := is }) ∧ st.HoldsAt i w ∧
      List.Forall₂ st.HoldsAt is rest := by
  have hrel := takeMin_first h
  rw [hq] at hrel
  simp only [pqExtractMin]
  generalize st.takeMin st.pq = o at hrel
  cases hrel with
  | some hm => exact ⟨_, _, rfl, hm⟩

/-! ### The leaves (R420) -/

theorem tbLeaf_zero {x : CodeSymbol} (h : st.freq[x] = 0#32) : st.tbLeaf x = some st := if_pos h

theorem tbLeaf_push {x : CodeSymbol} (h : st.freq[x] ≠ 0#32) (hn : st.nodeCount.val < 513) :
    st.tbLeaf x = some (st.push hn (.leaf x st.freq[x] x)) := by
  simp only [tbLeaf, h, if_false, alloc_of_lt hn]
  rfl

theorem Forest.leaf (hf : st.Forest q) (x : CodeSymbol) (hn : st.nodeCount.val < 513) :
    (st.push hn (.leaf x st.freq[x] x)).Forest (⟨st.freq[x], x, .leaf x⟩ :: q) where
  entries := .cons
    ⟨Nat.lt_succ_self _, by rw [node_push_self]; rfl, by rw [node_push_self]; rfl,
      CodeTree.heldAt_leaf.mpr ⟨_, _, node_push_self hn _⟩⟩
    (hf.entries.imp fun _ _ h => h.push hf.closed hn _)
  closed := closed_push hf.closed hn (by simp)
  count := by
    show st.nodeCount.val + 1 = _
    rw [hf.count, List.map_cons, List.sum_cons, Nat.add_comm]
    rfl

theorem tbLeaves_forest {xs : List CodeSymbol} (hf : st.Forest q)
    (hl : (q.map fun w => w.tree.leaves).sum + xs.length ≤ 257) :
    ∃ st', st.tbLeaves xs = some st' ∧ st.SameButTree st' ∧
      st'.Forest ((leavesOf (fun x => st.freq[x]) xs).reverse ++ q) := by
  induction xs generalizing st q with
  | nil => exact ⟨st, rfl, rfl, hf⟩
  | cons x xs ih =>
    rw [List.length_cons] at hl
    by_cases hx : st.freq[x] = 0#32
    · rw [leavesOf_cons_zero hx]
      simp only [tbLeaves, tbLeaf_zero hx]
      exact ih hf (by omega)
    · have hn : st.nodeCount.val < 513 := by
        have := hf.count_add_length
        rcases q with _ | ⟨w, q⟩
        · simp at this; omega
        · simp only [List.length_cons] at this; omega
      obtain ⟨st', he, hs, hf'⟩ := ih (hf.leaf x hn) (by
        simp only [List.map_cons, List.sum_cons, CodeTree.leaves]; omega)
      rw [leavesOf_cons hx]
      refine ⟨st', ?_, (st.sameButTree_with _ _ _).trans hs, ?_⟩
      · simp only [tbLeaves, tbLeaf_push hx hn]
        exact he
      · rw [List.reverse_cons, List.append_assoc]
        exact hf'

/-! ### The merging (R420, R421, R425) -/

theorem tbMergeOnce_push {a b : NodeIdx} {st1 st2 : Stores} (ha : st.pqExtractMin = some (a, st1))
    (hb : st1.pqExtractMin = some (b, st2)) (hn : st.nodeCount.val < 513) :
    st.tbMergeOnce = some (({ st with pq := st2.pq } : Stores).push hn (st.parentOf a b)) := by
  obtain ⟨is, rfl⟩ : ∃ is, st1 = { st with pq := is } := ⟨_, (pqExtractMin_eq_some ha).2⟩
  obtain ⟨js, rfl⟩ : ∃ js, st2 = { st with pq := js } := ⟨_, (pqExtractMin_eq_some hb).2⟩
  simp only [tbMergeOnce, ha, hb, alloc_of_lt (st := { st with pq := js }) hn]
  rfl

theorem Forest.parent {a b : Weighted} {i j : NodeIdx} {is : List NodeIdx} {rest : List Weighted} (hf : st.Forest q)
    (hp : q.Perm (a :: b :: rest)) (ha : st.HoldsAt i a) (hb : st.HoldsAt j b)
    (hrest : List.Forall₂ st.HoldsAt is rest) (hn : st.nodeCount.val < 513) :
    (({ st with pq := is } : Stores).push hn (st.parentOf i j)).Forest (a.join b :: rest) := by
  have keep : ∀ {k : NodeIdx} {w : Weighted}, st.HoldsAt k w →
      (({ st with pq := is } : Stores).push hn (st.parentOf i j)).HoldsAt k w := fun h =>
    HoldsAt.push (st := { st with pq := is }) (holdsAt_pq.mpr h) hf.closed hn _
  refine ⟨.cons ⟨Nat.lt_succ_self _, ?_, ?_, ?_⟩ (hrest.imp fun _ _ => keep), ?_, ?_⟩
  · rw [node_push_self]
    show st.node[i].weight + st.node[j].weight = a.weight + b.weight
    rw [ha.weight, hb.weight]
  · rw [node_push_self]
    show min st.node[i].minsym st.node[j].minsym = min a.minsym b.minsym
    rw [ha.minsym, hb.minsym]
  · exact CodeTree.heldAt_node.mpr
      ⟨_, _, i, j, node_push_self (st := { st with pq := is }) hn _, (keep ha).held, (keep hb).held⟩
  · refine closed_push (st := { st with pq := is }) hf.closed hn fun w m k l h => ?_
    cases h
    exact ⟨ha.lt, hb.lt⟩
  · show st.nodeCount.val + 1 = _
    rw [hf.count, (hp.map _).sum_eq]
    simp only [List.map_cons, List.sum_cons, join, CodeTree.size]
    omega

theorem tbMerge_forest (n : Nat) (hf : st.Forest q) (hl : (q.map fun w => w.tree.leaves).sum ≤ 257) :
    ∃ st', st.tbMerge n = some st' ∧ st.SameButTree st' ∧ st'.Forest (merge n q) := by
  induction n generalizing st q with
  | zero => exact ⟨st, rfl, rfl, hf⟩
  | succ n ih =>
    have hlen := hf.entries.length_eq
    have hcount := hf.count_add_length
    obtain ⟨h1, h⟩ | ⟨a, b, q1, q2, ha, hb, hp, h⟩ := merge_succ_cases n q
    · rw [h]
      exact ⟨st, if_neg (by omega), rfl, hf⟩
    · have hql := hp.length_eq
      simp only [List.length_cons] at hql
      have hn : st.nodeCount.val < 513 := by omega
      obtain ⟨i, is, hi, hia, his⟩ := pqExtractMin_first hf.entries ha
      obtain ⟨j, js, hj, hjb, hjs⟩ := pqExtractMin_first (st := { st with pq := is })
        (his.imp fun _ _ => holdsAt_pq.mpr) hb
      have hf' := hf.parent hp hia (holdsAt_pq.mp hjb) (hjs.imp fun _ _ => holdsAt_pq.mp) hn
      obtain ⟨st', he, hs, hf''⟩ := ih hf' (by
        rw [(hp.map _).sum_eq] at hl
        simpa [join, CodeTree.leaves, Nat.add_assoc] using hl)
      rw [h]
      refine ⟨st', ?_, (st.sameButTree_with _ _ _).trans hs, hf''⟩
      simp only [tbMerge, show 1 < st.pq.length by omega, if_true, tbMergeOnce_push hi hj hn]
      exact he

/-- TB_BUILD never finds NODE full (R424), and its queue is what the merging of the counts leaves. -/
theorem tbForest_merged (st : Stores) :
    ∃ st', st.tbForest = some st' ∧ st.SameButTree st' ∧ st'.Forest (merged fun x => st.freq[x]) := by
  have h0 : ({ st with nodeCount := 0, pq := [] } : Stores).Forest [] :=
    ⟨.nil, fun j _ _ _ _ hj => absurd hj.2 (Nat.not_lt_zero _), rfl⟩
  obtain ⟨st1, he1, hs1, hf1⟩ := tbLeaves_forest (xs := List.finRange 257) h0 (by simp)
  rw [List.append_nil] at hf1
  have hlen := hf1.entries.length_eq
  rw [List.length_reverse] at hlen
  obtain ⟨st2, he2, hs2, hf2⟩ := tbMerge_forest (leavesOf (fun x => st.freq[x]) (List.finRange 257)).length hf1 (by
    rw [((List.reverse_perm _).map _).sum_eq, sum_leaves_leavesOf]
    exact (length_leavesOf_le _ _).trans (by simp))
  refine ⟨st2, ?_, ((st.sameButTree_with _ _ _).trans hs1).trans hs2, hf2⟩
  simp only [tbForest, he1, hlen]
  exact he2

end Machine.Stores

namespace Machine

variable {s : State}

/-- With a count for EOF_SYM, TB_BUILD leaves the merged tree of the counts at ROOT, as many allocated entries as it has
nodes, and PQ empty (R420, R424). -/
theorem exec_tbBuild_merged (hq : s.seq = .build) (he : s.stores.freq[eofSym] ≠ 0#32) :
    ∃ (w : Weighted) (node : Vector Node 513) (count : Fin 514) (root : NodeIdx),
      Weighted.merged (fun x => s.stores.freq[x]) = [w] ∧
      exec .tbBuild s = .next { s with
        seq := .codegen
        stores := { s.stores with node := node, nodeCount := count, root := root, pq := [] } } ∧
      w.tree.heldAt node root = true ∧ node[root].weight = w.weight ∧ count.val = w.tree.size := by
  obtain ⟨st, hforest, hsame, hf⟩ := s.stores.tbForest_merged
  obtain ⟨w, hw⟩ := Weighted.merged_eq_singleton (freq := fun x => s.stores.freq[x]) he
  rw [hw] at hf
  obtain ⟨root, is, hmin, hroot, his⟩ := Stores.pqExtractMin_first hf.entries (w := w) (rest := []) rfl
  cases his
  refine ⟨w, st.node, st.nodeCount, root, hw, ?_, hroot.held, hroot.weight, by simpa using hf.count⟩
  rw [exec_tbBuild hq hforest]
  simp only [tbRoot, hmin]
  rw [hsame]
  rfl

end Machine

end Sys2Proof
end

section
/-! PROOFS. The engines of COMPRESS, each over the whole of its work (40_frequency_counter.md rules R400 to R406;
42_code_table_generator.md rule R440; 43_header_serializer.md rules R460, R466; 44_body_encoder.md rules R480 to
R485). -/

namespace Sys2Proof

theorem symbolOf_byte (b : Byte) : (symbolOf b.toNat).val = b.toNat :=
  symbolOf_val_of_le (by omega)

theorem symbolOf_byte_ne_eofSym (b : Byte) : symbolOf b.toNat ≠ eofSym := by
  intro h
  have hv := congrArg Fin.val h
  rw [symbolOf_byte] at hv
  have : eofSym.val = 256 := rfl
  omega

/-- A symbol of the tree has a code, since only a tree that is one leaf has an empty path (R443, R444). -/
theorem CodeTree.codeOf_ne_nil {T : CodeTree} {x : CodeSymbol} (h : T.occurrences x ≠ 0) : T.codeOf x ≠ [] := by
  cases T with
  | leaf t =>
    by_cases hx : x = t
    · simp [codeOf, hx]
    · simp [occurrences, hx] at h
  | node l r =>
    obtain ⟨p, hp⟩ := Option.isSome_iff_exists.mp ((pathTo_isSome x _).mpr h)
    simp only [codeOf, hp, Option.getD_some]
    rintro rfl
    simp only [pathTo] at hp
    split at hp
    · cases hp
    · split at hp <;> cases hp

namespace Machine

variable {s : State}

/-! ### FC_COUNT -/

/-- The stores after a byte is counted (R402). -/
def Stores.countByte (b : Byte) (st : Stores) : Stores :=
  { st with
    freq := st.freq.set (symbolOf b.toNat).val (st.freq[symbolOf b.toNat] + 1#32)
    total := st.total + 1#32 }

theorem Stores.countByte_freq (b : Byte) (st : Stores) (x : CodeSymbol) :
    (st.countByte b).freq[x] = st.freq[x] + if b.toNat = x.val then 1#32 else 0#32 := by
  have hb := symbolOf_byte b
  split
  · have : symbolOf b.toNat = x := Fin.ext (by omega)
    subst this
    simp [countByte]
  · have : (symbolOf b.toNat).val ≠ x.val := by omega
    simp [countByte, this]

theorem fcByte_countByte (b : Byte) (h : s.stores.total ≠ Config.maxInput) :
    fcByte b.toNat s = { s with stores := s.stores.countByte b } := if_neg h

/-- FC_COUNT's loop over the bytes left: one step for each and one for EOS, and each byte that is read is counted (R402,
R405). -/
theorem run_fcLoop {S : List Byte} (hq : s.seq = .count .loop) (hag : s.agenda = []) (hrst : s.rst = false)
    (ha : s.input.answers = true) (hu : s.unread = bytesToBits S) (he : s.input.after = .eos)
    (hl : s.stores.total.toNat + S.length ≤ 2 ^ 32 - 2) :
    ∃ (f : Vector Word 257) (total : Word) (ip n : Nat) (es : List Event),
      Sys2Proof.core.run (S.length + 1) s = .next { s with
        seq := .build
        stores := { s.stores with freq := f, total := total }
        input := { s.input with ip := ip }
        events := es
        freeCount := n } ∧
      total.toNat = s.stores.total.toNat + S.length ∧ f[eofSym] = 1#32 ∧
      ∀ x : CodeSymbol, x ≠ eofSym →
        f[x] = s.stores.freq[x] + BitVec.ofNat 32 (S.countP fun b => decide (b.toNat = x.val)) := by
  have hi : s.phase.operation = some .fcCount := by simp only [State.phase, hq]; rfl
  induction S generalizing s with
  | nil =>
    refine ⟨_, _, _, _, _, run_one ((step_operation hag hrst hi).trans
      (exec_fcCount_eos hq ha he (by rw [hu]; decide))), rfl, by simp, fun x hx => ?_⟩
    have : eofSym.val ≠ x.val := fun h => hx (Fin.ext h.symm)
    simp [this]
  | cons b S ih =>
    rw [List.length_cons] at hl
    have hmax : s.stores.total ≠ Config.maxInput := by
      intro h
      rw [h] at hl
      have : Config.maxInput.toNat = 2 ^ 32 - 2 := rfl
      omega
    have hstep := (step_operation hag hrst hi).trans (exec_fcCount_byte hq ha hu)
    rw [fcByte_countByte (s := s.takeBits 8 b.toNat) b hmax] at hstep
    have hu' : (s.takeBits 8 b.toNat).unread = bytesToBits S := by
      rw [State.unread_takeBits, hu]
      exact List.drop_left' (length_bitsOf 8 b.toNat)
    have ht : (s.stores.countByte b).total.toNat = s.stores.total.toNat + 1 := by
      show (s.stores.total + 1#32).toNat = _
      rw [BitVec.toNat_add]
      exact Nat.mod_eq_of_lt (by simp; omega)
    obtain ⟨f, total, ip, n, es, hrun, htotal, hf, hfreq⟩ :=
      ih (s := { s.takeBits 8 b.toNat with stores := s.stores.countByte b }) hq hag hrst ha hu' he
        (by rw [ht]; omega) hi
    refine ⟨f, total, ip, n, es, (run_succ _ hstep).trans hrun, ?_, hf, fun x hx => ?_⟩
    · rw [htotal, ht, List.length_cons]
      omega
    · rw [hfreq x hx, Stores.countByte_freq, List.countP_cons, BitVec.ofNat_add, BitVec.add_assoc]
      by_cases hb : b.toNat = x.val
      · simp [hb, BitVec.add_comm]
      · simp [hb]

/-- FC_COUNT over a whole input of at most MAX_INPUT bytes: FREQ is `freq(S)`, and TOTAL the number of bytes (R406). -/
theorem run_fcCount {S : List Byte} (hq : s.seq = .count .start) (hag : s.agenda = []) (hrst : s.rst = false)
    (ha : s.input.answers = true) (hu : s.unread = bytesToBits S) (he : s.input.after = .eos)
    (hl : S.length ≤ 2 ^ 32 - 2) :
    ∃ (f : Vector Word 257) (total : Word) (ip n : Nat) (es : List Event),
      Sys2Proof.core.run (S.length + 2) s = .next { s with
        seq := .build
        stores := { s.stores with freq := f, total := total }
        input := { s.input with ip := ip }
        events := es
        freeCount := n } ∧
      total.toNat = S.length ∧ ∀ x : CodeSymbol, f[x] = freqOf S x := by
  have hi : s.phase.operation = some .fcCount := by simp only [State.phase, hq]; rfl
  have hstep := (step_operation hag hrst hi).trans (exec_fcCount_start hq)
  have htotal : (fcClear s).stores.total.toNat = 0 := rfl
  obtain ⟨f, total, ip, n, es, hrun, ht, hf, hfreq⟩ := run_fcLoop (s := fcClear s) rfl hag hrst ha hu he
    (by rw [htotal, Nat.zero_add]; exact hl)
  refine ⟨f, total, ip, n, es, (run_succ _ hstep).trans hrun, by rw [ht, htotal, Nat.zero_add], fun x => ?_⟩
  by_cases hx : x = eofSym
  · rw [hx, hf]
    rfl
  · rw [hfreq x hx, freqOf, if_neg hx]
    simp [fcClear]

/-! ### CG_GEN -/

/-- CG_GEN on a tree of at most NODE_CAP nodes held at ROOT fills the table with the codes of the tree (R440, R443,
R444). -/
theorem cgTable_held {st : Stores} {T : CodeTree} (h : T.heldAt st.node st.root = true) (hT : T.size ≤ 513) :
    ∃ code : Vector Bits 257, cgTable st = some code ∧ ∀ x : CodeSymbol, code[x] = T.codeOf x := by
  cases T with
  | leaf y =>
    obtain ⟨w, m, hn⟩ := CodeTree.heldAt_leaf.mp h
    refine ⟨(Vector.replicate 257 []).set y.val [false], by simp only [cgTable, hn], fun x => ?_⟩
    by_cases hx : x = y
    · simp [CodeTree.codeOf, hx]
    · have : y.val ≠ x.val := fun e => hx (Fin.ext e.symm)
      simp [CodeTree.codeOf, hx, this]
  | node l r =>
    obtain ⟨w, m, a, b, hn, -⟩ := CodeTree.heldAt_node.mp h
    have hwalk := CodeTree.cgWalk_held (f := ⟨st.root, none, []⟩) h (513 - (CodeTree.node l r).size) []
      (Vector.replicate 257 [])
    rw [Nat.sub_add_cancel hT, cgWalk] at hwalk
    refine ⟨_, by simp only [cgTable, hn]; exact hwalk, fun x => ?_⟩
    rw [CodeTree.fill_get, CodeTree.codeOf]
    cases (CodeTree.node l r).pathTo x <;> simp

/-! ### HS_WRITE -/

/-- HS_WRITE over a tree held at ROOT sends the magic and the whole tree in pre-order (R460, R466). -/
theorem run_hsWrite {T : CodeTree} (hq : s.seq = .hdrWrite .start) (hag : s.agenda = []) (hrst : s.rst = false)
    (ha : s.output.answers = true) (hc : s.output.closed = false) (h : T.heldAt s.stores.node s.stores.root = true) :
    ∃ es : List Event,
      Sys2Proof.core.run (T.size + 2) s = .next { s with
        seq := .bodyEnc .start
        output := { s.output with bits := s.output.bits ++ (bitsOf 32 s.id.toNat ++ T.serialize) }
        stores := { s.stores with stack := [] }
        events := es } := by
  have h1 : step s = .next (hsBegin s) :=
    (step_fetch hag hrst (by simp only [State.fetch, hq])).trans (exec_hsWrite_start hq)
  have h2 : step (hsBegin s) = .next (((hsBegin s).writeBits (bitsOf 32 s.id.toNat)).goto (.hdrWrite .token)) :=
    (step_fetch (s := hsBegin s) hag hrst rfl).trans (exec_magic_write (s := hsBegin s) rfl ha hc)
  obtain ⟨es, h3⟩ := run_tokens (s := ((hsBegin s).writeBits (bitsOf 32 s.id.toNat)).goto (.hdrWrite .token))
    (f := ⟨s.stores.root, none, []⟩) (fs := []) rfl hag hrst ha hc rfl h
  refine ⟨s.events ++ [.wr (bitsOf 32 s.id.toNat)] ++ es, ?_⟩
  rw [run_succ _ h1, run_succ _ h2, h3, ← List.append_assoc]
  rfl

/-! ### BE_ENCODE -/

/-- The code of the symbol at hand is sent (R482, R483). -/
theorem step_emit {x : CodeSymbol} (hq : s.seq = .bodyEnc (.emit x)) (hag : s.agenda = []) (hrst : s.rst = false)
    (hout : s.output.answers = true) (hopen : s.output.closed = false) :
    step s = .next (beEmitted x (s.writeBits s.stores.code[x])) :=
  (step_fetch hag hrst (by simp only [State.fetch, hq])).trans (exec_bodyCode_write _ hq hout hopen)

/-- A byte of the second pass that has a code: one step reads it, and one sends the code (R480, R482). -/
theorem run_beByte {b : Byte} {rest : Bits} (hq : s.seq = .bodyEnc .read) (hag : s.agenda = []) (hrst : s.rst = false)
    (hin : s.input.answers = true) (hout : s.output.answers = true) (hopen : s.output.closed = false)
    (hu : s.unread = bitsOf 8 b.toNat ++ rest) (hb : s.stores.code[symbolOf b.toNat] ≠ []) :
    Sys2Proof.core.run 2 s = .next
      (((s.takeBits 8 b.toNat).writeBits s.stores.code[symbolOf b.toNat]).goto (.bodyEnc .read)) := by
  have hi : s.phase.operation = some .beEncode := by simp only [State.phase, hq]; rfl
  have h1 := (step_operation hag hrst hi).trans (exec_beEncode_byte hq hin hu)
  rw [beByte, State.takeBits_stores, if_neg hb] at h1
  have h2 := step_emit (s := (s.takeBits 8 b.toNat).goto (.bodyEnc (.emit (symbolOf b.toNat)))) rfl hag hrst hout hopen
  rw [beEmitted, if_neg (symbolOf_byte_ne_eofSym b)] at h2
  exact (run_succ 1 h1).trans (run_one h2)

/-- BE_ENCODE's loop over the bytes left of the second pass, each with a code, appends their codes and the code of
EOF_SYM (R480, R482, R483). -/
theorem run_beLoop {S : List Byte} (hq : s.seq = .bodyEnc .read) (hag : s.agenda = []) (hrst : s.rst = false)
    (hin : s.input.answers = true) (hout : s.output.answers = true) (hopen : s.output.closed = false)
    (hu : s.unread = bytesToBits S) (he : s.input.after = .eos) (hS : ∀ b ∈ S, s.stores.code[symbolOf b.toNat] ≠ []) :
    ∃ (ip n : Nat) (es : List Event),
      Sys2Proof.core.run (2 * S.length + 2) s = .next { s with
        seq := .closing
        output := { s.output with
          bits := s.output.bits ++ (S.flatMap (fun b => s.stores.code[symbolOf b.toNat]) ++ s.stores.code[eofSym]) }
        input := { s.input with ip := ip }
        events := es
        freeCount := n } := by
  have hi : s.phase.operation = some .beEncode := by simp only [State.phase, hq]; rfl
  induction S generalizing s with
  | nil =>
    have h1 := (step_operation hag hrst hi).trans (exec_beEncode_eos hq hin he (by rw [hu]; decide))
    have h2 := step_emit (s := (s.takeEos 8).goto (.bodyEnc (.emit eofSym))) rfl hag hrst hout hopen
    exact ⟨_, _, _, (run_succ 1 h1).trans (run_one h2)⟩
  | cons b S ih =>
    have h1 := run_beByte hq hag hrst hin hout hopen hu (hS b (by simp))
    have hu' : (s.takeBits 8 b.toNat).unread = bytesToBits S := by
      rw [State.unread_takeBits, hu]
      exact List.drop_left' (length_bitsOf 8 b.toNat)
    obtain ⟨ip, n, es, h2⟩ :=
      ih (s := ((s.takeBits 8 b.toNat).writeBits s.stores.code[symbolOf b.toNat]).goto (.bodyEnc .read))
        rfl hag hrst hin hout hopen hu' he (fun c hc => hS c (List.mem_cons_of_mem b hc)) rfl
    refine ⟨ip, n, es, ?_⟩
    have hlen : 2 * (b :: S).length + 2 = 2 + (2 * S.length + 2) := by rw [List.length_cons]; omega
    rw [hlen, run_add h1, h2]
    simp only [State.goto_output, State.writeBits_output, State.takeBits_output, State.goto_stores,
      State.writeBits_stores, State.takeBits_stores, List.flatMap_cons, List.append_assoc]
    rfl

/-- BE_ENCODE over a second pass that delivers the bytes `S`, each with a code, rewinds, and appends the codes in order
and the code of EOF_SYM (R480 to R483). -/
theorem run_beEncode {S : List Byte} (hq : s.seq = .bodyEnc .start) (hag : s.agenda = []) (hrst : s.rst = false)
    (hin : s.input.answers = true) (hout : s.output.answers = true) (hopen : s.output.closed = false)
    (hrew : s.input.rewound = bytesToBits S) (he : s.input.rewoundAfter = .eos)
    (hS : ∀ b ∈ S, s.stores.code[symbolOf b.toNat] ≠ []) :
    ∃ (ip n : Nat) (es : List Event),
      Sys2Proof.core.run (2 * S.length + 3) s = .next { s with
        seq := .closing
        output := { s.output with
          bits := s.output.bits ++ (S.flatMap (fun b => s.stores.code[symbolOf b.toNat]) ++ s.stores.code[eofSym]) }
        input := { s.input with bits := s.input.rewound, after := s.input.rewoundAfter, ip := ip }
        events := es
        freeCount := n } := by
  have hi : s.phase.operation = some .beEncode := by simp only [State.phase, hq]; rfl
  have h1 := (step_operation hag hrst hi).trans (exec_beEncode_start hq hin)
  obtain ⟨ip, n, es, h2⟩ := run_beLoop (s := s.resetIn.goto (.bodyEnc .read)) rfl hag hrst hin hout hopen hrew he hS
  exact ⟨ip, n, es, (run_succ _ h1).trans h2⟩

end Machine

end Sys2Proof
end

section
/-! PROOFS. A whole COMPRESS (47_sequencer.md rules R544, R546, R552): the engines one after the other, from the
command's issue to its end. -/

namespace Sys2Proof

/-! ### The counts and the tree of an input (R406, R424) -/

variable {S : List Byte}

theorem freqOf_eofSym (S : List Byte) : freqOf S eofSym = 1#32 := if_pos rfl

theorem freqOf_byte (S : List Byte) (b : Byte) : freqOf S (symbolOf b.toNat) = BitVec.ofNat 32 (S.count b) := by
  have hp : (fun c : Byte => decide (c.toNat = (symbolOf b.toNat).val)) = (· == b) := by
    funext c
    rw [symbolOf_byte, Bool.eq_iff_iff, decide_eq_true_iff, beq_iff_eq, BitVec.toNat_inj]
  rw [freqOf, if_neg (symbolOf_byte_ne_eofSym b), hp]
  rfl

/-- A byte has the count 0 exactly when it is not in the input: at most MAX_INPUT bytes do not wrap a count around. -/
theorem freqOf_byte_eq_zero_iff (hl : S.length ≤ 2 ^ 32 - 2) (b : Byte) :
    freqOf S (symbolOf b.toNat) = 0#32 ↔ b ∉ S := by
  have hlt : S.count b < 2 ^ 32 := by have := List.count_le_length (a := b) (l := S); omega
  rw [freqOf_byte, ← BitVec.toNat_inj, BitVec.toNat_ofNat, Nat.mod_eq_of_lt hlt]
  exact List.count_eq_zero

/-- The tree of the counts of an input has one leaf for each byte of the input and one for EOF_SYM (R405, R424). -/
theorem occurrences_of_freqOf {w : Weighted} (hw : Weighted.merged (freqOf S) = [w]) (hl : S.length ≤ 2 ^ 32 - 2) :
    (∀ b : Byte, w.tree.occurrences (symbolOf b.toNat) = if b ∈ S then 1 else 0) ∧ w.tree.occurrences eofSym = 1 := by
  refine ⟨fun b => ?_, ?_⟩
  · rw [Weighted.occurrences_of_merged hw]
    by_cases hb : b ∈ S <;> simp [freqOf_byte_eq_zero_iff hl, hb]
  · rw [Weighted.occurrences_of_merged hw, freqOf_eofSym]
    rfl

namespace Machine

variable {s : State} {id : Word}

/-- What the engines of a COMPRESS of the bytes `S` keep to: the core has every step, both channels answer, OUT is open,
the second pass delivers `S` again, and no error is recorded. -/
structure Compressing (S : List Byte) (id : Word) (s : State) : Prop where
  agenda : s.agenda = []
  rst : s.rst = false
  inAnswers : s.input.answers = true
  outAnswers : s.output.answers = true
  outOpen : s.output.closed = false
  rewound : s.input.rewound = bytesToBits S
  rewoundAfter : s.input.rewoundAfter = .eos
  noError : s.errCode = 0#8 ∧ s.errCause = 0#8
  id : s.id = id

/-- No engine touches any of it. -/
theorem Compressing.after_engine (h : Compressing S id s) (q : Seq) (st : Stores) (bits : Bits) (after : After)
    (ip : Nat) (out : Bits) (es : List Event) (n : Nat) :
    Compressing S id { s with
      seq := q
      stores := st
      input := { s.input with bits := bits, after := after, ip := ip }
      output := { s.output with bits := out }
      events := es
      freeCount := n } :=
  ⟨h.agenda, h.rst, h.inAnswers, h.outAnswers, h.outOpen, h.rewound, h.rewoundAfter, h.noError, h.id⟩

/-- A store of the command word COMPRESS, with no command running (R540, R544). -/
theorem step_compress {rest : List Turn} (ha : s.agenda = .compress :: rest) (hr : s.rst = false) (hb : s.busy = false)
    (hs : s.shared = false) :
    step s = .next (({ s with agenda := rest }.startCommand 1#2).goto (.count .start)) := by
  rw [step_turn ha hr]
  have he : takeTurn .compress { s with agenda := rest } = exec .compress { s with agenda := rest } := if_pos ⟨rfl, hr⟩
  exact he.trans (exec_compress hb hs)

namespace Compressing

variable {T : CodeTree}

/-- The two lines of the host that attach `S` and issue the command. -/
theorem start (hb : s.busy = false) (hr : s.rst = false)
    (ha : s.agenda = [.attach (.of S) (.of S) false, .compress]) :
    ∃ t, Sys2Proof.core.run 2 s = .next t ∧ Compressing S s.id t ∧ t.seq = .count .start ∧
      t.unread = bytesToBits S ∧ t.input.after = .eos ∧ t.output.bits = [] := by
  have hattach := (attachGivesFreshChannels s _ _ _ _ hr ha).2 hb
  refine ⟨_, (run_succ 1 hattach).trans (run_one (step_compress rfl hr hb rfl)), ?_, rfl, rfl, rfl, rfl⟩
  exact ⟨rfl, hr, rfl, rfl, rfl, rfl, rfl, ⟨rfl, rfl⟩, rfl⟩

/-- FC_COUNT, the first pass over `S`. -/
theorem count (h : Compressing S id s) (hq : s.seq = .count .start) (hu : s.unread = bytesToBits S)
    (he : s.input.after = .eos) (hl : S.length ≤ 2 ^ 32 - 2) :
    ∃ t, Sys2Proof.core.run (S.length + 2) s = .next t ∧ Compressing S id t ∧ t.seq = .build ∧ t.output = s.output ∧
      ∀ x : CodeSymbol, t.stores.freq[x] = freqOf S x := by
  obtain ⟨f, total, ip, n, es, hrun, -, hf⟩ := run_fcCount hq h.agenda h.rst h.inAnswers hu he hl
  exact ⟨_, hrun, h.after_engine _ _ _ _ _ _ _ _, rfl, rfl, hf⟩

/-- TB_BUILD, with the counts of `S`. -/
theorem build (h : Compressing S id s) (hq : s.seq = .build) (hf : ∀ x : CodeSymbol, s.stores.freq[x] = freqOf S x) :
    ∃ (t : State) (w : Weighted), step s = .next t ∧ Compressing S id t ∧ t.seq = .codegen ∧ t.output = s.output ∧
      Weighted.merged (freqOf S) = [w] ∧ w.tree.heldAt t.stores.node t.stores.root = true ∧ w.tree.size ≤ 513 := by
  have hi : s.phase.operation = some .tbBuild := by simp only [State.phase, hq]; rfl
  have hfreq : (fun x : CodeSymbol => s.stores.freq[x]) = freqOf S := funext hf
  have heof : s.stores.freq[eofSym] ≠ 0#32 := by rw [hf, freqOf_eofSym]; decide
  obtain ⟨w, node, count, root, hw, hexec, hheld, -, hsize⟩ := exec_tbBuild_merged hq heof
  rw [hfreq] at hw
  exact ⟨_, w, (step_operation h.agenda h.rst hi).trans hexec, h.after_engine _ _ _ _ _ _ _ _, rfl, rfl, hw, hheld,
    by omega⟩

/-- CG_GEN, with a tree at ROOT. -/
theorem codes (h : Compressing S id s) (hq : s.seq = .codegen) (hT : T.heldAt s.stores.node s.stores.root = true)
    (hsize : T.size ≤ 513) :
    ∃ t, step s = .next t ∧ Compressing S id t ∧ t.seq = .hdrWrite .start ∧ t.output = s.output ∧
      T.heldAt t.stores.node t.stores.root = true ∧ ∀ x : CodeSymbol, t.stores.code[x] = T.codeOf x := by
  have hi : s.phase.operation = some .cgGen := by simp only [State.phase, hq]; rfl
  obtain ⟨code, htable, hcode⟩ := cgTable_held hT hsize
  exact ⟨_, (step_operation h.agenda h.rst hi).trans (exec_cgGen hq htable), h.after_engine _ _ _ _ _ _ _ _, rfl, rfl,
    hT, hcode⟩

/-- HS_WRITE, with a tree at ROOT. -/
theorem header (h : Compressing S id s) (hq : s.seq = .hdrWrite .start)
    (hT : T.heldAt s.stores.node s.stores.root = true) :
    ∃ t, Sys2Proof.core.run (T.size + 2) s = .next t ∧ Compressing S id t ∧ t.seq = .bodyEnc .start ∧
      t.output.bits = s.output.bits ++ (bitsOf 32 id.toNat ++ T.serialize) ∧ t.stores.code = s.stores.code := by
  obtain ⟨es, hrun⟩ := run_hsWrite hq h.agenda h.rst h.outAnswers h.outOpen hT
  exact ⟨_, hrun, h.after_engine _ _ _ _ _ _ _ _, rfl, by rw [← h.id], rfl⟩

/-- BE_ENCODE, the second pass over `S`, with a code for each of its bytes. -/
theorem body (h : Compressing S id s) (hq : s.seq = .bodyEnc .start)
    (hcode : ∀ x : CodeSymbol, s.stores.code[x] = T.codeOf x) (hS : ∀ b ∈ S, T.occurrences (symbolOf b.toNat) ≠ 0) :
    ∃ t, Sys2Proof.core.run (2 * S.length + 3) s = .next t ∧ Compressing S id t ∧ t.seq = .closing ∧
      t.output.bits = s.output.bits ++ T.body (S.map fun b => symbolOf b.toNat) := by
  obtain ⟨ip, n, es, hrun⟩ := run_beEncode hq h.agenda h.rst h.inAnswers h.outAnswers h.outOpen h.rewound
    h.rewoundAfter (fun b hb => by rw [hcode]; exact CodeTree.codeOf_ne_nil (hS b hb))
  refine ⟨_, hrun, h.after_engine _ _ _ _ _ _ _ _, rfl, ?_⟩
  simp only [hcode, CodeTree.body, List.flatMap_map]

/-- CLOSING, with no error recorded. -/
theorem close (h : Compressing S id s) (hq : s.seq = .closing) :
    ∃ t, step s = .next t ∧ t.phase = .done ∧ t.errWord = 0#32 ∧ t.output.closed = true ∧ t.agenda = [] ∧ t.id = id ∧
      t.output.bits = s.output.bits ++ List.replicate (padLength s.output.bits.length) false := by
  have hi : s.phase.operation = some .closing := by simp only [State.phase, hq]; rfl
  obtain ⟨hcode, hcause⟩ := h.noError
  refine ⟨_, (step_operation h.agenda h.rst hi).trans (exec_closing hq h.outAnswers h.outOpen), ?_, ?_, rfl, h.agenda,
    h.id, rfl⟩
  · simp [finish, hcode, Seq.phase]
  · simp [State.errWord, finish, hcode, hcause]

end Compressing

/-- Settles O59: the two lines of the host, and then the engines in order. -/
theorem compressWritesTheStream : Obligations.CompressWritesTheStream := by
  unfold Obligations.CompressWritesTheStream
  intro s S hb hr ha hl
  obtain ⟨s2, h2, c2, q2, hu, he, o2⟩ := Compressing.start hb hr ha
  obtain ⟨s3, h3, c3, q3, o3, hfreq⟩ := c2.count q2 hu he hl
  obtain ⟨s4, w, h4, c4, q4, o4, hw, hheld4, hsize⟩ := c3.build q3 hfreq
  obtain ⟨hbytes, heof⟩ := occurrences_of_freqOf hw hl
  obtain ⟨s5, h5, c5, q5, o5, hheld5, hcode⟩ := c4.codes q4 hheld4 hsize
  obtain ⟨s6, h6, c6, q6, o6, hcode6⟩ := c5.header q5 hheld5
  obtain ⟨s7, h7, c7, q7, o7⟩ := c6.body q6 (hcode6 ▸ hcode) (fun b hb => by rw [hbytes, if_pos hb]; decide)
  obtain ⟨t, h8, hdone, herr, hclosed, hagenda, hid, o8⟩ := c7.close q7
  have hrun := (run_add h2).trans ((run_add h3).trans ((run_succ _ h4).trans ((run_succ _ h5).trans
    ((run_add h6).trans ((run_add h7).trans (run_one h8))))))
  have hout : s7.output.bits =
      bitsOf 32 s.id.toNat ++ w.tree.serialize ++ w.tree.body (S.map fun b => symbolOf b.toNat) := by
    rw [o7, o6, o5, o4, o3, o2, List.nil_append]
  refine ⟨_, padLength s7.output.bits.length, t, w.tree, hrun, hdone, herr, hclosed, hagenda, hid, padLength_lt _, ?_,
    hbytes, heof, by rw [o8, hout], ?_⟩
  · rw [Weighted.build_eq_merged, hw]
    rfl
  · rw [o8, List.length_append, List.length_replicate]
    exact add_padLength_mod _

end Machine

end Sys2Proof
end

section
/-! PROOFS. The counting pass (40_frequency_counter.md rules R400 to R406): the clear, one byte, the end at EOS, and the
whole pass over an input. -/

namespace Sys2Proof.Machine

variable {s : State}

/-- The byte read at the bound is not counted: the command ends with INPUT_TOO_LONG, CAUSE 0 and INFO = TOTAL (R404). -/
theorem fcByte_maxInput (v : Nat) (h : s.stores.total = Config.maxInput) :
    fcByte v s = s.raise .inputTooLong 0#8 Config.maxInput := by
  unfold fcByte
  rw [if_pos h, h]

/-- A count grows exactly where the byte is the symbol's own (R402). -/
theorem Stores.countByte_freq_eq_ite (b : Byte) (st : Stores) (x : CodeSymbol) :
    (st.countByte b).freq[x] = if x.val = b.toNat then st.freq[x] + 1#32 else st.freq[x] := by
  rw [countByte_freq]
  by_cases hx : x.val = b.toNat
  · rw [if_pos hx, if_pos hx.symm]
  · rw [if_neg hx, if_neg (Ne.symm hx), BitVec.add_zero]

/-- At the end of the pass the terminator's count is 1 (R405). -/
theorem fcEnd_freq_eofSym (s : State) : (fcEnd s).stores.freq[eofSym] = 1#32 :=
  Vector.getElem_set_self eofSym.isLt

/-- The end of the pass leaves every other count as it is (R405). -/
theorem fcEnd_freq_of_ne {x : CodeSymbol} (h : x ≠ eofSym) : (fcEnd s).stores.freq[x] = s.stores.freq[x] :=
  Vector.getElem_set_ne eofSym.isLt x.isLt fun he => h (Fin.ext he.symm)

/-- Settles O17: the clear, a byte that is counted, and the byte at the bound. -/
theorem fcCountCountsAByte : Obligations.FcCountCountsAByte := by
  unfold Obligations.FcCountCountsAByte
  refine ⟨fun s hq => exec_fcCount_start hq, fun s b rest hq ha hu => ?_⟩
  have hexec := exec_fcCount_byte hq ha hu
  refine ⟨fun hne => ⟨(s.stores.countByte b).freq, ?_, s.stores.countByte_freq_eq_ite b⟩, fun hmax => ?_⟩
  · rwa [fcByte_countByte (s := s.takeBits 8 b.toNat) b hne] at hexec
  · rwa [fcByte_maxInput (s := s.takeBits 8 b.toNat) b.toNat hmax] at hexec

/-- Settles O18: the read answers EOS, and the pass ends. -/
theorem fcCountEndsWithTheTerminatorsCount : Obligations.FcCountEndsWithTheTerminatorsCount := by
  unfold Obligations.FcCountEndsWithTheTerminatorsCount
  intro s hq ha he hu
  exact ⟨_, _, _, s.cursor_takeEos 8, exec_fcCount_eos hq ha he hu, fcEnd_freq_eofSym (s.takeEos 8),
    fun _ hx => fcEnd_freq_of_ne (s := s.takeEos 8) hx⟩

/-- Settles O19: the whole pass, with `freq(S)` read at a byte and at EOF_SYM. -/
theorem fcCountCountsTheWholeInput : Obligations.FcCountCountsTheWholeInput := by
  unfold Obligations.FcCountCountsTheWholeInput
  intro s S hq hag hrst ha hu he hl
  obtain ⟨f, total, ip, n, es, hrun, htotal, hf⟩ := run_fcCount hq hag hrst ha hu he hl
  exact ⟨_, hrun, rfl, hag, fun b => (hf _).trans (freqOf_byte S b), (hf eofSym).trans (freqOf_eofSym S), htotal,
    rfl, rfl, rfl, rfl, rfl⟩

end Sys2Proof.Machine
end

section
/-! PROOFS. The statements about the tree builder (41_tree_builder.md): the order of the queue, the leaf and merge rules,
the frame of TB_BUILD, and what stands at ROOT. -/

namespace Sys2Proof

namespace Weighted

variable {freq : CodeSymbol → Word}

/-- The leaves weigh what the counts of their symbols sum up to: a symbol without a leaf has the count 0 (R420). -/
theorem sum_weight_leavesOf (xs : List CodeSymbol) : ((leavesOf freq xs).map weight).sum = (xs.map freq).sum := by
  induction xs with
  | nil => rfl
  | cons x xs ih =>
    by_cases hx : freq x = 0#32
    · rw [leavesOf_cons_zero hx, ih, List.map_cons, List.sum_cons, hx, BitVec.zero_add]
    · rw [leavesOf_cons hx, List.map_cons, List.sum_cons, ih, List.map_cons, List.sum_cons]

/-- The merged tree weighs the sum of the counts, in COUNT_WIDTH bits (R425). -/
theorem weight_of_merged {w : Weighted} (h : merged freq = [w]) : w.weight = ((List.finRange 257).map freq).sum := by
  have hs := sum_merge (f := weight) (fun _ _ => rfl) (leavesOf freq (List.finRange 257)).length
    (leavesOf freq (List.finRange 257)).reverse
  rw [← merged, h, ((List.reverse_perm _).map _).sum_eq, sum_weight_leavesOf] at hs
  simpa using hs

end Weighted

/-- A sum of words is the sum of their values, modulo 2^32. -/
theorem toNat_sum_words (ws : List Word) : ws.sum.toNat = (ws.map BitVec.toNat).sum % 2 ^ 32 := by
  induction ws with
  | nil => rfl
  | cons w ws ih => rw [List.sum_cons, BitVec.toNat_add, ih, Nat.add_mod_mod, List.map_cons, List.sum_cons]

/-- The entries of FREQ, read one symbol after the other. -/
theorem map_freq_finRange (freq : Vector Word 257) :
    (List.finRange 257).map (fun x : CodeSymbol => freq[x]) = freq.toList := by
  rw [← List.ofFn_eq_map, ← Vector.toList_ofFn]
  exact congrArg _ (Vector.ext fun i hi => by simp)

namespace Machine

namespace Stores

variable {st : Stores}

/-! ### The order of the queue (R422) -/

/-- What R422 orders the queue by: WEIGHT first, MINSYM second. -/
def priority (st : Stores) (i : NodeIdx) : Nat ×ₗ CodeSymbol := toLex (st.node[i].weight.toNat, st.node[i].minsym)

theorem priority_lt_iff {x y : NodeIdx} :
    st.priority x < st.priority y ↔ st.node[x].weight < st.node[y].weight ∨
      (st.node[x].weight = st.node[y].weight ∧ st.node[x].minsym < st.node[y].minsym) := by
  simp only [priority, Prod.Lex.toLex_lt_toLex, BitVec.toNat_inj, BitVec.lt_def]

theorem priority_eq_iff {x y : NodeIdx} :
    st.priority x = st.priority y ↔
      st.node[x].weight = st.node[y].weight ∧ st.node[x].minsym = st.node[y].minsym := by
  simp only [priority, toLex_inj, Prod.mk.injEq, BitVec.toNat_inj]

theorem before_iff_priority_lt {x y : NodeIdx} : st.before x y = true ↔ st.priority x < st.priority y := by
  rw [priority_lt_iff, before, decide_eq_true_iff]
  rfl

/-- No node left in the queue comes before the one taken out (R422). -/
theorem priority_takeMin_le {q rest : List NodeIdx} {m : NodeIdx} (h : st.takeMin q = some (m, rest)) :
    ∀ x ∈ rest, st.priority m ≤ st.priority x := by
  induction q generalizing m rest with
  | nil => cases h
  | cons y ys ih =>
    simp only [takeMin] at h
    split at h
    · cases h
      simp
    · rename_i m' r' hm
      have hle := ih hm
      split at h
      · rename_i hb
        have hlt := before_iff_priority_lt.mp hb
        cases h
        exact List.forall_mem_cons.mpr ⟨hlt.le, fun x hx => hlt.le.trans (hle x hx)⟩
      · rename_i hb
        cases h
        exact List.forall_mem_cons.mpr ⟨not_lt.mp (mt before_iff_priority_lt.mpr hb), hle⟩

theorem priority_pqExtractMin_le {st' : Stores} {m : NodeIdx} (h : st.pqExtractMin = some (m, st')) :
    ∀ x ∈ st'.pq, st.priority m ≤ st.priority x := by
  unfold pqExtractMin at h
  split at h
  · cases h
  · rename_i hm
    cases h
    exact priority_takeMin_le hm

end Stores

/-- `ROOT <- PQExtractMin()` writes PQ and ROOT only, and takes at most a free value (R420). -/
theorem tbRoot_frame (s : State) : ∃ (root : NodeIdx) (pq : List NodeIdx) (n : Nat),
    tbRoot s = { s with stores := { s.stores with root := root, pq := pq }, freeCount := n } := by
  unfold tbRoot
  split
  · rename_i r st h
    exact ⟨r, st.pq, s.freeCount, by rw [(Stores.pqExtractMin_eq_some h).2]⟩
  · exact ⟨_, _, _, rfl⟩

/-- Settles O20: the order of R422 is the linear order of the nodes' priorities. -/
theorem queueAnswersItsFirstNode : Obligations.QueueAnswersItsFirstNode := by
  unfold Obligations.QueueAnswersItsFirstNode
  intro st st' m h
  obtain ⟨hperm, hframe⟩ := Stores.pqExtractMin_eq_some h
  refine ⟨hperm, hframe, fun x hx => ?_⟩
  have hle := Stores.priority_pqExtractMin_le h x hx
  rw [← Stores.priority_lt_iff, ← Stores.priority_lt_iff, ← Stores.priority_eq_iff]
  exact ⟨hle.not_gt, fun hne => hle.lt_of_ne' hne⟩

/-- Settles O21: a node of either kind is pushed at the next free entry. -/
theorem theMergingRule : Obligations.TheMergingRule := by
  unfold Obligations.TheMergingRule
  refine ⟨fun st x hn => ?_, fun st st1 st2 a b hn ha hb => ?_⟩
  · split
    · rename_i hx
      exact Stores.tbLeaf_zero hx
    · rename_i hx
      exact Stores.tbLeaf_push hx hn
  · rw [Stores.tbMergeOnce_push ha hb hn, Stores.parentOf, min_def]
    rfl

/-- Settles O22: NODE is never full (R424), so the forest is built, and ROOT is taken from its queue. -/
theorem tbBuildAlwaysGoesOn : Obligations.TbBuildAlwaysGoesOn := by
  unfold Obligations.TbBuildAlwaysGoesOn
  intro s hq
  obtain ⟨st, hforest, hsame, -⟩ := s.stores.tbForest_merged
  obtain ⟨root, pq, n, hroot⟩ := tbRoot_frame { s with stores := st }
  refine ⟨st.node, st.nodeCount, root, pq, n, ?_⟩
  rw [exec_tbBuild hq hforest, hroot, hsame]
  rfl

/-- Settles O23: the one tree that the merging leaves. -/
theorem tbBuildsTheTreeOfTheCounts : Obligations.TbBuildsTheTreeOfTheCounts := by
  unfold Obligations.TbBuildsTheTreeOfTheCounts
  intro s hq he
  obtain ⟨w, node, count, root, hw, hexec, hheld, -, hcount⟩ := exec_tbBuild_merged hq he
  refine ⟨_, w.tree, hexec, hheld, ?_, Weighted.occurrences_of_merged hw, hcount, ?_, rfl⟩
  · rw [Weighted.build_eq_merged, hw]
    rfl
  · have := w.tree.size_add_one
    omega

/-- Settles O24: both trees are what the merging of the same counts leaves. -/
theorem theTreeDependsOnTheCountsOnly : Obligations.TheTreeDependsOnTheCountsOnly := by
  unfold Obligations.TheTreeDependsOnTheCountsOnly
  intro s u hs hu hfreq he
  obtain ⟨v, _, _, _, hv, hexecS, hheldS, -⟩ := exec_tbBuild_merged hs he
  obtain ⟨w, _, _, _, hw, hexecU, hheldU, -⟩ := exec_tbBuild_merged hu (hfreq ▸ he)
  obtain rfl : v = w := List.singleton_inj.mp (hv.symm.trans (hfreq ▸ hw))
  exact ⟨_, _, v.tree, hexecS, hexecU, hheldS, hheldU⟩

/-- Settles O25: the root weighs the sum of the counts modulo 2^32, which the premise makes the sum itself. -/
theorem rootWeighsTheSumOfTheCounts : Obligations.RootWeighsTheSumOfTheCounts := by
  unfold Obligations.RootWeighsTheSumOfTheCounts
  intro s hq he hlt
  obtain ⟨w, node, count, root, hw, hexec, -, hweight, -⟩ := exec_tbBuild_merged hq he
  refine ⟨_, hexec, ?_⟩
  calc node[root].weight.toNat
      = ((List.finRange 257).map fun x : CodeSymbol => s.stores.freq[x]).sum.toNat := by
        rw [hweight, Weighted.weight_of_merged hw]
    _ = (s.stores.freq.toList.map BitVec.toNat).sum % 2 ^ 32 := by rw [map_freq_finRange, toNat_sum_words]
    _ = (s.stores.freq.toList.map BitVec.toNat).sum := Nat.mod_eq_of_lt hlt

end Machine

end Sys2Proof
end

section
/-! PROOFS. CG_GEN's code table (42_code_table_generator.md rules R440 to R444): how long the codes of a tree are, and that
no code goes on from another one. -/

namespace Sys2Proof

namespace CodeTree

/-- A code has one bit, or fewer bits than the tree has leaves (R442, R443). -/
theorem length_codeOf_le (x : CodeSymbol) (T : CodeTree) : (T.codeOf x).length ≤ max 1 (T.leaves - 1) := by
  cases T with
  | leaf t => by_cases hx : x = t <;> simp [codeOf, hx]
  | node l r =>
    rw [codeOf]
    rcases hp : (node l r).pathTo x with _ | p
    · exact Nat.zero_le _
    · have := length_pathTo hp
      rw [Option.getD_some]
      omega

/-- A code that goes on from another one is the code of the same symbol (R442). -/
theorem eq_of_codeOf_prefix {x y : CodeSymbol} {T : CodeTree} (hx : T.codeOf x ≠ []) (hy : T.codeOf y ≠ [])
    (h : T.codeOf x <+: T.codeOf y) : x = y := by
  cases T with
  | leaf t =>
    have only {z : CodeSymbol} (hz : (leaf t).codeOf z ≠ []) : z = t := by_contra fun hne => hz (if_neg hne)
    exact (only hx).trans (only hy).symm
  | node l r =>
    simp only [codeOf] at hx hy h
    rcases hp : (node l r).pathTo x with _ | p
    · exact absurd (by rw [hp]; rfl) hx
    · rcases hq : (node l r).pathTo y with _ | q
      · exact absurd (by rw [hq]; rfl) hy
      · rw [hp, hq] at h
        exact pathTo_prefix hp hq h

end CodeTree

namespace Machine

/-- Settles O26: the table of a tree held at ROOT, by the visits of the walk. -/
theorem cgGenAssignsThePaths : Obligations.CgGenAssignsThePaths := by
  unfold Obligations.CgGenAssignsThePaths
  intro s T hq hheld hsize
  obtain ⟨code, htable, hcode⟩ := cgTable_held hheld hsize
  exact ⟨code, exec_cgGen hq htable, hcode⟩

/-- Settles O27: the table holds the codes of a tree of at most 257 leaves, whose paths end at leaves. -/
theorem codesArePrefixFree : Obligations.CodesArePrefixFree := by
  unfold Obligations.CodesArePrefixFree
  intro s t T hq hheld hsize hexec
  obtain ⟨code, hnext, hcode⟩ := cgGenAssignsThePaths s T hq hheld hsize
  obtain rfl := Host.Outcome.next.inj (hnext.symm.trans hexec)
  have hleaves := T.size_add_one
  refine ⟨fun x => ?_, fun x y hne hx hy hpre => hne ?_⟩
  · have := T.length_codeOf_le x
    simp only [hcode]
    omega
  · simp only [hcode] at hx hy hpre
    exact CodeTree.eq_of_codeOf_prefix hx hy hpre

end Machine

end Sys2Proof
end

section
/-! PROOFS. The statements about the header serializer (43_header_serializer.md): the start of the walk, the magic and the
two tokens, the whole serialization, and its length (R460 to R462, R466). -/

namespace Sys2Proof

/-- A leaf takes 10 bits and an internal node takes one, and a tree of `L` leaves has `L - 1` internal nodes (R462). -/
theorem CodeTree.length_serialize_add_one (T : CodeTree) : T.serialize.length + 1 = 11 * T.leaves := by
  induction T with
  | leaf x => simp [serialize, leaves]
  | node l r ihl ihr =>
    simp only [serialize, leaves, List.length_cons, List.length_append]
    omega

namespace Machine

variable {s : State} {f : Frame} {fs : List Frame} {w : Word} {m : CodeSymbol}

/-- After an internal node its left subtree comes next, then its right one (R460, R461). -/
theorem hsAdvance_internal {l r : NodeIdx} (hs : s.stores.stack = f :: fs)
    (hn : s.stores.node[f.node] = .internal w m l r) :
    hsAdvance s =
      { s with stores := { s.stores with stack := ⟨l, none, []⟩ :: ⟨r, none, []⟩ :: fs } }.goto (.hdrWrite .token) := by
  simp [hsAdvance, hs, Stores.children, hn]

/-- After a leaf the rest of STACK is left, and at its end the body encoder comes next (R460, R546). -/
theorem hsAdvance_leaf {x : CodeSymbol} (hs : s.stores.stack = f :: fs) (hn : s.stores.node[f.node] = .leaf x w m) :
    hsAdvance s = { s with stores := { s.stores with stack := fs } }.goto
      (if fs.isEmpty then .bodyEnc .start else .hdrWrite .token) := by
  simp [hsAdvance, hs, Stores.children, hn, Seq.begin]

/-- A symbol fits the 9 bits of a leaf's value (R303). -/
theorem toNat_ofNat_codeSymbol (x : CodeSymbol) : (BitVec.ofNat 9 x.val).toNat = x.val :=
  Nat.mod_eq_of_lt (by omega)

/-- Settles O28: the start, the magic, and what each of the two tokens sends and leaves on STACK. -/
theorem hsWriteSendsTheMagicAndTheTokens : Obligations.HsWriteSendsTheMagicAndTheTokens := by
  unfold Obligations.HsWriteSendsTheMagicAndTheTokens
  refine ⟨fun s hq => exec_hsWrite_start hq, fun s hq ha hc => exec_magic_write hq ha hc,
    fun s f fs w m l r hq ha hc hs hn => ?_, fun s f fs x w m hq ha hc hs hn => ?_⟩
  · rw [exec_hdrInternal_write hq ha hc, hsAdvance_internal (s := s.writeBits [false]) hs hn, ← hq]
    rfl
  · rw [exec_hdrLeaf_write _ hq ha hc, toNat_ofNat_codeSymbol,
      hsAdvance_leaf (s := s.writeBits (true :: bitsOf 9 x.val)) hs hn]
    rfl

/-- Settles O29: the start, the magic, and the walk over the tree, whose induction is `run_tokens`. -/
theorem hsWriteSerializesTheTree : Obligations.HsWriteSerializesTheTree := by
  unfold Obligations.HsWriteSerializesTheTree
  exact fun s T hq hag hrst ha hc hheld => run_hsWrite hq hag hrst ha hc hheld

/-- Settles O30: the length of the tree's part, by induction on the tree, and the 32 bits of the magic. -/
theorem headerLengthFollowsTheLeaves : Obligations.HeaderLengthFollowsTheLeaves := by
  unfold Obligations.HeaderLengthFollowsTheLeaves
  intro T magic
  have hT := T.length_serialize_add_one
  simp only [List.length_append, length_bitsOf]
  omega

end Machine

end Sys2Proof
end

section
/-! PROOFS. The statements about the body encoder (44_body_encoder.md): the rewind and what a read leads to, a code that is
sent, and the whole body (R480 to R484). -/

namespace Sys2Proof.Machine

variable {s : State} {v : Nat}

/-- A byte with a code is emitted next (R480). -/
theorem beByte_of_code (h : s.stores.code[symbolOf v] ≠ []) :
    beByte v s = s.goto (.bodyEnc (.emit (symbolOf v))) := if_neg h

/-- A byte without a code ends the command with INPUT_MISMATCH, CAUSE 0 and INFO = the byte (R484). -/
theorem beByte_of_noCode (h : s.stores.code[symbolOf v] = []) :
    beByte v s = s.raise .inputMismatch 0#8 (BitVec.ofNat 32 v) := if_pos h

/-- After the code of EOF_SYM the body is over, and after a literal's the next byte is read (R483, R546). -/
theorem beEmitted_eq_goto (x : CodeSymbol) (s : State) :
    beEmitted x s = s.goto (if x.val = 256 then .closing else .bodyEnc .read) := by
  unfold beEmitted
  by_cases hx : x.val = 256
  · rw [if_pos hx, if_pos (Fin.ext hx : x = eofSym)]
    rfl
  · rw [if_neg hx, if_neg fun h : x = eofSym => hx (congrArg Fin.val h)]

/-- Settles O33: the rewind, and the loop over the bytes, whose induction is `run_beLoop`. -/
theorem beEncodeWritesTheBody : Obligations.BeEncodeWritesTheBody := by
  unfold Obligations.BeEncodeWritesTheBody
  intro s S hq hag hrst hin hout hopen hrew he hS
  obtain ⟨ip, n, es, hrun⟩ := run_beEncode hq hag hrst hin hout hopen hrew he hS
  exact ⟨_, hrun, rfl, hag, rfl, rfl, rfl, rfl, rfl, rfl⟩

/-- Settles O31: the rewind, a byte with a code and one without, and EOS. -/
theorem beEncodeRewindsAndReads : Obligations.BeEncodeRewindsAndReads := by
  unfold Obligations.BeEncodeRewindsAndReads
  refine ⟨fun s hq ha => exec_beEncode_start hq ha, fun s b rest hq ha hu => ?_, fun s hq ha he hu =>
    ⟨_, _, s.cursor_takeEos 8, exec_beEncode_eos hq ha he hu⟩⟩
  have hexec := exec_beEncode_byte hq ha hu
  refine ⟨fun hcode => ?_, fun hcode => ?_⟩
  · rwa [beByte_of_code (s := s.takeBits 8 b.toNat) hcode] at hexec
  · rwa [beByte_of_noCode (s := s.takeBits 8 b.toNat) hcode] at hexec

/-- Settles O32: the write of the path, and what follows the symbol's code. -/
theorem bodyCodeIsSent : Obligations.BodyCodeIsSent := by
  unfold Obligations.BodyCodeIsSent
  intro s x path hq ha hc
  rw [exec_bodyCode_write path hq ha hc, beEmitted_eq_goto]
  rfl

end Sys2Proof.Machine
end

section
/-! PROOFS. The statements about the header deserializer (45_header_deserializer.md): the magic, the control bits, the
values of leaves, a header that ends early, and the whole tree (R500 to R508). -/

namespace Sys2Proof.Machine

variable {s : State}

/-! ### The magic (R506) -/

/-- MAGIC lets the deserializer go on (R500). -/
theorem hdMagic_id (s : State) : hdMagic (some s.id.toNat) s = s.goto (.hdrRead .control) := if_pos rfl

/-- Another word is BAD_MAGIC, CAUSE 0, with the word read (R506). -/
theorem hdMagic_of_ne {w : Word} (h : w ≠ s.id) : hdMagic (some w.toNat) s = s.raise .badMagic 0#8 w := by
  have hne : w.toNat ≠ s.id.toNat := fun he => h (BitVec.eq_of_toNat_eq he)
  simp only [hdMagic, if_neg hne, BitVec.ofNat_toNat, BitVec.setWidth_eq]

/-- Settles O34: the start, MAGIC, another word, and EOS. -/
theorem hdReadChecksTheMagic : Obligations.HdReadChecksTheMagic := by
  unfold Obligations.HdReadChecksTheMagic
  refine ⟨fun s hq => exec_hdRead_start hq, fun s w rest hq ha hu => ?_, fun s hq ha he hu =>
    ⟨_, _, s.cursor_takeEos 32, exec_hdRead_magicEos hq ha he hu⟩⟩
  have hexec := exec_hdRead_magic hq ha hu
  refine ⟨fun hw => ?_, fun hw => ?_⟩
  · subst hw
    refine ⟨(exec_magic_read hq ha).trans hexec.symm, ?_⟩
    exact hexec.trans (congrArg _ (hdMagic_id (s.takeBits 32 s.id.toNat)))
  · rwa [hdMagic_of_ne (s := s.takeBits 32 w.toNat) hw] at hexec

/-! ### Control bits (R501, R503) -/

/-- The control bit 0 allocates the next entry, which waits on STACK for its two subtrees (R501, R503). -/
theorem hdControl_internal (h : s.stores.nodeCount.val < 513) :
    hdControl false s = { s with stores := { s.stores with
      nodeCount := ⟨s.stores.nodeCount.val + 1, by omega⟩
      stack := ⟨⟨s.stores.nodeCount.val, h⟩, none, []⟩ :: s.stores.stack } }.goto (.hdrRead .control) := by
  simp only [hdControl, Stores.alloc_of_lt h]
  rfl

/-- The control bit 1 allocates the next entry, whose value comes next (R503, R504). -/
theorem hdControl_leaf (h : s.stores.nodeCount.val < 513) :
    hdControl true s = { s with stores := { s.stores with
      nodeCount := ⟨s.stores.nodeCount.val + 1, by omega⟩ } }.goto
        (.hdrRead (.value ⟨s.stores.nodeCount.val, h⟩)) := by
  simp only [hdControl, Stores.alloc_of_lt h]
  rfl

/-- With NODE full either control bit is HEADER_CAPACITY (R503). -/
theorem hdControl_full (b : Bool) (h : s.stores.nodeCount.val = 513) :
    hdControl b s = s.raise .headerCapacity 0#8 513#32 := by
  simp only [hdControl, Stores.alloc_full h]
  rfl

/-- Settles O35: HD_READ meets a token's control bit as the token does, with room in NODE and with none. -/
theorem headerTokensAllocateANode : Obligations.HeaderTokensAllocateANode := by
  unfold Obligations.HeaderTokensAllocateANode
  intro s hq ha
  have hinternal := exec_hdrInternal_read hq ha
  have hleaf := fun v => exec_hdrLeaf_control v hq ha
  refine ⟨fun rest hu => (exec_hdRead_control hq ha hu).trans hinternal.symm,
    fun rest v hu => (exec_hdRead_control hq ha hu).trans (hleaf v).symm, fun h => ⟨?_, fun v => ?_⟩, fun h =>
    ⟨?_, fun v => ?_⟩⟩
  · rw [hinternal, hdControl_internal (s := s.takeBits 1 0) h, ← hq]
    rfl
  · rw [hleaf, hdControl_leaf (s := s.takeBits 1 1) h]
    rfl
  · rw [hinternal, hdControl_full (s := s.takeBits 1 0) false h]
    rfl
  · rw [hleaf, hdControl_full (s := s.takeBits 1 1) true h]
    rfl

/-- Settles O37: the read answers EOS at a control bit and at a value. -/
theorem headerCutShortIsMalformed : Obligations.HeaderCutShortIsMalformed := by
  unfold Obligations.HeaderCutShortIsMalformed
  exact fun s ha he => ⟨fun hq hu => ⟨_, _, s.cursor_takeEos 1, exec_hdRead_controlEos hq ha he hu⟩,
    fun i hq hu => ⟨_, _, s.cursor_takeEos 9, exec_hdRead_valueEos hq ha he hu⟩⟩

/-! ### The values of leaves (R505, R507), and the calls that wait (R500) -/

/-- The stores with entry `i` a leaf of the value `v` and of weight 0, its MINSYM a free value (R507). -/
def withLeaf (i : NodeIdx) (v : Nat) (s : State) : Stores :=
  s.stores.setNode i (.leaf (symbolOf v) 0#32 (Config.freeMinsym s.freeCount i))

theorem withLeaf_node_self (i : NodeIdx) (v : Nat) (s : State) :
    (withLeaf i v s).node[i] = .leaf (symbolOf v) 0#32 (Config.freeMinsym s.freeCount i) :=
  Stores.node_setNode_self _ _ _

theorem withLeaf_node_of_ne {i j : NodeIdx} (v : Nat) (s : State) (h : j ≠ i) :
    (withLeaf i v s).node[j] = s.stores.node[j] :=
  Stores.node_setNode_of_ne _ _ h.symm

/-- A value above 256 is MALFORMED_HEADER, CAUSE 3, with the value (R505). -/
theorem hdValue_illegal (i : NodeIdx) {v : Nat} (h : 256 < v) :
    hdValue i v s = s.raise .malformedHeader 3#8 (BitVec.ofNat 32 v) := if_pos h

/-- A legal value is stored as a leaf, and the calls waiting on STACK are returned to (R500, R507). -/
theorem exec_hdrLeaf_legal {i : NodeIdx} {v : BitVec 9} {r : Stores × Bool} (hq : s.seq = .hdrRead (.value i))
    (ha : s.input.answers = true) (hv : v.toNat ≤ 256)
    (hr : hdReturn (Config.freeMinsym s.freeCount) s.stores.stack i (withLeaf i v.toNat s) = r) :
    exec (.hdrLeaf v) s = .next { s with
      seq := if r.2 then .decode .start else .hdrRead .control
      input := { s.input with ip := s.input.ip + 9 }
      events := s.events ++ [.rd 9 (some v.toNat)]
      stores := r.1
      freeCount := s.freeCount + 1 } := by
  rw [exec_hdrLeaf_value v hq ha, hdValue, if_neg (Nat.not_lt.mpr hv), ← hr]
  rfl

section Calls

variable {ms : NodeIdx → CodeSymbol} {f : Frame} {fs : List Frame} {i : NodeIdx} {st : Stores}

/-- A call that waits for its left subtree keeps it and goes on with the right one (R500). -/
theorem hdReturn_left (h : f.left = none) :
    hdReturn ms (f :: fs) i st = ({ st with stack := { f with left := some i } :: fs }, false) := by
  simp only [hdReturn, h]

/-- A call that has its left subtree builds its node and returns in its turn (R500, R507). -/
theorem hdReturn_right {l : NodeIdx} (h : f.left = some l) :
    hdReturn ms (f :: fs) i st =
      hdReturn ms fs f.node (st.setNode f.node (.internal 0#32 (ms f.node) l i)) := by
  simp only [hdReturn, h]

/-- The header is complete exactly when no call is left waiting (R500). -/
theorem hdReturn_complete_iff : (hdReturn ms fs i st).2 = true ↔ (hdReturn ms fs i st).1.stack = [] := by
  induction fs generalizing i st with
  | nil => simp [hdReturn]
  | cons f fs ih =>
    rcases hl : f.left with _ | l
    · simp [hdReturn_left hl]
    · rw [hdReturn_right hl]
      exact ih

/-- While a call is left waiting ROOT stays as it is (R500). -/
theorem hdReturn_root_of_stack (h : (hdReturn ms fs i st).1.stack ≠ []) :
    (hdReturn ms fs i st).1.root = st.root := by
  induction fs generalizing i st with
  | nil => exact absurd rfl h
  | cons f fs ih =>
    rcases hl : f.left with _ | l
    · rw [hdReturn_left hl]
    · rw [hdReturn_right hl] at h ⊢
      exact ih h

/-- Only the entries of the waiting calls are written (R500). -/
theorem hdReturn_node_of_ne {j : NodeIdx} (h : ∀ f ∈ fs, f.node ≠ j) :
    (hdReturn ms fs i st).1.node[j] = st.node[j] := by
  induction fs generalizing i st with
  | nil => rfl
  | cons f fs ih =>
    obtain ⟨hf, hfs⟩ := List.forall_mem_cons.mp h
    rcases hl : f.left with _ | l
    · rw [hdReturn_left hl]
    · rw [hdReturn_right hl]
      exact (ih hfs).trans (Stores.node_setNode_of_ne _ _ hf)

end Calls

/-- Settles O36: the value as HD_READ reads it, one that is no symbol, and a legal one: on an empty STACK, under a call
that waits for its left subtree, under any calls, and under calls that have their left subtree. -/
theorem leafValuesAreChecked : Obligations.LeafValuesAreChecked := by
  unfold Obligations.LeafValuesAreChecked
  intro s i v hq ha
  have hvalue := exec_hdrLeaf_value v hq ha
  refine ⟨fun rest hu => (exec_hdRead_value hq ha v.isLt hu).trans hvalue.symm, fun hv => ?_, fun hv hs =>
    ⟨Config.freeMinsym s.freeCount i, s.freeCount + 1, ?_⟩, fun parent path fs hv hs =>
    ⟨Config.freeMinsym s.freeCount i, s.freeCount + 1, ?_⟩, fun hv hi => ?_, fun waiting below hv hs hl hb hn => ?_⟩
  · rw [hvalue, hdValue_illegal (s := s.takeBits 9 v.toNat) i hv]
    rfl
  · rw [exec_hdrLeaf_legal hq ha hv (by rw [hs, hdReturn])]
    simp only [hs]
    rfl
  · exact exec_hdrLeaf_legal hq ha hv (by rw [hs, hdReturn])
  · have hexec := exec_hdrLeaf_legal hq ha hv rfl
    rw [hdReturn_frame] at hexec
    simp only [hdReturn_complete_iff] at hexec
    exact ⟨Config.freeMinsym s.freeCount i, _, _, _, _, hexec,
      (hdReturn_node_of_ne hi).trans (withLeaf_node_self i _ s),
      fun j hj hjs => (hdReturn_node_of_ne hjs).trans (withLeaf_node_of_ne _ s hj),
      hdReturn_root_of_stack⟩
  · obtain ⟨node, hr, hwaiting, hrest⟩ := hdReturn_waiting (Config.freeMinsym s.freeCount) waiting below hb i
      (withLeaf i v.toNat s) hl hn
    refine ⟨Config.freeMinsym s.freeCount i, s.freeCount + 1, node, _, rfl, ?_,
      (hrest i (List.nodup_cons.mp hn).1).trans (withLeaf_node_self i _ s), hwaiting, fun j hj => ?_⟩
    · rw [exec_hdrLeaf_legal hq ha hv (by rw [hs, hr])]
      cases below <;> rfl
    · obtain ⟨hji, hjw⟩ := not_or.mp (List.mem_cons.not.mp hj)
      exact (hrest j hjw).trans (withLeaf_node_of_ne _ s hji)

/-! ### The whole header (R501, R508) -/

/-- The start and the magic: two steps of HD_READ (R500, R506). -/
theorem run_hdMagic {rest : Bits} (hq : s.seq = .hdrRead .start) (hag : s.agenda = []) (hrst : s.rst = false)
    (ha : s.input.answers = true) (hu : s.unread = bitsOf 32 s.id.toNat ++ rest) :
    Sys2Proof.core.run 2 s = .next (((hdBegin s).takeBits 32 s.id.toNat).goto (.hdrRead .control)) := by
  have hstart : step s = .next (hdBegin s) :=
    (step_operation hag hrst (i := .hdRead) (by simp only [State.phase, hq]; rfl)).trans (exec_hdRead_start hq)
  have hmagic : step (hdBegin s) = .next (((hdBegin s).takeBits 32 s.id.toNat).goto (.hdrRead .control)) :=
    (step_operation (s := hdBegin s) (i := .hdRead) hag hrst rfl).trans <|
      (exec_hdRead_magic (s := hdBegin s) rfl ha hu).trans (congrArg _ (hdMagic_id ((hdBegin s).takeBits 32 _)))
  rw [run_succ 1 hstart, run_one hmagic]

/-- Settles O38: the start, the magic, and the tree, whose induction is `run_subtree`; no call waits for the root. -/
theorem hdReadRebuildsTheTree : Obligations.HdReadRebuildsTheTree := by
  unfold Obligations.HdReadRebuildsTheTree
  intro s T rest hq hag hrst ha hu hsize
  rw [List.append_assoc] at hu
  let u : State := ((hdBegin s).takeBits 32 s.id.toNat).goto (.hdrRead .control)
  have hu' : u.unread = T.serialize ++ rest := by
    calc u.unread = s.unread.drop 32 := State.unread_takeBits (hdBegin s) 32 s.id.toNat
      _ = T.serialize ++ rest := by rw [hu, List.drop_left' (length_bitsOf 32 _)]
  have hcount : u.stores.nodeCount.val + T.size = T.size := Nat.zero_add _
  obtain ⟨i, count, node, ms, es, n, -, hc, hheld, -, -, hsub⟩ :=
    run_subtree (s := u) rfl hag hrst ha hu' (hcount.trans_le hsize)
  have hrun := run_add (n := T.size + T.leaves) (run_hdMagic hq hag hrst ha hu)
  rw [Nat.add_comm, hsub] at hrun
  refine ⟨_, hrun, rfl, hag, hheld, hc.trans hcount, ?_, ha, rfl, rfl, rfl, rfl, rfl⟩
  calc _ = u.unread.drop T.serialize.length := List.drop_drop.symm
    _ = rest := by rw [hu', List.drop_left]

end Sys2Proof.Machine
end

section
/-! PROOFS. The statements about symbol recovery (46_symbol_recovery.md): a bit, a literal and EOS (R520 to R524), and a
whole body (R522, R523, R525). -/

namespace Sys2Proof.Machine

variable {s : State}

/-! ### A bit, a literal and EOS -/

/-- A leaf is its own child (R521). -/
theorem Stores.child_leaf {st : Stores} {n : NodeIdx} (b : Bool) {x m : CodeSymbol} {w : Word}
    (h : st.node[n] = .leaf x w m) : st.child n b = n := by
  simp only [Stores.child, h]

/-- The bit names the child of an internal node (R520). -/
theorem Stores.child_internal {st : Stores} {n : NodeIdx} (b : Bool) {m : CodeSymbol} {w : Word} {l r : NodeIdx}
    (h : st.node[n] = .internal w m l r) : st.child n b = if b then r else l := by
  simp only [Stores.child, h]

/-- Settles O39: the start, and a bit to a leaf or to an internal node. -/
theorem srDecodeMovesOnABit : Obligations.SrDecodeMovesOnABit := by
  unfold Obligations.SrDecodeMovesOnABit
  refine ⟨fun s hq => exec_srDecode_start hq, fun s b rest n hq ha hu hn => ?_⟩
  have hc : s.stores.child s.stores.decCur b = n := by
    split at hn
    · rw [Stores.child_leaf b ‹_›, hn]
    · rw [Stores.child_internal b ‹_›, hn]
  rw [exec_srDecode_bit hq ha hu]
  rcases hx : s.stores.node[n] with ⟨x, w, m⟩ | ⟨w, m, l, r⟩
  · have hval : x.val = 256 ↔ x = eofSym := (Fin.ext_iff (b := eofSym)).symm
    rw [srMove_leaf (s := s.takeBits 1 b.toNat) hc hx]
    simp only [hval]
    rfl
  · rw [srMove_internal (s := s.takeBits 1 b.toNat) hc hx]
    rfl

/-- Settles O40: the write of the 8 bits, and what follows it. -/
theorem srDecodeWritesALiteral : Obligations.SrDecodeWritesALiteral := by
  unfold Obligations.SrDecodeWritesALiteral
  exact fun s x hq ha hc => (exec_srDecode_literal hq).trans (srLiteral_open x ha hc)

/-- Settles O41: the read answers EOS. -/
theorem srDecodeReportsATruncatedBody : Obligations.SrDecodeReportsATruncatedBody := by
  unfold Obligations.SrDecodeReportsATruncatedBody
  exact fun s hq ha he hu => ⟨_, _, s.cursor_takeEos 1, exec_srDecode_eos hq ha he (by simp [hu])⟩

/-! ### A whole body (R522, R523, R525) -/

/-- In DECODE a step is SR_DECODE's (R104). -/
theorem step_srDecode {pos : DecodeAt} (hq : s.seq = .decode pos) (hag : s.agenda = []) (hrst : s.rst = false) :
    step s = exec .srDecode s :=
  step_operation hag hrst (by rw [State.phase, hq]; rfl)

/-- The start leads to ROOT (R520). -/
theorem step_srBegin (hq : s.seq = .decode .start) (hag : s.agenda = []) (hrst : s.rst = false) :
    step s = .next (srBegin s) := (step_srDecode hq hag hrst).trans (exec_srDecode_start hq)

/-- The write of a literal (R523). -/
theorem step_literal {x : CodeSymbol} (hq : s.seq = .decode (.literal x)) (hag : s.agenda = []) (hrst : s.rst = false)
    (ha : s.output.answers = true) (hc : s.output.closed = false) :
    step s = .next (srWritten (s.writeBits (bitsOf 8 x.val))) :=
  (step_srDecode hq hag hrst).trans ((exec_srDecode_literal hq).trans (srLiteral_open x ha hc))

/-- SR_DECODE between two symbols: DEC_CUR is at ROOT, which holds `T`; the core has every step, both channels answer
and OUT is open. -/
structure BetweenSymbols (T : CodeTree) (s : State) : Prop where
  seq : s.seq = .decode .bit
  agenda : s.agenda = []
  rst : s.rst = false
  inAnswers : s.input.answers = true
  outAnswers : s.output.answers = true
  outOpen : s.output.closed = false
  held : T.heldAt s.stores.node s.stores.root = true
  atRoot : s.stores.decCur = s.stores.root

/-- The EOF leaf ends the body (R522). -/
theorem atLeaf_eofSym_seq (n : NodeIdx) (path : Bits) (s : State) : (atLeaf eofSym n path s).seq = .closing := by
  simp only [atLeaf, if_true]

theorem unread_atLeaf (x : CodeSymbol) (n : NodeIdx) (path : Bits) (s : State) :
    (atLeaf x n path s).unread = s.unread.drop path.length := List.drop_drop.symm

/-- `symbols` read in `n` bits, written and counted, with DEC_CUR as it was. -/
def recovered (n : Nat) (symbols : List CodeSymbol) (es : List Event) (s : State) : State :=
  { s with
    input := { s.input with ip := s.input.ip + n }
    output := { s.output with bits := s.output.bits ++ symbols.flatMap fun x => bitsOf 8 x.val }
    stores := { s.stores with litOut := s.stores.litOut + BitVec.ofNat 32 symbols.length }
    events := s.events ++ es }

theorem unread_recovered (n : Nat) (symbols : List CodeSymbol) (es : List Event) (s : State) :
    (recovered n symbols es s).unread = s.unread.drop n := List.drop_drop.symm

theorem recovered_nil (s : State) : recovered 0 [] [] s = s := by simp [recovered]

theorem recovered_cons (n m : Nat) (x : CodeSymbol) (xs : List CodeSymbol) (es es' : List Event) (s : State) :
    recovered m xs es' (recovered n [x] es s) = recovered (n + m) (x :: xs) (es ++ es') s := by
  have hcount : s.stores.litOut + 1#32 + BitVec.ofNat 32 xs.length =
      s.stores.litOut + BitVec.ofNat 32 (xs.length + 1) := by
    rw [BitVec.add_assoc, ← BitVec.ofNat_add, Nat.add_comm 1]
  simp only [recovered, List.flatMap_cons, List.flatMap_nil, List.append_nil, List.append_assoc, Nat.add_assoc,
    List.length_cons, List.length_nil, hcount]

variable {T : CodeTree} {x : CodeSymbol} {rest : Bits}

namespace BetweenSymbols

theorem after_recovered (h : BetweenSymbols T s) (n : Nat) (symbols : List CodeSymbol) (es : List Event) :
    BetweenSymbols T (recovered n symbols es s) :=
  ⟨h.seq, h.agenda, h.rst, h.inAnswers, h.outAnswers, h.outOpen, h.held, h.atRoot⟩

/-- One step for each bit of a code leads to the symbol's leaf, which is the root itself in a tree of one leaf (R521). -/
theorem run_code (h : BetweenSymbols T s) (hx : T.occurrences x ≠ 0) (hu : s.unread = T.codeOf x ++ rest) :
    ∃ n : NodeIdx, Sys2Proof.core.run (T.codeOf x).length s = .next (atLeaf x n (T.codeOf x) s) := by
  have hheld := h.held
  rw [← h.atRoot] at hheld
  cases T with
  | leaf y =>
    obtain rfl : x = y := by
      by_contra hne
      exact hx (if_neg hne)
    have hcode : (CodeTree.leaf x).codeOf x = [false] := if_pos rfl
    obtain ⟨w, m, hn⟩ := CodeTree.heldAt_leaf.mp hheld
    rw [hcode] at hu ⊢
    refine ⟨s.stores.decCur, run_one ?_⟩
    rw [step_bit h.seq h.agenda h.rst h.inAnswers hu, srMove_atLeaf (Stores.child_leaf _ hn) hn]
  | node l r =>
    obtain ⟨path, hp⟩ := Option.isSome_iff_exists.mp ((CodeTree.pathTo_isSome x _).mpr hx)
    have hcode : (CodeTree.node l r).codeOf x = path := by rw [CodeTree.codeOf, hp, Option.getD_some]
    rw [hcode] at hu ⊢
    rcases path with _ | ⟨b, path⟩
    · cases leaf_of_pathTo_nil hp
    · obtain ⟨n, -, hrun⟩ := decode_path h.seq hheld hp
      exact ⟨n, hrun rest h.agenda h.rst h.inAnswers hu⟩

/-- A literal's code and its write lead back to ROOT (R521, R523). -/
theorem run_literal (h : BetweenSymbols T s) (hne : x ≠ eofSym) (hx : T.occurrences x ≠ 0)
    (hu : s.unread = T.codeOf x ++ rest) :
    ∃ es : List Event,
      Sys2Proof.core.run ((T.codeOf x).length + 1) s = .next (recovered (T.codeOf x).length [x] es s) := by
  obtain ⟨n, hrun⟩ := h.run_code hx hu
  have hwrite := step_literal (s := atLeaf x n (T.codeOf x) s) (if_neg hne) h.agenda h.rst h.outAnswers h.outOpen
  refine ⟨(T.codeOf x).map (fun b => .rd 1 (some b.toNat)) ++ [.wr (bitsOf 8 x.val)], ?_⟩
  rw [run_add hrun, run_one hwrite]
  simp only [srWritten, atLeaf, State.writeBits, State.record, State.goto, recovered, h.seq, h.atRoot,
    List.append_assoc, List.flatMap_cons, List.flatMap_nil, List.append_nil, List.length_cons, List.length_nil]

/-- The codes of the literals of a body, one after the other. -/
theorem run_literals {symbols : List CodeSymbol} (h : BetweenSymbols T s)
    (hs : ∀ x ∈ symbols, x ≠ eofSym ∧ T.occurrences x ≠ 0)
    (hu : s.unread = symbols.flatMap (fun x => T.codeOf x) ++ rest) :
    ∃ es : List Event,
      Sys2Proof.core.run ((symbols.flatMap fun x => T.codeOf x).length + symbols.length) s =
        .next (recovered (symbols.flatMap fun x => T.codeOf x).length symbols es s) := by
  induction symbols generalizing s with
  | nil => exact ⟨[], congrArg _ (recovered_nil s).symm⟩
  | cons x xs ih =>
    obtain ⟨hne, hx⟩ := hs x List.mem_cons_self
    rw [List.flatMap_cons, List.append_assoc] at hu
    obtain ⟨es, h1⟩ := h.run_literal hne hx hu
    obtain ⟨es', h2⟩ := ih (h.after_recovered (T.codeOf x).length [x] es) (fun y hy => hs y (List.mem_cons_of_mem x hy))
      (by rw [unread_recovered, hu, List.drop_left])
    refine ⟨es ++ es', ?_⟩
    have hlen : ((x :: xs).flatMap fun x => T.codeOf x).length + (x :: xs).length =
        (T.codeOf x).length + 1 + ((xs.flatMap fun x => T.codeOf x).length + xs.length) := by
      rw [List.flatMap_cons, List.length_append, List.length_cons]
      omega
    rw [hlen, run_add h1, h2, recovered_cons, List.flatMap_cons, List.length_append]

end BetweenSymbols

/-- Settles O44: the start, the literals, and the code of EOF_SYM, whose leaf ends the body. -/
theorem srDecodeRecoversTheBody : Obligations.SrDecodeRecoversTheBody := by
  unfold Obligations.SrDecodeRecoversTheBody
  intro s T symbols rest hq hag hrst hin hout hopen hheld heof hs hu
  rw [CodeTree.body, List.append_assoc] at hu
  have h : BetweenSymbols T (srBegin s) := ⟨rfl, hag, hrst, hin, hout, hopen, hheld, rfl⟩
  obtain ⟨es, h1⟩ := h.run_literals hs hu
  let u := recovered (symbols.flatMap fun x => T.codeOf x).length symbols es (srBegin s)
  have hu' : u.unread = T.codeOf eofSym ++ rest :=
    (unread_recovered _ _ _ _).trans ((congrArg _ hu).trans (List.drop_left ..))
  obtain ⟨n, h2⟩ := (h.after_recovered _ symbols es).run_code heof hu'
  have hlen : (T.body symbols).length + symbols.length + 1 =
      ((symbols.flatMap fun x => T.codeOf x).length + symbols.length + (T.codeOf eofSym).length) + 1 := by
    rw [CodeTree.body, List.length_append]
    omega
  refine ⟨atLeaf eofSym n (T.codeOf eofSym) u, ?_, atLeaf_eofSym_seq _ _ _, hag, rfl, ?_, BitVec.zero_add _, rfl, rfl,
    rfl, rfl⟩
  · rw [hlen, run_succ _ (step_srBegin hq hag hrst), run_add h1, h2]
  · rw [unread_atLeaf, hu', List.drop_left]

end Sys2Proof.Machine
end

section
/-! PROOFS. Which bodies end (46_symbol_recovery.md rule R527; 70_reset_and_hazards.md rule R719): every step of
SR_DECODE uses up some of a finite IN, and none ends the body but at EOS or at a leaf of EOF_SYM. -/

namespace Sys2Proof.Machine

variable {s t : State}

/-! ### Trees without a leaf of EOF_SYM -/

/-- NODE holds a tree without a leaf of EOF_SYM at entry `n`. -/
def NoEofBelow (nodes : Vector Node 513) (n : NodeIdx) : Prop :=
  ∃ T : CodeTree, T.heldAt nodes n = true ∧ T.occurrences eofSym = 0

/-- The tree at ROOT and the subtree at DEC_CUR have no leaf of EOF_SYM. -/
def Stores.WithoutEof (st : Stores) : Prop := NoEofBelow st.node st.root ∧ NoEofBelow st.node st.decCur

/-- The children of such an entry are such entries, its own child among them where it is a leaf (R521). -/
theorem noEofBelow_child {st : Stores} {n : NodeIdx} (h : NoEofBelow st.node n) (b : Bool) :
    NoEofBelow st.node (st.child n b) := by
  obtain ⟨T, hheld, hocc⟩ := h
  cases T with
  | leaf x =>
    obtain ⟨w, m, hn⟩ := CodeTree.heldAt_leaf.mp hheld
    rw [Stores.child_leaf b hn]
    exact ⟨.leaf x, hheld, hocc⟩
  | node l r =>
    obtain ⟨w, m, i, j, hn, hl, hr⟩ := CodeTree.heldAt_node.mp hheld
    obtain ⟨hl0, hr0⟩ := Nat.add_eq_zero_iff.mp hocc
    rw [Stores.child_internal b hn]
    cases b
    · exact ⟨l, hl, hl0⟩
    · exact ⟨r, hr, hr0⟩

theorem NoEofBelow.ne_eofSym {nodes : Vector Node 513} {n : NodeIdx} (h : NoEofBelow nodes n) {x m : CodeSymbol}
    {w : Word} (hn : nodes[n] = .leaf x w m) : x ≠ eofSym := by
  rintro rfl
  obtain ⟨T, hheld, hocc⟩ := h
  cases T with
  | leaf y =>
    obtain ⟨w', m', hn'⟩ := CodeTree.heldAt_leaf.mp hheld
    cases hn.symm.trans hn'
    exact absurd hocc (by decide)
  | node l r =>
    obtain ⟨w', m', i, j, hn', -⟩ := CodeTree.heldAt_node.mp hheld
    cases hn.symm.trans hn'

/-! ### What a step leads to -/

/-- SR_DECODE in its loop: the core has every step, both channels answer and OUT is open. -/
structure Recovering (s : State) : Prop where
  seq : s.seq = .decode .bit ∨ ∃ x, s.seq = .decode (.literal x)
  agenda : s.agenda = []
  rst : s.rst = false
  inAnswers : s.input.answers = true
  outAnswers : s.output.answers = true
  outOpen : s.output.closed = false

/-- How many steps the loop may still take on a finite IN: two for each bit, one for the literal at hand, one for
EOS. -/
def State.stepsLeft (s : State) : Nat :=
  2 * s.unread.length + if s.seq = .decode .bit then 1 else 2

/-- The loop goes on from `s` to `t`. -/
structure GoesOn (s t : State) : Prop where
  recovering : Recovering t
  after : t.input.after = s.input.after
  withoutEof : s.stores.WithoutEof → t.stores.WithoutEof
  stepsLeft : s.input.after = .eos → t.stepsLeft < s.stepsLeft

/-- The loop ends in `t`: with TRUNCATED_STREAM at the end of a finite IN (R524), or else at a leaf of EOF_SYM
(R522). -/
structure Ends (s t : State) : Prop where
  seq : t.seq = .closing
  truncated : s.stores.WithoutEof →
    s.input.after = .eos ∧ t.errCode = 3#8 ∧ t.errCause = 0#8 ∧ t.errInfo = t.stores.litOut

/-- A bit at the cursor, whether it is written out or has to be supplied (R521, R527). -/
theorem exec_srDecode_supplied {b : Bool} {rest : Bits} (hq : s.seq = .decode .bit) (ha : s.input.answers = true)
    (hu : (s.supply 1).unread = b :: rest) :
    exec .srDecode s = .next (srMove b ((s.supply 1).takeBits 1 b.toNat)) := by
  have hread := State.readBits_of_le (n := 1) (s := s) (by rw [hu]; exact Nat.le_add_left 1 _)
  have hv : valOf ((s.supply 1).unread.take 1) = b.toNat := by rw [hu]; cases b <;> rfl
  rw [hv] at hread
  simp only [exec, execSrDecode, hq, withRead, onInput_answers ha, hread]
  cases b <;> rfl

namespace Recovering

/-- A bit that leads to an internal node or to a literal's leaf uses up a bit of a finite IN, and DEC_CUR is at a child
of where it was. -/
theorem goesOn_bit (h : Recovering s) (hq : s.seq = .decode .bit) {b : Bool} {rest : Bits}
    (hu : (s.supply 1).unread = b :: rest) {q : Seq} (hnext : q = .decode .bit ∨ ∃ x, q = .decode (.literal x)) :
    GoesOn s { (s.supply 1).takeBits 1 b.toNat with
      seq := q, stores := { s.stores with decCur := s.stores.child s.stores.decCur b } } := by
  refine ⟨⟨hnext, h.agenda, h.rst, h.inAnswers, h.outAnswers, h.outOpen⟩, rfl,
    fun hw => ⟨hw.1, noEofBelow_child hw.2 b⟩, fun he => ?_⟩
  have hrest : ((s.supply 1).takeBits 1 b.toNat).unread = rest := by rw [State.unread_takeBits, hu]; rfl
  rw [State.supply_eos 1 he] at hu
  calc 2 * ((s.supply 1).takeBits 1 b.toNat).unread.length + (if q = .decode .bit then 1 else 2)
      ≤ 2 * rest.length + 2 := by rw [hrest]; split <;> omega
    _ < s.stepsLeft := by rw [State.stepsLeft, hq, if_pos rfl, hu, List.length_cons]; omega

/-- A bit of IN, written out or supplied, takes DEC_CUR to a child; the body ends at a leaf of EOF_SYM only. -/
theorem move (h : Recovering s) (hq : s.seq = .decode .bit) {b : Bool} {rest : Bits}
    (hu : (s.supply 1).unread = b :: rest) :
    GoesOn s (srMove b ((s.supply 1).takeBits 1 b.toNat)) ∨ Ends s (srMove b ((s.supply 1).takeBits 1 b.toNat)) := by
  rcases hn : s.stores.node[s.stores.child s.stores.decCur b] with ⟨x, w, m⟩ | ⟨w, m, l, r⟩
  · rw [srMove_leaf (s := (s.supply 1).takeBits 1 b.toNat) rfl hn]
    by_cases hx : x = eofSym
    · exact .inr ⟨if_pos hx, fun hw => absurd hx ((noEofBelow_child hw.2 b).ne_eofSym hn)⟩
    · exact .inl (h.goesOn_bit hq hu (.inr ⟨x, if_neg hx⟩))
  · rw [srMove_internal (s := (s.supply 1).takeBits 1 b.toNat) rfl hn]
    exact .inl (h.goesOn_bit hq hu (.inl rfl))

/-- Every step of the loop goes on or ends it: EOS, a bit, or the write of a literal. -/
theorem exists_step (h : Recovering s) : ∃ t, step s = .next t ∧ (GoesOn s t ∨ Ends s t) := by
  obtain hq | ⟨x, hq⟩ := h.seq
  · have hstep := step_srDecode hq h.agenda h.rst
    rcases hu : (s.supply 1).unread with _ | ⟨b, rest⟩
    · have he : s.input.after = .eos := by
        by_contra hne
        exact absurd (State.le_length_unread_supply 1 hne) (by rw [hu]; decide)
      rw [State.supply_eos 1 he] at hu
      exact ⟨_, hstep.trans (exec_srDecode_eos hq h.inAnswers he (by rw [hu]; decide)),
        .inr ⟨rfl, fun _ => ⟨he, rfl, rfl, rfl⟩⟩⟩
    · exact ⟨_, hstep.trans (exec_srDecode_supplied hq h.inAnswers hu), h.move hq hu⟩
  · have hloop : Recovering (srWritten (s.writeBits (bitsOf 8 x.val))) :=
      ⟨.inl rfl, h.agenda, h.rst, h.inAnswers, h.outAnswers, h.outOpen⟩
    refine ⟨_, step_literal hq h.agenda h.rst h.outAnswers h.outOpen,
      .inl ⟨hloop, rfl, fun hw => ⟨hw.1, hw.1⟩, fun _ => ?_⟩⟩
    rw [State.stepsLeft, State.stepsLeft, hq]
    exact Nat.lt_succ_self _

/-- The first step of SR_DECODE enters the loop (R520). -/
theorem of_srBegin (hag : s.agenda = []) (hrst : s.rst = false) (hin : s.input.answers = true)
    (hout : s.output.answers = true) (hopen : s.output.closed = false) : Recovering (srBegin s) :=
  ⟨.inl rfl, hag, hrst, hin, hout, hopen⟩

/-- On a finite IN the loop ends within the steps it has left. -/
theorem run_finite (h : Recovering s) (he : s.input.after = .eos) :
    ∃ (n : Nat) (t : State), n ≤ s.stepsLeft ∧ Sys2Proof.core.run n s = .next t ∧ t.seq = .closing ∧
      (s.stores.WithoutEof → t.errCode = 3#8 ∧ t.errCause = 0#8 ∧ t.errInfo = t.stores.litOut) := by
  induction hk : s.stepsLeft using Nat.strong_induction_on generalizing s with
  | _ k ih =>
    subst hk
    obtain ⟨u, hstep, hgo | hend⟩ := h.exists_step
    · have hlt := hgo.stepsLeft he
      obtain ⟨n, t, hn, hrun, hq, herr⟩ := ih _ hlt hgo.recovering (hgo.after.trans he) rfl
      exact ⟨n + 1, t, by omega, (run_succ n hstep).trans hrun, hq, fun hw => herr (hgo.withoutEof hw)⟩
    · have hpos : 1 ≤ s.stepsLeft := by rw [State.stepsLeft]; split <;> omega
      exact ⟨1, u, hpos, run_one hstep, hend.seq, fun hw => (hend.truncated hw).2⟩

/-- On an endless IN, with no leaf of EOF_SYM, the loop goes on for ever. -/
theorem run_endless (h : Recovering s) (hne : s.input.after ≠ .eos) (hw : s.stores.WithoutEof) (n : Nat) :
    ∃ t, Sys2Proof.core.run n s = .next t ∧ t.phase = .decode := by
  induction n generalizing s with
  | zero =>
    refine ⟨s, rfl, ?_⟩
    obtain hq | ⟨x, hq⟩ := h.seq <;> rw [State.phase, hq] <;> rfl
  | succ n ih =>
    obtain ⟨u, hstep, hgo | hend⟩ := h.exists_step
    · obtain ⟨t, hrun, hp⟩ := ih hgo.recovering (hgo.after.trans_ne hne) (hgo.withoutEof hw)
      exact ⟨t, (run_succ n hstep).trans hrun, hp⟩
    · exact absurd (hend.truncated hw).1 hne

end Recovering

/-- Settles O42: the start, and then the loop on a finite IN and on an endless one. -/
theorem srDecodeEndsExceptOnAnEndlessInput : Obligations.SrDecodeEndsExceptOnAnEndlessInput := by
  unfold Obligations.SrDecodeEndsExceptOnAnEndlessInput
  refine ⟨fun s hq hag hrst hin hout hopen he => ?_, fun s T hq hag hrst hin hout hopen hne hheld hocc n => ?_⟩
  · obtain ⟨n, t, hn, hrun, hclosing, herr⟩ := (Recovering.of_srBegin hag hrst hin hout hopen).run_finite he
    exact ⟨n + 1, t, Nat.succ_le_succ hn, (run_succ n (step_srBegin hq hag hrst)).trans hrun, hclosing,
      fun T hheld hocc => herr ⟨⟨T, hheld, hocc⟩, ⟨T, hheld, hocc⟩⟩⟩
  · cases n with
    | zero => exact ⟨s, rfl, by rw [State.phase, hq]; rfl⟩
    | succ n =>
      rw [run_succ n (step_srBegin hq hag hrst)]
      exact (Recovering.of_srBegin hag hrst hin hout hopen).run_endless hne ⟨⟨T, hheld, hocc⟩, ⟨T, hheld, hocc⟩⟩ n

end Sys2Proof.Machine
end

section
/-! PROOFS. The round trip (46_symbol_recovery.md rule R526): a whole DECOMPRESS of the stream that COMPRESS leaves,
from the command's issue to its end. -/

namespace Sys2Proof

/-! ### The stream as bytes, and the size of its tree -/

/-- A stream of whole bytes is the bits of some bytes (R201, R205). -/
theorem exists_bytesToBits {bits : Bits} {k : Nat} (h : bits.length = 8 * k) : ∃ bs, bytesToBits bs = bits := by
  induction k generalizing bits with
  | zero => exact ⟨[], (List.length_eq_zero_iff.mp h).symm⟩
  | succ k ih =>
    obtain ⟨bs, hbs⟩ := ih (bits := bits.drop 8) (by rw [List.length_drop, h]; omega)
    have hlen : (bits.take 8).length = 8 := List.length_take_of_le (by omega)
    have hbyte : bitsOf 8 (BitVec.ofNat 8 (valOf (bits.take 8))).toNat = bits.take 8 := by
      have hb := bitsOf_valOf (bits.take 8)
      rw [hlen] at hb
      rw [BitVec.toNat_ofNat, bitsOf_mod, hb]
    exact ⟨BitVec.ofNat 8 (valOf (bits.take 8)) :: bs, by rw [bytesToBits, hbyte, hbs, List.take_append_drop]⟩

/-- A stream of whole bytes cut into bytes is those bits again (R205, R208). -/
theorem bytesToBits_bitsToBytes {bits : Bits} (h : bits.length % 8 = 0) : bytesToBits (bitsToBytes bits) = bits := by
  obtain ⟨bs, rfl⟩ := exists_bytesToBits (bits := bits) (k := bits.length / 8) (by omega)
  rw [bitsToBytes_bytesToBits]

/-- The symbols of bytes, written with 8 bits each, are the bits of the bytes (R201, R523). -/
theorem flatMap_bitsOf_symbols (S : List Byte) :
    (S.map fun b => symbolOf b.toNat).flatMap (fun x => bitsOf 8 x.val) = bytesToBits S := by
  induction S with
  | nil => rfl
  | cons b S ih => rw [List.map_cons, List.flatMap_cons, ih, symbolOf_byte, bytesToBits]

/-- The tree of the counts has one leaf for each symbol with a count, so at most NODE_CAP nodes (R424). -/
theorem CodeTree.size_of_build {freq : CodeSymbol → Word} {T : CodeTree} (he : freq eofSym ≠ 0#32)
    (h : CodeTree.build freq = some T) : T.size ≤ 513 := by
  obtain ⟨w, hw⟩ := Weighted.merged_eq_singleton he
  rw [Weighted.build_eq_merged, hw] at h
  obtain rfl : w.tree = T := Option.some.inj h
  have hsum := Weighted.sum_merge (f := fun w => w.tree.leaves) (fun _ _ => rfl)
    (Weighted.leavesOf freq (List.finRange 257)).length (Weighted.leavesOf freq (List.finRange 257)).reverse
  rw [← Weighted.merged, hw, ((List.reverse_perm _).map _).sum_eq, Weighted.sum_leaves_leavesOf, List.map_singleton,
    List.sum_singleton] at hsum
  have hcount := Weighted.length_leavesOf_le freq (List.finRange 257)
  rw [List.length_finRange] at hcount
  have hsize := w.tree.size_add_one
  omega

namespace Machine

variable {s t : State}

/-! ### A whole DECOMPRESS (R545, R549, R552) -/

/-- A run of the core alone leaves `rst` deasserted. -/
theorem rst_of_run {n : Nat} (hag : s.agenda = []) (hrst : s.rst = false) (h : Sys2Proof.core.run n s = .next t) :
    t.rst = false := by
  induction n generalizing s with
  | zero => cases h; exact hrst
  | succ n ih =>
    rw [run_eq] at h
    rcases hstep : step s with u | r | r <;> simp only [hstep, reduceCtorEq] at h
    rw [step_core hag hrst] at hstep
    obtain ⟨-, -, hr, ha, -⟩ := coreMove_keeps (coreStep_move hstep)
    exact ih (ha.trans hag) (hr.trans hrst) h

/-- A store of the command word DECOMPRESS, with no command running (R540, R545). -/
theorem step_decompress {rest : List Turn} (ha : s.agenda = .decompress :: rest) (hr : s.rst = false)
    (hb : s.busy = false) (hs : s.shared = false) :
    step s = .next (({ s with agenda := rest }.startCommand 2#2).goto (.hdrRead .start)) := by
  rw [step_turn ha hr]
  have he : takeTurn .decompress { s with agenda := rest } = exec .decompress { s with agenda := rest } :=
    if_pos ⟨rfl, hr⟩
  exact he.trans (exec_decompress hb hs)

theorem errWord_eq_zero (hcode : s.errCode = 0#8) (hcause : s.errCause = 0#8) : s.errWord = 0#32 := by
  simp [State.errWord, hcode, hcause]

/-- The two lines of the host that attach the stream of `bytes` and issue the command. -/
theorem run_attach_decompress {bytes : List Byte} (hb : s.busy = false) (hr : s.rst = false)
    (ha : s.agenda = [.attach (.of bytes) (.of bytes) false, .decompress]) :
    ∃ t, Sys2Proof.core.run 2 s = .next t ∧ t.seq = .hdrRead .start ∧ t.agenda = [] ∧ t.rst = false ∧ t.id = s.id ∧
      t.input.answers = true ∧ t.unread = bytesToBits bytes ∧
      t.output = { bits := [], closed := false, answers := true } ∧ t.errWord = 0#32 :=
  have hattach := (attachGivesFreshChannels s _ _ _ _ hr ha).2 hb
  ⟨_, (run_succ 1 hattach).trans (run_one (step_decompress rfl hr hb rfl)), rfl, rfl, hr, rfl, rfl, rfl,
    rfl, errWord_eq_zero rfl rfl⟩

/-- CLOSING, with no error recorded (R552). -/
theorem step_closing_done (hq : s.seq = .closing) (hag : s.agenda = []) (hrst : s.rst = false)
    (ha : s.output.answers = true) (hc : s.output.closed = false) (he : s.errWord = 0#32) :
    ∃ t, step s = .next t ∧ t.phase = .done ∧ t.errWord = 0#32 ∧ t.output.closed = true ∧
      t.output.bits = s.output.bits ++ List.replicate (padLength s.output.bits.length) false := by
  have hi : s.phase.operation = some .closing := by simp only [State.phase, hq]; rfl
  have hcode : s.errCode = 0#8 := by rw [← (errWord_fields s).1, he]; rfl
  refine ⟨_, (step_operation hag hrst hi).trans (exec_closing hq ha hc), ?_, he, rfl, rfl⟩
  simp [finish, State.phase, hcode, Seq.phase]

/-- DECOMPRESS of a stream of literals of a tree with a leaf of EOF_SYM, whatever follows the body, leaves the literals
in OUT (R508, R525, R552). -/
theorem run_decompress {T : CodeTree} {S bytes : List Byte} {rest : Bits} (hb : s.busy = false) (hr : s.rst = false)
    (ha : s.agenda = [.attach (.of bytes) (.of bytes) false, .decompress]) (hsize : T.size ≤ 513)
    (heof : T.occurrences eofSym ≠ 0) (hS : ∀ b ∈ S, T.occurrences (symbolOf b.toNat) ≠ 0)
    (hbits : bytesToBits bytes =
      bitsOf 32 s.id.toNat ++ T.serialize ++ (T.body (S.map fun b => symbolOf b.toNat) ++ rest)) :
    ∃ (n : Nat) (t : State), Sys2Proof.core.run n s = .next t ∧ t.phase = .done ∧ t.errWord = 0#32 ∧
      t.output.closed = true ∧ t.output.bits = bytesToBits S := by
  obtain ⟨s1, h1, q1, ag1, rst1, id1, in1, u1, out1, err1⟩ := run_attach_decompress hb hr ha
  obtain ⟨s2, h2, q2, ag2, held2, -, u2, in2, out2, err2, -, -, -⟩ :=
    hdReadRebuildsTheTree s1 T _ q1 ag1 rst1 in1 (by rw [u1, hbits, id1]) hsize
  have rst2 := rst_of_run ag1 rst1 h2
  have hout2 := out2.trans out1
  obtain ⟨s3, h3, q3, ag3, out3, -, -, err3, -, -, -⟩ :=
    srDecodeRecoversTheBody s2 T _ rest q2 ag2 rst2 in2 (by rw [hout2]) (by rw [hout2]) held2 heof
      (fun x hx => by
        obtain ⟨b, hbS, rfl⟩ := List.mem_map.mp hx
        exact ⟨symbolOf_byte_ne_eofSym b, hS b hbS⟩) u2
  have rst3 := rst_of_run ag2 rst2 h3
  rw [hout2, flatMap_bitsOf_symbols, List.nil_append] at out3
  obtain ⟨t, h4, hdone, herr, hclosed, out4⟩ := step_closing_done q3 ag3 rst3 (by rw [out3]) (by rw [out3])
    (err3.trans (err2.trans err1))
  have hpad : padLength (bytesToBits S).length = 0 := by rw [length_bytesToBits, padLength]; omega
  refine ⟨_, t, (run_add h1).trans ((run_add h2).trans ((run_add h3).trans (run_one h4))), hdone, herr, hclosed, ?_⟩
  rw [out4, out3, hpad, List.replicate_zero, List.append_nil]

/-- Settles O60: what COMPRESS writes is a stream that DECOMPRESS reads back, the padding left unread. -/
theorem decompressUndoesCompress : Obligations.DecompressUndoesCompress := by
  unfold Obligations.DecompressUndoesCompress
  intro s S hb hr ha hl
  obtain ⟨n, k, t, T, hrun, hdone, herr, hclosed, -, -, -, hbuild, hbytes, heof, hbits, hlen⟩ :=
    compressWritesTheStream s S hb hr ha hl
  have hstream := bytesToBits_bitsToBytes hlen
  refine ⟨n, t, hrun, hdone, herr, hclosed, hstream, fun u hub hur hid hua => ?_⟩
  have hsize := CodeTree.size_of_build (by rw [freqOf_eofSym]; decide) hbuild
  obtain ⟨m, w, hrun', hdone', herr', hclosed', hout⟩ := run_decompress (S := S) hub hur hua hsize
    (by rw [heof]; decide) (fun b hbS => by rw [hbytes, if_pos hbS]; decide)
    (by rw [hstream, hbits, hid, List.append_assoc])
  exact ⟨m, w, hrun', hdone', herr', hclosed', by rw [hout, bitsToBytes_bytesToBits]⟩

end Machine

end Sys2Proof
end

section
/-! PROOFS. The sequencer (10_state.md rules R101, R104; 47_sequencer.md rules R540 to R553; 60_exceptions.md rules R608,
R619): how PHASE moves on, what a store to CMD starts, how a command ends, and which instruction the core's turn runs. -/

namespace Sys2Proof.Machine

variable {s t : State}

/-! ### The order of the phases (R546, R549, R551, R552) -/

/-- With the core next, a step is one of the core's moves in the state that the agenda leaves. -/
theorem step_coreNext_move {rest : List Turn} (hcore : s.coreNext rest) (h : step s = .next t) :
    CoreMove { s with agenda := rest } t :=
  coreStep_move ((step_coreNext hcore).symm.trans h)

/-- Settles O52: each of the core's moves stays in PHASE or moves on in order, or raises an error. -/
theorem phasesFollowInOrder : Obligations.PhasesFollowInOrder := by
  unfold Obligations.PhasesFollowInOrder
  intro s t rest hcore h
  obtain ⟨-, hp | hf⟩ | hraise := coreMove_progress (step_coreNext_move hcore h)
  · exact .inl hp
  · exact .inr (.inl hf)
  · exact .inr (.inr hraise)

/-! ### What a store to CMD starts (R101, R540 to R545, R608) -/

/-- A word store is a command issue at CMD and has no effect elsewhere (R101, R102). -/
theorem step_store {rest : List Turn} {offset : BitVec 6} {w : Word} (hr : s.rst = false)
    (ha : s.agenda = .store offset 4 w :: rest) (ho : offset.toNat % 4 = 0) :
    step s = if offset = 0x00#6 then exec (decodeCommand w) { s with agenda := rest }
      else .next { s with agenda := rest } := by
  rw [step_turn ha hr]
  simp only [takeTurn, hostStore, onAccess, ho, hr, and_self, and_true, if_true]

/-- A store to CMD runs the word's command (R540). -/
theorem step_store_command {rest : List Turn} {w : Word} (hr : s.rst = false)
    (ha : s.agenda = .store 0x00#6 4 w :: rest) : step s = exec (decodeCommand w) { s with agenda := rest } :=
  (step_store hr ha rfl).trans (if_pos rfl)

/-- Settles O8: a store to CMD is the command, which does nothing while BUSY. -/
theorem hostStoresIssueCommandsOnly : Obligations.HostStoresIssueCommandsOnly := by
  unfold Obligations.HostStoresIssueCommandsOnly
  refine fun s rest offset w hr ha ho => ⟨?_, ?_, fun hne => (step_store hr ha ho).trans (if_neg hne)⟩
  · rintro rfl hb
    exact (step_store_command hr ha).trans (exec_busy_command (s := { s with agenda := rest }) w hb)
  · rintro rfl -
    exact step_store_command hr ha

/-- An acknowledgement moves PHASE from DONE or ERROR to IDLE, and changes nothing else (R543, R612). -/
theorem acknowledge_eq (s : State) :
    s.acknowledge = if s.phase = .done ∨ s.phase = .error then { s with seq := .idle } else s := by
  simp only [State.acknowledge, State.doneFlag, State.errorFlag, Bool.or_eq_true, decide_eq_true_eq]
  rfl

/-- While a command runs there is nothing to acknowledge (R103). -/
theorem acknowledge_of_busy (hb : s.busy = true) : s.acknowledge = s := by
  obtain ⟨hbd, hbe, -⟩ := flags_exclude s
  simp_all [State.acknowledge]

/-- Settles O13: NOP is an acknowledgement, and ignored while BUSY, where there is nothing to acknowledge. -/
theorem nopAcknowledges : Obligations.NopAcknowledges := by
  unfold Obligations.NopAcknowledges
  intro s
  rw [← acknowledge_eq]
  rcases hb : s.busy
  · exact exec_nop hb
  · rw [exec_busy_nop hb, acknowledge_of_busy hb]

/-- With channels that share storage a command that works on them is refused (R220, R712). -/
theorem issueOnChannels_shared (k : State → Result) (hb : s.busy = false) (hs : s.shared = true) :
    issueOnChannels s k = .refused .sharedStorage := by simp [issueOnChannels, issue, hb, hs]

theorem exec_compress_shared (hb : s.busy = false) (hs : s.shared = true) :
    exec .compress s = .refused .sharedStorage := by
  simp only [exec, execCompress, issueOnChannels_shared _ hb hs]

theorem exec_decompress_shared (hb : s.busy = false) (hs : s.shared = true) :
    exec .decompress s = .refused .sharedStorage := by
  simp only [exec, execDecompress, issueOnChannels_shared _ hb hs]

/-- Settles O14, by BUSY and by whether the channels share storage. -/
theorem compressStartsTheCountingPass : Obligations.CompressStartsTheCountingPass := by
  unfold Obligations.CompressStartsTheCountingPass
  exact fun s => ⟨exec_compress, exec_compress_shared, exec_busy_compress⟩

/-- Settles O15, by BUSY and by whether the channels share storage. -/
theorem decompressStartsTheHeaderRead : Obligations.DecompressStartsTheHeaderRead := by
  unfold Obligations.DecompressStartsTheHeaderRead
  exact fun s => ⟨exec_decompress, exec_decompress_shared, exec_busy_decompress⟩

/-- Settles O16, by BUSY. -/
theorem illegalCommandGoesToError : Obligations.IllegalCommandGoesToError := by
  unfold Obligations.IllegalCommandGoesToError
  exact fun w s => ⟨exec_illegalCommand w, exec_busy_illegalCommand w⟩

/-! ### The end of a command (R552, R553, R619) -/

/-- Settles O45: the padding is the one that ends on a byte boundary. -/
theorem closingEndsTheCommand : Obligations.ClosingEndsTheCommand := by
  unfold Obligations.ClosingEndsTheCommand
  exact fun s hq ha hc => ⟨padLength s.output.bits.length, s.freeCount + 1,
    (Config.freeStores s.freeCount).withinCapacity, padLength_lt _, add_padLength_mod _, exec_closing hq ha hc⟩

/-- A phase that selects no operation gives the core nothing to run (R104, R553, R619). -/
theorem fetch_waiting (h : s.phase.operation = none) : s.fetch = none := by
  unfold State.phase at h
  unfold State.fetch
  cases hq : s.seq with
  | idle | done | error => rfl
  | _ => rw [hq] at h; cases h

/-- Settles O46: a waiting phase selects no operation. -/
theorem waitingStatesKeepEverything : Obligations.WaitingStatesKeepEverything := by
  unfold Obligations.WaitingStatesKeepEverything
  intro s rest hcore hp
  have hop : s.phase.operation = none := by obtain hp | hp | hp := hp <;> rw [hp] <;> rfl
  rw [step_coreNext hcore]
  simp only [coreStep, fetch_waiting (s := { s with agenda := rest }) hop, ite_self]

/-! ### The instruction the core's turn runs (R104, R302, R303, R460, R482) -/

theorem fetch_hdrReadMagic {i : Instr} {rest : Bits} (hq : s.seq = .hdrRead .magic)
    (hd : decodeMagic s.id s.unread = .ok (i, rest)) : s.fetch = some i := by
  simp only [State.fetch, hq, hd, decodedOr]

theorem fetch_hdrReadControl {i : Instr} {rest : Bits} (hq : s.seq = .hdrRead .control)
    (hd : decodeToken s.unread = .ok (i, rest)) : s.fetch = some i := by
  simp only [State.fetch, hq, hd, decodedOr]

theorem fetch_hdrReadValue {j : NodeIdx} {i : Instr} {rest : Bits} (hq : s.seq = .hdrRead (.value j))
    (hd : decodeToken (true :: s.unread) = .ok (i, rest)) : s.fetch = some i := by
  simp only [State.fetch, hq, hd, decodedOr]

theorem fetch_hdrWriteMagic (hq : s.seq = .hdrWrite .magic) : s.fetch = some .magic := by
  simp only [State.fetch, hq]

theorem fetch_hdrWriteToken {f : Frame} {fs : List Frame} (hq : s.seq = .hdrWrite .token)
    (hs : s.stores.stack = f :: fs) : s.fetch = some (tokenOf s.stores.node[f.node]) := by
  simp only [State.fetch, hq, hs]

theorem fetch_bodyEncEmit {x : CodeSymbol} (hq : s.seq = .bodyEnc (.emit x)) :
    s.fetch = some (.bodyCode s.stores.code[x]) := by
  simp only [State.fetch, hq]

/-- Settles O49: on the core's turn the step runs what is fetched, position by position; any other turn is taken as it
stands. -/
theorem stepRunsTheDecodedInstruction : Obligations.StepRunsTheDecodedInstruction := by
  unfold Obligations.StepRunsTheDecodedInstruction
  refine ⟨fun s rest w => step_store_command, fun s rest hcore => ?_, fun s t rest hr ha => step_turn ha hr⟩
  refine ⟨fun p i hq hi => ?_, fun bits hq hd => ?_, fun i bits hq hd => ?_, fun j i bits hq hd => ?_, fun hq => ?_,
    fun f fs hq hs => ?_, fun x hq => ?_⟩ <;> refine step_coreNext_fetch hcore ?_
  · exact (fetch_begin hq).trans hi
  · exact fetch_hdrReadMagic hq hd
  · exact fetch_hdrReadControl hq hd
  · exact fetch_hdrReadValue hq hd
  · exact fetch_hdrWriteMagic hq
  · rw [fetch_hdrWriteToken hq hs]
    cases s.stores.node[f.node] <;> rfl
  · exact fetch_bodyEncEmit hq

end Sys2Proof.Machine
end

section
/-! PROOFS. Reset (70_reset_and_hazards.md rules R700 to R702): the registers at their reset values, that every turn
keeps them while `rst` is asserted, and what reset leaves of the channels. -/

namespace Sys2Proof.Machine

variable {s t : State}

/-! ### The registers while `rst` is asserted (R700, R701) -/

/-- PHASE, OP, ERR and ERR_INFO hold their reset values (R700). -/
structure State.Cleared (s : State) : Prop where
  seq : s.seq = .idle
  op : s.op = 0#2
  errCode : s.errCode = 0#8
  errCause : s.errCause = 0#8
  errInfo : s.errInfo = 0#32

theorem State.Cleared.atReset (h : s.Cleared) : s.atReset :=
  atReset_of h.seq h.op h.errCode h.errCause h.errInfo

theorem cleared_resetBlock (s : State) : s.resetBlock.Cleared :=
  ⟨s.resetBlock_seq, s.resetBlock_op, s.resetBlock_errCode, s.resetBlock_errCause, s.resetBlock_errInfo⟩

theorem cleared_loadReg (h : s.Cleared) (offset : BitVec 6) : (s.loadReg offset).Cleared :=
  ⟨(s.loadReg_seq offset).trans h.seq, (s.loadReg_op offset).trans h.op, (s.loadReg_errCode offset).trans h.errCode,
    (s.loadReg_errCause offset).trans h.errCause, (s.loadReg_errInfo offset).trans h.errInfo⟩

/-- A level of `rst` in a state of R700 leaves the registers there: asserted it resets, deasserted it changes nothing
else (R701). -/
theorem cleared_setRst (h : s.Cleared) (asserted : Bool) : (s.setRst asserted).Cleared := by
  cases asserted with
  | false => exact ⟨h.seq, h.op, h.errCode, h.errCause, h.errInfo⟩
  | true => exact cleared_resetBlock { s with rst := true }

/-- While `rst` is asserted a turn leaves the registers at their reset values: neither the core nor a store to CMD does
anything, and the other turns do not touch them (R701). -/
theorem turnMove_cleared {turn : Turn} (h : TurnMove s turn t) (hr : s.rst = true) (hc : s.Cleared) : t.Cleared := by
  cases h with
  | core hr' | nop hr' | compress hr' | decompress hr' | illegal hr' => exact absurd (hr.symm.trans hr') nofun
  | held | ignored => exact hc
  | attach | channels => exact ⟨hc.seq, hc.op, hc.errCode, hc.errCause, hc.errInfo⟩
  | load offset => exact cleared_loadReg hc offset
  | waited => exact cleared_loadReg hc 0x04#6
  | waiting =>
    have hl := cleared_loadReg hc 0x04#6
    exact ⟨hl.seq, hl.op, hl.errCode, hl.errCause, hl.errInfo⟩
  | rst asserted => exact cleared_setRst hc asserted

/-- While `rst` is asserted a step makes no transaction (R701, R702). -/
theorem step_asserted_events (hr : s.rst = true) (h : step s = .next t) : t.events = s.events := by
  obtain ⟨-, hr', -⟩ | ⟨-, -, rfl⟩ | ⟨turn, rest, -, hm⟩ := step_move h
  · exact absurd (hr.symm.trans hr') nofun
  · exact s.resetBlock_events
  · obtain he | ⟨-, hr', -⟩ := turnMove_events hm
    · exact he.trans (State.forced_events _)
    · rw [State.forced_rst] at hr'
      exact absurd (hr.symm.trans hr') nofun

/-- While `rst` is asserted every step ends with the registers at their reset values (R701). -/
theorem step_asserted_cleared (hr : s.rst = true) (h : step s = .next t) : t.Cleared := by
  obtain ⟨-, hr', -⟩ | ⟨-, -, rfl⟩ | ⟨turn, rest, -, hm⟩ := step_move h
  · exact absurd (hr.symm.trans hr') nofun
  · exact cleared_resetBlock s
  · rw [State.forced_of_asserted { s with agenda := rest } hr] at hm
    exact turnMove_cleared hm (({ s with agenda := rest } : State).resetBlock_rst.trans hr) (cleared_resetBlock _)

/-- The turn of `rst` is taken in the state that its level before forces (R701). -/
theorem step_rst {rest : List Turn} {asserted : Bool} (ha : s.agenda = .rst asserted :: rest) :
    step s = .next ({ s with agenda := rest }.forced.setRst asserted) := by simp only [step, ha, takeTurn]

/-- Asserting `rst` resets the block, in any state (R701). -/
theorem cleared_setRst_true (s : State) : (s.setRst true).Cleared := cleared_resetBlock { s with rst := true }

/-- While `rst` is asserted the core's turn and a store, to CMD or elsewhere, only force the reset state (R701). -/
theorem step_asserted_reset {rest : List Turn} {offset : BitVec 6} {data : Word} (hr : s.rst = true)
    (ho : offset.toNat % 4 = 0)
    (ha : s.agenda = [] ∧ rest = [] ∨ s.agenda = .core :: rest ∨ s.agenda = .store offset 4 data :: rest) :
    step s = .next { s with agenda := rest }.resetBlock := by
  have hr' : ({ s with agenda := rest } : State).resetBlock.rst = true := (State.resetBlock_rst _).trans hr
  obtain ⟨ha, rfl⟩ | ha | ha := ha
  · rw [step_reset ha hr, ← ha]
  · rw [step_reset_turn ha hr, takeTurn, coreStep_reset hr']
  · rw [step_reset_turn ha hr]
    simp only [takeTurn, hostStore, onAccess, ho, hr', and_self, if_true, Bool.true_eq_false, and_false, if_false]

/-- Reset leaves the channels of a block that runs no command alone (R702). -/
theorem resetBlock_channels (hb : s.busy = false) :
    s.resetBlock.input = s.input ∧ s.resetBlock.output = s.output := by
  simp [State.resetBlock, hb]

/-- Settles O5: the state that `rst` forces, and what a turn can do in it. -/
theorem resetForcesTheRegisters : Obligations.ResetForcesTheRegisters := by
  unfold Obligations.ResetForcesTheRegisters
  refine ⟨⟨atReset_of rfl rfl rfl rfl rfl, rfl⟩, fun s rest ha => ?_, fun s rest hr ha => ?_, fun s t hr h => ?_,
    fun s rest offset data hr ho ha => ?_⟩
  · exact ⟨_, step_rst ha, (cleared_setRst_true _).atReset, by simp, by simp, by simp⟩
  · have hc := step_asserted_cleared hr (step_rst ha)
    exact ⟨_, step_rst ha, hc.atReset, by simp, by simp, by simp⟩
  · exact ⟨(step_asserted_cleared hr h).atReset, step_id h, step_asserted_events hr h⟩
  · exact ⟨_, step_asserted_reset hr ho ha, atReset_resetBlock _, by simp [hr], by simp,
      fun hb => resetBlock_channels (s := { s with agenda := rest }) hb⟩

/-! ### A reset during a command (R702) -/

/-- Neither the level of `rst` nor the state it forces closes OUT (R702). -/
theorem forced_closed (s : State) : s.forced.output.closed = s.output.closed := by
  unfold State.forced
  split
  · exact s.resetBlock_closed
  · rfl

/-- Settles O6: asserting `rst` clears the registers, records no event and closes nothing. -/
theorem resetCutsACommandShort : Obligations.ResetCutsACommandShort := by
  unfold Obligations.ResetCutsACommandShort
  intro s rest ha _
  have hc := cleared_setRst_true ({ s with agenda := rest } : State).forced
  exact ⟨_, step_rst ha, congrArg Seq.phase hc.seq, by simp, (State.resetBlock_closed _).trans (forced_closed _),
    hc.errCode, hc.errCause, hc.errInfo⟩

/-- Settles O57: reset leaves IDLE with no error recorded. -/
theorem resetMeetsTheInvariant : Obligations.ResetMeetsTheInvariant :=
  inv_of_idle rfl (Nat.le_refl 0) rfl nofun

end Sys2Proof.Machine
end
